-- ==== Sys2Proof/Word.lean ====
section
/-! DEFINITION. The word types of the hardware: bytes and unsigned 32- and 64-bit words
(00_scope.md R7, R9). -/

namespace Sys2Proof

/-- A `u8`: one 8-bit unit of the message, and the width of `CMD` (R9, R24). -/
abbrev Byte := BitVec 8

/-- A `u32` (R9). -/
abbrev W32 := BitVec 32

/-- A `u64` (R9). -/
abbrev W64 := BitVec 64

end Sys2Proof
end

