-- ==== Sys2Proof/Config.lean ====
section
/-! DEFINITION. What the spec leaves to be fixed from outside: the three open cut parameters of
00_scope.md R8 (an argument of the model, held in State as plain data, default XC's text), and the
free value that stands for "any value" (00_scope.md R14, 20_memory.md R48). -/

namespace Sys2Proof

/-- The three open cut parameters of R8 (decisions D13, D14, D15).  Each has exactly two admissible
values, so each is one choice: `false` is the default (XC's text), `true` the named alternative. -/
structure Cuts where
  /-- D13: `false` is `CUT64_WIDE_MIN = 9`, `true` is 8. -/
  wide8 : Bool
  /-- D14: `false` is `CUT128_SHORT_MAX = 15`, `true` is 16. -/
  short16 : Bool
  /-- D15: `false` is `CUT128_FIN_MAX = 128`, `true` is 127. -/
  loop128 : Bool
  deriving DecidableEq, Repr

/-- The defaults of R8: 9, 15 and 128. -/
def Cuts.xc : Cuts := { wide8 := false, short16 := false, loop128 := false }

/-- `CUT64_WIDE_MIN` (R8, used by R121). -/
def Cuts.cut64WideMin (c : Cuts) : Nat := if c.wide8 then 8 else 9

/-- `CUT128_SHORT_MAX` (R8, used by R151). -/
def Cuts.cut128ShortMax (c : Cuts) : Nat := if c.short16 then 16 else 15

/-- `CUT128_FIN_MAX` (R8, used by R150). -/
def Cuts.cut128FinMax (c : Cuts) : Nat := if c.loop128 then 127 else 128

/-- FREE VALUE (R14 "any value", R48, 93 U3): the word drawn by the `k`-th free draw.  It has no
body, so nothing can be proved of it.  Log entries 3, 5 and 9. -/
opaque Config.freeWord : Nat → W64

end Sys2Proof
end

