-- ==== Sys2Proof/Syntax.lean ====
section
/-! DEFINITION. The instructions of the hardware: its six commands, one constructor per row of
spec/opcode_table.json (30_encoding.md R61).  A command has no fields: its operands are the registers
`LEN`, `SEED0`, `SEED1` and the message (R60). -/

namespace Sys2Proof

/-- The six commands (R61). -/
inductive Instr where
  /-- HASH32, `hash32(bytes) -> u32` (R100). -/
  | hash32
  /-- HASH64, `hash64(bytes) -> u64` (R120). -/
  | hash64
  /-- HASH64S, `hash64(bytes, seed) -> u64` (R128). -/
  | hash64s
  /-- HASH64SS, `hash64(bytes, seed0, seed1) -> u64` (R129). -/
  | hash64ss
  /-- HASH128, `hash128(bytes) -> (low, high)` (R158). -/
  | hash128
  /-- HASH128S, `hash128(bytes, seedLow, seedHigh) -> (low, high)` (R150). -/
  | hash128s
  deriving DecidableEq, Repr

/-- The three operand formats: which seed registers a command reads (R60). -/
inductive OperandFormat where
  /-- `LEN`, `MSG` only. -/
  | n
  /-- also `SEED0`. -/
  | s1
  /-- also `SEED0` and `SEED1`. -/
  | s2
  deriving DecidableEq, Repr

/-- The operand format of a command (R60, R61). -/
def Instr.format : Instr → OperandFormat
  | .hash32 => .n
  | .hash64 => .n
  | .hash64s => .s1
  | .hash64ss => .s2
  | .hash128 => .n
  | .hash128s => .s2

/-- Does a command of this format read `SEED0` (R60, R62)? -/
def OperandFormat.readsSeed0 : OperandFormat → Bool
  | .n => false
  | .s1 => true
  | .s2 => true

/-- Does a command of this format read `SEED1` (R60, R62)? -/
def OperandFormat.readsSeed1 : OperandFormat → Bool
  | .n => false
  | .s1 => false
  | .s2 => true

/-- The mnemonic, letter for letter as the opcode table has it (R61). -/
def Instr.mnemonic : Instr → String
  | .hash32 => "HASH32"
  | .hash64 => "HASH64"
  | .hash64s => "HASH64S"
  | .hash64ss => "HASH64SS"
  | .hash128 => "HASH128"
  | .hash128s => "HASH128S"

end Sys2Proof
end

