-- ==== Sys2Proof/WellFormed.lean ====
section
/-! DEFINITION. Well-formedness.  A command as syntax has no field that could be out of range, so every
`Instr` is well formed; what can be ill formed is the 8-bit descriptor in `CMD`
(30_encoding.md R60, R65). -/

namespace Sys2Proof

/-- `CMD[2:0] = OP` (R60). -/
def opField (cmd : Byte) : BitVec 3 := cmd.extractLsb' 0 3

/-- `CMD[7:3] = RSV` (R60). -/
def rsvField (cmd : Byte) : BitVec 5 := cmd.extractLsb' 3 5

/-- A descriptor is legal when `RSV` is zero and `OP` is neither 6 nor 7 (R65). -/
def cmdWellFormed (cmd : Byte) : Bool :=
  decide (rsvField cmd = 0#5) && decide ((opField cmd).toNat ≤ 5)

/-- A command carries no fields (R60: "There are no immediates, no register-number fields, no
addressing-mode fields and no condition fields"), so there is nothing to check. -/
def Instr.wellFormed : Instr → Bool
  | .hash32 => true
  | .hash64 => true
  | .hash64s => true
  | .hash64ss => true
  | .hash128 => true
  | .hash128s => true

end Sys2Proof
end

