-- ==== Sys2Proof/Decode.lean ====
section
/-! DEFINITION. The decoder of the command descriptor, total on every byte and rejecting by name, and the
encoder (30_encoding.md R60, R61, R65). -/

namespace Sys2Proof

/-- Why a descriptor is no command (R65). -/
inductive Reject where
  /-- `CMD[7:3]` is not zero. -/
  | reservedBits (rsv : BitVec 5)
  /-- `CMD[7:3]` is zero and `OP` is 6 or 7. -/
  | reservedOp (op : BitVec 3)
  deriving DecidableEq, Repr

/-- The opcode map (R61); `OP` 6 and 7 are reserved (R65). -/
def decodeOp (op : BitVec 3) : Except Reject Instr :=
  match op.toNat with
  | 0 => .ok .hash32
  | 1 => .ok .hash64
  | 2 => .ok .hash64s
  | 3 => .ok .hash64ss
  | 4 => .ok .hash128
  | 5 => .ok .hash128s
  | _ => .error (.reservedOp op)

/-- The decoder matches the whole byte (R61: "mask `0xFF`"). -/
def decode (cmd : Byte) : Except Reject Instr :=
  if rsvField cmd = 0#5 then decodeOp (opField cmd) else .error (.reservedBits (rsvField cmd))

/-- The descriptor byte of a command: the `CMD` column of R61. -/
def encode : Instr → Byte
  | .hash32 => 0x00#8
  | .hash64 => 0x01#8
  | .hash64s => 0x02#8
  | .hash64ss => 0x03#8
  | .hash128 => 0x04#8
  | .hash128s => 0x05#8

/-- The descriptor byte of an instruction whose `nbits` table bits are `w`; a descriptor is 8 bits
(R60), so there is one byte and no order of bytes to choose. -/
def tableByte (nbits w : Nat) : Byte := BitVec.ofNat 8 (w % 2 ^ nbits)

/-- What the decoder reads from an instruction whose bits are `w`, numbered as
spec/opcode_table.json numbers them. -/
def decodeTableWord (nbits w : Nat) : Option Instr :=
  match decode (tableByte nbits w) with
  | .ok i => some i
  | .error _ => none

end Sys2Proof
end

