-- ==== Sys2Proof/Machine/State.lean ====
section
/-! DEFINITION. The state of the machine as plain data: everything 10_state.md R20 lists, the message
space, and the model's own fields (the host's program, the word it last read, the refusal mark, the
changed-message mark, the free-draw counter and the open parameters).  Also the reasons a step stops,
and the state after reset. -/

namespace Sys2Proof.Machine

/-- `STATUS`, a 2-bit read-only register with three legal values (R25; 93 U11: "a model's `STATUS`
type has three values"). -/
inductive Status where
  /-- 0: no command has completed since reset. -/
  | idle
  /-- 1: a command is executing. -/
  | busy
  /-- 2: the last command has completed and `RES_LO`, `RES_HI` hold its result. -/
  | done
  deriving DecidableEq, Repr

/-- `PHASE`: the states of the sequencing state machine (R27). -/
inductive Phase where
  /-- Before a command and after a terminal phase. -/
  | idle
  /-- Entry of an accepted command: chooses the path by the length. -/
  | init
  /-- Computes the whole result (terminal). -/
  | shortPath
  /-- Consumes one block a step. -/
  | longLoop
  /-- Folds the rolling state into the result (terminal). -/
  | tail
  deriving DecidableEq, Repr

/-- The registers a host reaches by name (R22 to R25, R34).  No port reaches the sequencing state, the
rolling state or the accumulators (R30). -/
inductive HostReg where
  | cmd
  | len
  | seed0
  | seed1
  | resLo
  | resHi
  | status
  deriving DecidableEq, Repr

/-- One action of the host: an element of a "program" in the sense of R68 and R173.  Every action lies
between two of CORE's own steps, except `startTogether`, which coincides with one (R175). -/
inductive HostMove where
  /-- The host does nothing; CORE takes its own step. -/
  | idle
  /-- An operand write (R173).  Ignored while `STATUS` is BUSY (R22, R24) and ignored for `RES_LO`,
  `RES_HI`, `STATUS` (R23, R25).  `CMD` takes the low 8 bits. -/
  | write (reg : HostReg) (value : W64)
  /-- A register read (R173); the word arrives in `hostData`. -/
  | read (reg : HostReg)
  /-- The host places bytes in the message space from an offset on (R40, R173 step 2).  If this changes
  a byte of the running command's message, R48 applies. -/
  | place (offset : Nat) (bytes : List Byte)
  /-- The START event (R173). -/
  | start
  /-- A START in the same instant as a step of CORE, a completion for example: CORE's step is taken
  first (R175). -/
  | startTogether
  /-- Poll `STATUS` until it is DONE (R173 step 4): CORE steps until then. -/
  | waitDone
  /-- A START whose command the host sees as one synchronous call (R173: "A model may equally expose
  each command as one function"; granularity "down to one step per command", R195): if accepted, the
  command's phases run to their end inside this one step. -/
  | call
  /-- The reset input (R190). -/
  | reset
  deriving DecidableEq, Repr

/-- The rolling state: seven 64-bit registers, `(V0, V1)` the pair `V`, `(W0, W1)` the pair `W`
(R28). -/
structure Rolling where
  x : W64
  y : W64
  z : W64
  v0 : W64
  v1 : W64
  w0 : W64
  w1 : W64
  deriving DecidableEq, Repr

/-- The three 32-bit accumulators `H`, `G`, `F` of the 32-bit engine (R29). -/
structure Acc32 where
  h : W32
  g : W32
  f : W32
  deriving DecidableEq, Repr

/-- An ordered pair of words with structural equality: a 128-bit value `(low, high)`, that is, the
contents of `RES_LO` and `RES_HI` (R159, R160); also a pair of seeds and the pairs `V`, `W` of R91. -/
structure Pair where
  lo : W64
  hi : W64
  deriving DecidableEq, Repr

/-- The host's memory seen through the message port: offset and byte (R40), offsets strictly rising.
A byte that is not listed has not been placed and reads as no value (log entry 4). -/
abbrev Memory := List Host.Cell

/-- The message of a command: the bytes `MSG[0 .. len-1]` (R40). -/
structure Msg where
  len : Nat
  mem : Memory
  deriving DecidableEq, Repr

/-- The complete state of CORE (R20), the message space, and the model's own fields.  The constant ROM
(R26) can be neither written nor read by anyone outside, so it is the constants `Rom.…`, not a field. -/
structure State where
  /-- `CMD`, 8 bits (R24). -/
  cmd : Byte
  /-- `LEN`, the number of bytes of the message (R22). -/
  len : W64
  /-- `SEED0` (R22). -/
  seed0 : W64
  /-- `SEED1` (R22). -/
  seed1 : W64
  /-- `RES_LO` (R23). -/
  resLo : W64
  /-- `RES_HI` (R23). -/
  resHi : W64
  /-- `STATUS` (R25). -/
  status : Status
  /-- `PHASE` (R27). -/
  phase : Phase
  /-- `POS`, the message offset of the next block (R27). -/
  pos : W64
  /-- `REM`, the number of message bytes the long loop has not consumed (R27). -/
  rem : W64
  /-- `X`, `Y`, `Z`, `V0`, `V1`, `W0`, `W1` (R28). -/
  roll : Rolling
  /-- `H`, `G`, `F` (R29). -/
  acc : Acc32
  /-- The message space (R40), owned by the host. -/
  mem : Memory
  /-- MODEL'S OWN: the host's program, the actions still to come (R68, R173). -/
  script : List HostMove
  /-- MODEL'S OWN: the word the host's last register read returned (R173). -/
  hostData : W64
  /-- MODEL'S OWN: the refusal mark, the number of STARTs refused since reset (R65, R172). -/
  refusals : Nat
  /-- MODEL'S OWN: the host has changed a byte of the running command's message (R48). -/
  msgChanged : Bool
  /-- MODEL'S OWN: how many free values have been drawn (R30, R48, R192; log
  entries 3, 5 and 9). -/
  free : Nat
  /-- MODEL'S OWN: the open parameters of R8; no step changes them (log entry 2). -/
  cuts : Cuts
  deriving DecidableEq, Repr

/-- The message of the current operands: `LEN` bytes of the message space (R40, R63, R64). -/
def State.msg (s : State) : Msg := { len := s.len.toNat, mem := s.mem }

/-- Why the model stops.  The hardware itself raises nothing (R170); both are the model's. -/
inductive Fault where
  /-- Raised by `memRead` for a read of `n` bytes at `off` with `off + n > LEN`; `rule` is the number
  of the rule that issued it (R46).  Never raised by a command (R44).  SAFE: it stops. -/
  | outsideMessage (rule off n : Nat)
  /-- Raised by `memRead` for a byte inside the message that the host has not placed (R173 step 2,
  R191); `rule` is the number of the rule that issued the read.  SAFE: it stops. -/
  | unplaced (rule off : Nat)
  deriving DecidableEq, Repr

/-- Why the model gives no step.  No instruction is refused: a START with a reserved `CMD` is the
hardware's own "nothing" (R172, log entry 6). -/
inductive Refusal where
  /-- Raised by an arm of `exec` whose instruction has no meaning yet; no arm raises it.  SAFE. -/
  | notModelled (mnemonic : String)
  deriving DecidableEq, Repr

/-- The machine right after reset: `STATUS` and `PHASE` IDLE (R35, R190).  R35 gives every other
register no value; the model names zero for each (log entry 1).  Nothing is placed in the message
space, the host has no program, the open parameters are at their defaults (R8). -/
def State.reset : State where
  cmd := 0#8
  len := 0#64
  seed0 := 0#64
  seed1 := 0#64
  resLo := 0#64
  resHi := 0#64
  status := .idle
  phase := .idle
  pos := 0#64
  rem := 0#64
  roll := { x := 0#64, y := 0#64, z := 0#64, v0 := 0#64, v1 := 0#64, w0 := 0#64, w1 := 0#64 }
  acc := { h := 0#32, g := 0#32, f := 0#32 }
  mem := []
  script := []
  hostData := 0#64
  refusals := 0
  msgChanged := false
  free := 0
  cuts := Cuts.xc

end Sys2Proof.Machine
end

