-- ==== Sys2Proof/Machine/Ops.lean ====
section
/-! DEFINITION. The named operations over the message space and the registers: reading bytes of the
message (one place for byte order and bounds), the named register updates of launch, phases and
completion, the host's accesses, reset, and the shared runner of a command's phases.  The hardware takes
no exception and returns from none (60_exceptions.md R170, R176, R177), so there is no such operation. -/

namespace Sys2Proof.Machine

/-! ### The message space -/

/-- The byte placed at an offset, if one has been (R40). -/
def Memory.find : Memory → Nat → Option Byte
  | [], _ => none
  | cell :: rest, a => if cell.1 = a then some cell.2 else Memory.find rest a

/-- Place one byte, keeping the offsets rising. -/
def Memory.set : Memory → Nat → Byte → Memory
  | [], a, b => [(a, b)]
  | cell :: rest, a, b =>
    if a < cell.1 then (a, b) :: cell :: rest
    else if a = cell.1 then (a, b) :: rest
    else cell :: Memory.set rest a b

/-- Place a run of bytes from an offset on. -/
def Memory.place : Memory → Nat → List Byte → Memory
  | m, _, [] => m
  | m, a, b :: bs => Memory.place (Memory.set m a b) (a + 1) bs

/-- Every listed offset is above `lo`, and they rise strictly. -/
def Memory.risesFrom : Nat → Memory → Bool
  | _, [] => true
  | lo, cell :: rest => decide (lo ≤ cell.1) && Memory.risesFrom (cell.1 + 1) rest

/-- The canonical form of the message space: offsets strictly rising.  An unlisted byte reads as no
value, so no listed entry can equal it. -/
def Memory.wf (m : Memory) : Bool := Memory.risesFrom 0 m

/-- Does placing these bytes change a byte below `len`? (R48: "changes a byte of the message") -/
def Memory.changes : Memory → Nat → Nat → List Byte → Bool
  | _, _, _, [] => false
  | m, len, a, b :: bs =>
    (decide (a < len) && decide (Memory.find m a ≠ some b)) || Memory.changes m len (a + 1) bs

/-- Assemble `n` bytes from `off` on, least significant first (R41). -/
def readBytes (rule : Nat) (m : Memory) : Nat → Nat → Except Fault Nat
  | _, 0 => .ok 0
  | off, n + 1 =>
    match Memory.find m off with
    | none => .error (.unplaced rule off)
    | some b =>
      match readBytes rule m (off + 1) n with
      | .error f => .error f
      | .ok v => .ok (b.toNat + 256 * v)

/-- `MemRead(off, n)` (R11, R41): little-endian, any alignment (R43), inside the message only; `rule` is
the number of the rule that issues it (R46). -/
def memRead (rule : Nat) (m : Msg) (off n : Nat) : Except Fault Nat :=
  if off + n ≤ m.len then readBytes rule m.mem off n else .error (.outsideMessage rule off n)

/-! ### Width conversions (R11) -/

/-- `zext_64` of a 32-bit word. -/
def zext64 (v : W32) : W64 := v.zeroExtend 64

/-- `trunc_32` of a natural number taken as a value (R63). -/
def trunc32 (n : Nat) : W32 := BitVec.ofNat 32 n

/-- A length used as a 64-bit value (R63). -/
def word64 (n : Nat) : W64 := BitVec.ofNat 64 n

/-- `sext_32` of a byte: the one signed conversion of the hardware (R9, R11, R101). -/
def sext32 (b : Byte) : W32 := b.signExtend 32

/-- `zext_32` of a byte (R121). -/
def zext32 (b : Byte) : W32 := b.zeroExtend 32

/-! ### Register updates -/

/-- An accepted START: `STATUS <- BUSY; PHASE <- INIT` (R173).  The operands are latched in the sense
that nothing writes them while BUSY (R22).  A new command's message counts as unchanged (R48). -/
def State.launch (s : State) : State :=
  { s with status := .busy, phase := .init, msgChanged := false }

/-- The part of the message a command works on: the `n` bytes from offset `base` on (R27; 43_hash128.md,
before R150). -/
structure Part where
  base : Nat
  n : Nat
  deriving DecidableEq, Repr

/-- INIT chooses the short path: `POS` is the start of the command's part, 0 or 16, and `REM` its length,
since no block has been consumed (R27; log entry 20). -/
def State.enterShort (p : Part) (s : State) : State :=
  { s with pos := word64 p.base, rem := word64 p.n, phase := .shortPath }

/-- The rolling state, position and phase after INIT or a block step of the 64- and 128-bit engines. -/
def State.setLong64 (r : Rolling) (pos rem : W64) (p : Phase) (s : State) : State :=
  { s with roll := r, pos := pos, rem := rem, phase := p }

/-- The accumulators, position and phase after INIT or a block step of the 32-bit engine. -/
def State.setLong32 (a : Acc32) (pos rem : W64) (p : Phase) (s : State) : State :=
  { s with acc := a, pos := pos, rem := rem, phase := p }

/-- After a terminal phase the working registers hold values nobody may use (R30, R196; 93 U12): twelve
free values (log entry 9). -/
def State.dropWork (s : State) : State :=
  { s with
    pos := Config.freeWord s.free
    rem := Config.freeWord (s.free + 1)
    roll := {
      x := Config.freeWord (s.free + 2)
      y := Config.freeWord (s.free + 3)
      z := Config.freeWord (s.free + 4)
      v0 := Config.freeWord (s.free + 5)
      v1 := Config.freeWord (s.free + 6)
      w0 := Config.freeWord (s.free + 7)
      w1 := Config.freeWord (s.free + 8) }
    acc := {
      h := (Config.freeWord (s.free + 9)).truncate 32
      g := (Config.freeWord (s.free + 10)).truncate 32
      f := (Config.freeWord (s.free + 11)).truncate 32 }
    free := s.free + 12 }

/-- Both result registers are written at once, then `STATUS <- DONE` and `PHASE <- IDLE` (R23, R27,
R67); the working registers are given up. -/
def State.finish (r : Pair) (s : State) : State :=
  { s.dropWork with resLo := r.lo, resHi := r.hi, status := .done, phase := .idle, msgChanged := false }

/-- Completion of a command with result `r`.  If the host changed the message while BUSY, the two result
words are free values instead, and nothing else differs (R48, 93 U3; log entry 3). -/
def State.complete (r : Pair) (s : State) : State :=
  let t := s.finish r
  if s.msgChanged then
    { t with
      resLo := Config.freeWord t.free
      resHi := Config.freeWord (t.free + 1)
      free := t.free + 2 }
  else t

/-! ### Running the phases of a command -/

/-- What the phases of one command compute.  `part` is the part of the message it works on (R27, R150, R158)
and `isShort` the length dispatch of INIT; the other four
are the work of SHORT_PATH, INIT on the long path, one LONG_LOOP step, and TAIL (R27). -/
structure Engine where
  part : State → Part
  isShort : State → Bool
  short : State → Except Fault Pair
  init : State → Except Fault State
  block : State → Except Fault State
  tail : State → Except Fault Pair

/-- One step of a command's state machine: one step per phase entry and one per block (R27, R195,
decision D12). -/
def phaseStep (e : Engine) (s : State) : Except Fault State :=
  match s.phase with
  | .idle => .ok s
  | .init => if e.isShort s then .ok (s.enterShort (e.part s)) else e.init s
  | .shortPath =>
    match e.short s with
    | .ok r => .ok (s.complete r)
    | .error f => .error f
  | .longLoop => e.block s
  | .tail =>
    match e.tail s with
    | .ok r => .ok (s.complete r)
    | .error f => .error f

/-- At most `k` steps of the state machine, stopping at PHASE IDLE. -/
def runPhases (e : Engine) : Nat → State → Except Fault State
  | 0, s => .ok s
  | k + 1, s =>
    match s.phase with
    | .idle => .ok s
    | _ =>
      match phaseStep e s with
      | .ok t => runPhases e k t
      | .error f => .error f

/-- The outcome of a step that may stop. -/
def outcomeOf : Except Fault State → Host.Outcome State Fault Refusal
  | .ok s => .next s
  | .error f => .fault f

/-- A whole command: an accepted START, then the phases to their end.  The bound `LEN + 3` is above the
number of steps R195 gives for every path, so the run always reaches PHASE IDLE (R182). -/
def runCommand (e : Engine) (s : State) : Host.Outcome State Fault Refusal :=
  outcomeOf (runPhases e (s.len.toNat + 3) s.launch)

/-! ### The host's accesses (R22 to R25, R173, R190) -/

/-- The two bits a read of `STATUS` returns (R25). -/
def Status.code : Status → BitVec 2
  | .idle => 0#2
  | .busy => 1#2
  | .done => 2#2

/-- Take the next action off the host's program. -/
def State.popScript (rest : List HostMove) (s : State) : State := { s with script := rest }

/-- A host write: operand registers and `CMD` take it unless `STATUS` is BUSY (R22, R24); `RES_LO`,
`RES_HI` and `STATUS` ignore it (R23, R25). -/
def hostWrite (reg : HostReg) (v : W64) (s : State) : State :=
  match s.status with
  | .busy => s
  | _ =>
    match reg with
    | .cmd => { s with cmd := v.truncate 8 }
    | .len => { s with len := v }
    | .seed0 => { s with seed0 := v }
    | .seed1 => { s with seed1 := v }
    | .resLo => s
    | .resHi => s
    | .status => s

/-- A word arrives at the host. -/
def State.deliver (v : W64) (s : State) : State := { s with hostData := v }

/-- A read of a result register that holds `v`: allowed at any time (R23, R173), and `v` while
`STATUS = DONE`; at any other time "the value read is unspecified" (R192, R36), so the host gets a free
value and the register stays as it is (log entry 5). -/
def readResult (v : W64) (s : State) : State :=
  match s.status with
  | .done => s.deliver v
  | _ => { s.deliver (Config.freeWord s.free) with free := s.free + 1 }

/-- A host read (R22 to R25): the word arrives in `hostData`; no register of CORE changes. -/
def hostRead (reg : HostReg) (s : State) : State :=
  match reg with
  | .cmd => s.deliver (s.cmd.zeroExtend 64)
  | .len => s.deliver s.len
  | .seed0 => s.deliver s.seed0
  | .seed1 => s.deliver s.seed1
  | .resLo => readResult s.resLo s
  | .resHi => readResult s.resHi s
  | .status => s.deliver (s.status.code.zeroExtend 64)

/-- The host places bytes in the message space.  While BUSY, a changed byte of the message makes the
running command's result any value (R48). -/
def hostPlace (off : Nat) (bytes : List Byte) (s : State) : State :=
  { s with
    mem := Memory.place s.mem off bytes
    msgChanged := s.msgChanged ||
      (decide (s.status = .busy) && Memory.changes s.mem s.len.toNat off bytes) }

/-- The reset input (R190): `STATUS` and `PHASE` become IDLE, every other register is unspecified and
takes the model's named reset value (log entry 1); a running command is abandoned; the message space,
the host's program and its last read word, the open parameters and the free-draw counter stay. -/
def hostReset (s : State) : State :=
  { State.reset with
    mem := s.mem
    script := s.script
    hostData := s.hostData
    free := s.free
    cuts := s.cuts }

end Sys2Proof.Machine
end

