-- ==== Sys2Proof/Machine/Operands.lean ====
section
/-! DEFINITION. The operand forms: the three loads of the message, and the part of the message a 128-bit
command works on (30_encoding.md R60 to R64, 40_primitives.md R82 to R84, 43_hash128.md). -/

namespace Sys2Proof.Machine

/-- `LE32(off)` (R82). -/
def le32 (rule : Nat) (m : Msg) (off : Nat) : Except Fault W32 :=
  match memRead rule m off 4 with
  | .ok v => .ok (BitVec.ofNat 32 v)
  | .error f => .error f

/-- `LE64(off)` (R83). -/
def le64 (rule : Nat) (m : Msg) (off : Nat) : Except Fault W64 :=
  match memRead rule m off 8 with
  | .ok v => .ok (BitVec.ofNat 64 v)
  | .error f => .error f

/-- `BYTE(off)` (R84). -/
def byteAt (rule : Nat) (m : Msg) (off : Nat) : Except Fault Byte :=
  match memRead rule m off 1 with
  | .ok v => .ok (BitVec.ofNat 8 v)
  | .error f => .error f

/-- The whole message: `B = 0`, `n = LEN` (R150; also the 32- and 64-bit commands, R27). -/
def partWhole (len : Nat) : Part := { base := 0, n := len }

/-- HASH128 on 16 bytes or more leaves the first 16 bytes out: `B = 16`, `n = LEN - 16`; on fewer it
works on the whole message (R158). -/
def partUnseeded (len : Nat) : Part :=
  if 16 ≤ len then { base := 16, n := len - 16 } else { base := 0, n := len }

end Sys2Proof.Machine
end

