-- ==== Sys2Proof/Machine/Flags.lean ====
section
/-! DEFINITION. The hardware has no flags and no condition codes; the only condition a command evaluates
is a comparison of a length with a threshold, consumed at once by the dispatch (10_state.md R31).  Those
comparisons, exact (R27: "must not be approximated or rounded"), are here, with the loop guards and
counts. -/

namespace Sys2Proof.Machine

/-- HASH32 takes SHORT_PATH up to 24 bytes (R100, R195). -/
def short32 (len : Nat) : Bool := decide (len ≤ 24)

/-- The 64-bit commands take SHORT_PATH up to 64 bytes (R120, R195). -/
def short64 (len : Nat) : Bool := decide (len ≤ 64)

/-- A 128-bit command gives parts up to `CUT128_FIN_MAX` to the finisher (R150). -/
def short128 (cuts : Cuts) (n : Nat) : Bool := decide (n ≤ cuts.cut128FinMax)

/-- The number of 20-byte block steps of HASH32's long path (R106). -/
def blocks32 (len : Nat) : Nat := (len - 1) / 20

/-- The number of 64-byte block steps of the 64-bit long path (R126). -/
def blocks64 (len : Nat) : Nat := (len - 1) / 64

/-- The number of pairs of 64-byte block steps of the 128-bit long path (R154). -/
def pairs128 (n : Nat) : Nat := n / 128

/-- The phase after a block step of HASH32 that left `POS = pos`: the step runs `blocks32 len` times
(R106). -/
def phaseAfterBlock32 (len pos : Nat) : Phase :=
  if pos < 20 * blocks32 len then .longLoop else .tail

/-- The phase after a block step of the 64-bit engine: the step is taken while `REM > 64` (R126). -/
def phaseAfterBlock64 (rem : Nat) : Phase := if 64 < rem then .longLoop else .tail

/-- The phase after a pair of block steps of the 128-bit engine: until `REM < 128` (R154). -/
def phaseAfterPair128 (rem : Nat) : Phase := if rem < 128 then .tail else .longLoop

/-- Does a block step that left `POS = pos` end a pair (R154)? -/
def endsPair128 (base pos : Nat) : Bool := decide ((pos - base) % 128 = 0)

/-- The number of chunk iterations of the finisher's long branch (R152). -/
def finisherChunks (n : Nat) : Nat := max 1 ((n - 16 + 15) / 16)

/-- The number of backward 32-byte tail passes (R156). -/
def tailPasses (rem : Nat) : Nat := (rem + 31) / 32

end Sys2Proof.Machine
end

