-- ==== Sys2Proof/Machine/Primitives.lean ====
section
/-! DEFINITION. The constant ROM (10_state.md R26) and the primitive mixing utilities of 40_primitives.md
(R80, R81, R85 to R92), each in one place so that it can be replaced alone (93 section 2). -/

namespace Sys2Proof.Machine

/-! ### Constant ROM (R7, R26) -/

def Rom.c1 : W32 := 0xcc9e2d51#32
def Rom.c2 : W32 := 0x1b873593#32
def Rom.k0 : W64 := 0xc3a5c85c97cb3127#64
def Rom.k1 : W64 := 0xb492b66fbe98f273#64
def Rom.k2 : W64 := 0x9ae16a3b2f90404f#64
def Rom.kMul : W64 := 0x9ddfea08eb382d69#64

/-- The literal `K` of the 32-bit engine (R26, R90, R104). -/
def Rom.k32 : W32 := 0xe6546b64#32

/-! ### Rotation -/

/-- `rotr32` (R80); the amount is a bounded type (93 U5), and rotation by 0 is the identity. -/
def rotr32 (v : W32) (s : Fin 32) : W32 :=
  if s.val = 0 then v else (v >>> s.val) ||| (v <<< (32 - s.val))

/-- `rotr64` (R81). -/
def rotr64 (v : W64) (s : Fin 64) : W64 :=
  if s.val = 0 then v else (v >>> s.val) ||| (v <<< (64 - s.val))

/-! ### Avalanche and combination -/

/-- `shiftMix` (R85). -/
def shiftMix (v : W64) : W64 := v ^^^ (v >>> 47)

/-- `hashLen16WithMul`, the five-step form (R86; 90_conflicts.md C1). -/
def hashLen16WithMul (u v mul : W64) : W64 :=
  let a := shiftMix ((u ^^^ v) * mul)
  let b := shiftMix ((v ^^^ a) * mul)
  b * mul

/-- `hashLen16` (R87). -/
def hashLen16 (u v : W64) : W64 := hashLen16WithMul u v Rom.kMul

/-- `bswap32`: byte `j` of the result is byte `3 - j` of the value (R88). -/
def bswap32 (v : W32) : W32 :=
  v.extractLsb' 0 8 ++ v.extractLsb' 8 8 ++ v.extractLsb' 16 8 ++ v.extractLsb' 24 8

/-- `bswap64`: byte `j` of the result is byte `7 - j` of the value (R88). -/
def bswap64 (v : W64) : W64 :=
  v.extractLsb' 0 8 ++ v.extractLsb' 8 8 ++ v.extractLsb' 16 8 ++ v.extractLsb' 24 8 ++
    v.extractLsb' 32 8 ++ v.extractLsb' 40 8 ++ v.extractLsb' 48 8 ++ v.extractLsb' 56 8

/-- `fmix32` (R89). -/
def fmix32 (h : W32) : W32 :=
  let h := h ^^^ (h >>> 16)
  let h := h * 0x85ebca6b#32
  let h := h ^^^ (h >>> 13)
  let h := h * 0xc2b2ae35#32
  h ^^^ (h >>> 16)

/-- `mur32`: the data word first, the accumulator second (R90). -/
def mur32 (a h : W32) : W32 :=
  let a := rotr32 (a * Rom.c1) 17 * Rom.c2
  rotr32 (h ^^^ a) 19 * 5#32 + Rom.k32

/-- `weakHash32` (R91). -/
def weakHash32 (w x y z a b : W64) : Pair :=
  let a := a + w
  let b := rotr64 (b + a + z) 21
  let c := a
  let a := a + x
  let a := a + y
  let b := b + rotr64 a 44
  { lo := a + z, hi := b + c }

/-- `weakHash32At`: `weakHash32` of the 32 message bytes at `off` (R91). -/
def weakHash32At (rule : Nat) (m : Msg) (off : Nat) (a b : W64) : Except Fault Pair := do
  let w ← le64 rule m off
  let x ← le64 rule m (off + 8)
  let y ← le64 rule m (off + 16)
  let z ← le64 rule m (off + 24)
  .ok (weakHash32 w x y z a b)

/-- `blockStep`: consume the 64-byte block at `p` (R92). -/
def blockStep (rule : Nat) (m : Msg) (p : Nat) (r : Rolling) : Except Fault Rolling := do
  let l8 ← le64 rule m (p + 8)
  let x := rotr64 (r.x + r.y + r.v0 + l8) 37 * Rom.k1
  let l48 ← le64 rule m (p + 48)
  let y := rotr64 (r.y + r.v1 + l48) 42 * Rom.k1
  let x := x ^^^ r.w1
  let l40 ← le64 rule m (p + 40)
  let y := y + r.v0 + l40
  let z := rotr64 (r.z + r.w0) 33 * Rom.k1
  let v ← weakHash32At rule m p (r.v1 * Rom.k1) (x + r.w0)
  let l16 ← le64 rule m (p + 16)
  let w ← weakHash32At rule m (p + 32) (z + r.w1) (y + l16)
  .ok { x := z, y := y, z := x, v0 := v.lo, v1 := v.hi, w0 := w.lo, w1 := w.hi }

/-- `k` block steps at `p`, `p + 64`, ... (R126, R154). -/
def blockSteps (rule : Nat) (m : Msg) : Nat → Nat → Rolling → Except Fault Rolling
  | 0, _, r => .ok r
  | k + 1, p, r => do
    let r ← blockStep rule m p r
    blockSteps rule m k (p + 64) r

end Sys2Proof.Machine
end

