-- ==== Sys2Proof/Machine/Hash64.lean ====
section
/-! DEFINITION. The 64-bit hash engine and the meanings of HASH64, HASH64S and HASH64SS
(42_hash64.md R120 to R129).  Arithmetic is 64-bit; lengths and offsets are natural numbers. -/

namespace Sys2Proof.Machine

/-! ### Short paths -/

/-- `mul <- k2 + n * 2` (R121, R122, R123). -/
def lenMul (n : Nat) : W64 := Rom.k2 + word64 n * 2#64

/-- `hash64_0to16(B, n)`: the `n` bytes from message offset `B` on, `n <= 16` (R121). -/
def hash64_0to16 (cuts : Cuts) (m : Msg) (base n : Nat) : Except Fault W64 :=
  if cuts.cut64WideMin ≤ n then do
    let mul := lenMul n
    let w ← le64 121 m base
    let a := w + Rom.k2
    let b ← le64 121 m (base + n - 8)
    let c := rotr64 b 37 * mul + a
    let d := (rotr64 a 25 + b) * mul
    .ok (hashLen16WithMul c d mul)
  else if 4 ≤ n then do
    let mul := lenMul n
    let w ← le32 121 m base
    let a := zext64 w
    let l ← le32 121 m (base + n - 4)
    .ok (hashLen16WithMul (word64 n + (a <<< 3)) (zext64 l) mul)
  else if 0 < n then do
    let a ← byteAt 121 m base
    let b ← byteAt 121 m (base + (n >>> 1))
    let c ← byteAt 121 m (base + n - 1)
    let y := zext32 a + (zext32 b <<< 8)
    let z := trunc32 n + (zext32 c <<< 2)
    .ok (shiftMix ((zext64 y * Rom.k2) ^^^ (zext64 z * Rom.k0)) * Rom.k2)
  else .ok Rom.k2

/-- `hash64_17to32()` (R122). -/
def hash64_17to32 (m : Msg) : Except Fault W64 := do
  let mul := lenMul m.len
  let w0 ← le64 122 m 0
  let a := w0 * Rom.k1
  let b ← le64 122 m 8
  let w2 ← le64 122 m (m.len - 8)
  let c := w2 * mul
  let w3 ← le64 122 m (m.len - 16)
  let d := w3 * Rom.k2
  .ok (hashLen16WithMul (rotr64 (a + b) 43 + rotr64 c 30 + d) (a + rotr64 (b + Rom.k2) 18 + c) mul)

/-- `hash64_33to64()` (R123). -/
def hash64_33to64 (m : Msg) : Except Fault W64 := do
  let mul := lenMul m.len
  let w0 ← le64 123 m 0
  let a := w0 * Rom.k2
  let b ← le64 123 m 8
  let c ← le64 123 m (m.len - 24)
  let d ← le64 123 m (m.len - 32)
  let w4 ← le64 123 m 16
  let e := w4 * Rom.k2
  let w5 ← le64 123 m 24
  let f := w5 * 9#64
  let g ← le64 123 m (m.len - 8)
  let w7 ← le64 123 m (m.len - 16)
  let h := w7 * mul
  let u := rotr64 (a + g) 43 + (rotr64 b 30 + c) * 9#64
  let v := ((a + g) ^^^ d) + f + 1#64
  let w := bswap64 ((u + v) * mul) + h
  let x := rotr64 (e + f) 42 + c
  let y := (bswap64 ((v + w) * mul) + g) * mul
  let z := e + f + c
  let a := bswap64 ((x + z) * mul + y) + b
  let b := shiftMix ((z + a) * mul + d + h) * mul
  .ok (b + x)

/-- SHORT_PATH: the dispatch of R120 up to 64 bytes. -/
def hash64Short (cuts : Cuts) (m : Msg) : Except Fault W64 :=
  if m.len ≤ 16 then hash64_0to16 cuts m 0 m.len
  else if m.len ≤ 32 then hash64_17to32 m
  else hash64_33to64 m

/-! ### Long path -/

/-- INIT of `hash64_long()`: the last 64 bytes, the length and the first word (R124). -/
def hash64Init (m : Msg) : Except Fault Rolling := do
  let x ← le64 124 m (m.len - 40)
  let y0 ← le64 124 m (m.len - 16)
  let y1 ← le64 124 m (m.len - 56)
  let y := y0 + y1
  let z0 ← le64 124 m (m.len - 48)
  let z1 ← le64 124 m (m.len - 24)
  let z := hashLen16 (z0 + word64 m.len) z1
  let v ← weakHash32At 124 m (m.len - 64) (word64 m.len) z
  let w ← weakHash32At 124 m (m.len - 32) (y + Rom.k1) x
  let x0 ← le64 124 m 0
  .ok { x := x * Rom.k1 + x0, y := y, z := z, v0 := v.lo, v1 := v.hi, w0 := w.lo, w1 := w.hi }

/-- TAIL of `hash64_long()`: the final fold of all seven words (R127). -/
def hash64Fold (r : Rolling) : W64 :=
  hashLen16 (hashLen16 r.v0 r.w0 + shiftMix r.y * Rom.k1 + r.z) (hashLen16 r.v1 r.w1 + r.x)

/-- `hash64_long()`: INIT, `floor((LEN - 1) / 64)` block steps, TAIL (R124 to R127). -/
def hash64Long (m : Msg) : Except Fault W64 := do
  let r ← hash64Init m
  let r ← blockSteps 125 m (blocks64 m.len) 0 r
  .ok (hash64Fold r)

/-- The function view of the unseeded hash, "`hash64(b)` in other rules" (R120, R12, R197). -/
def hash64 (cuts : Cuts) (m : Msg) : Except Fault W64 :=
  if short64 m.len then hash64Short cuts m else hash64Long m

/-! ### The commands -/

/-- Result placement of a 64-bit result: `RES_LO <- r; RES_HI <- 0` (R67). -/
def place64 (r : W64) : Pair := { lo := r, hi := 0#64 }

/-- The combinator of HASH64S: `hashLen16(h - k2, SEED0)` (R128). -/
def seedOne (seed : W64) (h : W64) : W64 := hashLen16 (h - Rom.k2) seed

/-- The combinator of HASH64SS: `hashLen16(h - SEED0, SEED1)` (R129). -/
def seedTwo (seed0 seed1 : W64) (h : W64) : W64 := hashLen16 (h - seed0) seed1

/-- INIT on the long path: load the rolling state, `POS <- 0; REM <- LEN` (R124). -/
def long64Init (s : State) : Except Fault State := do
  let r ← hash64Init s.msg
  .ok (s.setLong64 r 0#64 s.len .longLoop)

/-- One LONG_LOOP step: `POS <- POS + 64; REM <- REM - 64`, again while `REM > 64` (R125, R126). -/
def long64Block (s : State) : Except Fault State := do
  let r ← blockStep 125 s.msg s.pos.toNat s.roll
  let rem := s.rem - 64#64
  .ok (s.setLong64 r (s.pos + 64#64) rem (phaseAfterBlock64 rem.toNat))

/-- The phases of HASH64 (R120). -/
def engineHash64 : Engine where
  part s := partWhole s.len.toNat
  isShort s := short64 s.len.toNat
  short s := do
    let h ← hash64Short s.cuts s.msg
    .ok (place64 h)
  init := long64Init
  block := long64Block
  tail s := .ok (place64 (hash64Fold s.roll))

/-- The phases of HASH64S: those of HASH64, the combinator applied in the terminal phase (R128,
R195). -/
def engineHash64S : Engine where
  part s := partWhole s.len.toNat
  isShort s := short64 s.len.toNat
  short s := do
    let h ← hash64Short s.cuts s.msg
    .ok (place64 (seedOne s.seed0 h))
  init := long64Init
  block := long64Block
  tail s := .ok (place64 (seedOne s.seed0 (hash64Fold s.roll)))

/-- The phases of HASH64SS: those of HASH64, the combinator applied in the terminal phase (R129,
R195). -/
def engineHash64SS : Engine where
  part s := partWhole s.len.toNat
  isShort s := short64 s.len.toNat
  short s := do
    let h ← hash64Short s.cuts s.msg
    .ok (place64 (seedTwo s.seed0 s.seed1 h))
  init := long64Init
  block := long64Block
  tail s := .ok (place64 (seedTwo s.seed0 s.seed1 (hash64Fold s.roll)))

/-- HASH64 (R120). -/
def execHash64 (s : State) : Host.Outcome State Fault Refusal := runCommand engineHash64 s

/-- HASH64S (R128). -/
def execHash64S (s : State) : Host.Outcome State Fault Refusal := runCommand engineHash64S s

/-- HASH64SS (R129). -/
def execHash64SS (s : State) : Host.Outcome State Fault Refusal := runCommand engineHash64SS s

end Sys2Proof.Machine
end

