-- ==== Sys2Proof/Machine/Hash128.lean ====
section
/-! DEFINITION. The 128-bit hash engine and the meanings of HASH128 and HASH128S
(43_hash128.md R150 to R160).  Both work on a part of the message: `n` bytes from offset `B` on. -/

namespace Sys2Proof.Machine

/-! ### The finisher -/

/-- The common ending of both branches of the finisher (R151, R152). -/
def finisherEnd (a b c d : W64) : Pair :=
  let a := hashLen16 a c
  let b := hashLen16 d b
  { lo := a ^^^ b, hi := hashLen16 b a }

/-- The short branch of `finisher(B, n, sLow, sHigh)` (R151). -/
def finisherShort (cuts : Cuts) (m : Msg) (p : Part) (seeds : Pair) : Except Fault Pair := do
  let a := shiftMix (seeds.lo * Rom.k1) * Rom.k1
  let b := seeds.hi
  let h ← hash64_0to16 cuts m p.base p.n
  let c := b * Rom.k1 + h
  let t ← if 8 ≤ p.n then le64 151 m p.base else .ok c
  let d := shiftMix (a + t)
  .ok (finisherEnd a b c d)

/-- The loop of the finisher's long branch: `k` chunks of 16 bytes from `q` on (R152). -/
def finisherChunkLoop (m : Msg) : Nat → Nat → W64 → W64 → W64 → W64 → Except Fault Pair
  | 0, _, a, b, c, d => .ok (finisherEnd a b c d)
  | k + 1, q, a, b, c, d => do
    let w0 ← le64 152 m q
    let a := (a ^^^ (shiftMix (w0 * Rom.k1) * Rom.k1)) * Rom.k1
    let b := b ^^^ a
    let w1 ← le64 152 m (q + 8)
    let c := (c ^^^ (shiftMix (w1 * Rom.k1) * Rom.k1)) * Rom.k1
    let d := d ^^^ c
    finisherChunkLoop m k (q + 16) a b c d

/-- The long branch of `finisher(B, n, sLow, sHigh)` (R152). -/
def finisherLong (m : Msg) (p : Part) (seeds : Pair) : Except Fault Pair := do
  let a := seeds.lo
  let b := seeds.hi
  let e0 ← le64 152 m (p.base + p.n - 8)
  let c := hashLen16 (e0 + Rom.k1) a
  let e1 ← le64 152 m (p.base + p.n - 16)
  let d := hashLen16 (b + word64 p.n) (c + e1)
  let a := a + d
  finisherChunkLoop m (finisherChunks p.n) p.base a b c d

/-- `finisher(B, n, sLow, sHigh)` (R151, R152). -/
def finisher (cuts : Cuts) (m : Msg) (p : Part) (seeds : Pair) : Except Fault Pair :=
  if p.n ≤ cuts.cut128ShortMax then finisherShort cuts m p seeds else finisherLong m p seeds

/-! ### The block-loop path -/

/-- INIT of `hash128_long(B, n, sLow, sHigh)` (R153). -/
def hash128Init (m : Msg) (p : Part) (seeds : Pair) : Except Fault Rolling := do
  let x := seeds.lo
  let y := seeds.hi
  let z := word64 p.n * Rom.k1
  let b0 ← le64 153 m p.base
  let v0 := rotr64 (y ^^^ Rom.k1) 49 * Rom.k1 + b0
  let b8 ← le64 153 m (p.base + 8)
  let v1 := rotr64 v0 42 * Rom.k1 + b8
  let w0 := rotr64 (y + z) 35 * Rom.k1 + x
  let b88 ← le64 153 m (p.base + 88)
  let w1 := rotr64 (x + b88) 53 * Rom.k1
  .ok { x := x, y := y, z := z, v0 := v0, v1 := v1, w0 := w0, w1 := w1 }

/-- TAIL, first part: the scramble (R155). -/
def hash128Scramble (r : Rolling) : Rolling :=
  let x := r.x + rotr64 (r.v0 + r.z) 49 * Rom.k0
  let y := r.y * Rom.k0 + rotr64 r.w1 37
  let z := r.z * Rom.k0 + rotr64 r.w0 27
  { x := x, y := y, z := z, v0 := r.v0 * Rom.k0, v1 := r.v1, w0 := r.w0 * 9#64, w1 := r.w1 }

/-- One backward pass of TAIL, second part, on the 32-byte chunk at `q = E - t` (R156). -/
def hash128TailPass (m : Msg) (q : Nat) (r : Rolling) : Except Fault Rolling := do
  let y := rotr64 (r.x + r.y) 42 * Rom.k0 + r.v1
  let c16 ← le64 156 m (q + 16)
  let w0 := r.w0 + c16
  let x := r.x * Rom.k0 + w0
  let c0 ← le64 156 m q
  let z := r.z + r.w1 + c0
  let w1 := r.w1 + r.v0
  let v ← weakHash32At 156 m q (r.v0 + z) r.v1
  .ok { x := x, y := y, z := z, v0 := v.lo * Rom.k0, v1 := v.hi, w0 := w0, w1 := w1 }

/-- `k` further passes of TAIL, second part; `t` is the reach of the last pass done, `e` the end of the
part (R156). -/
def hash128TailLoop (m : Msg) (e : Nat) : Nat → Nat → Rolling → Except Fault Rolling
  | 0, _, r => .ok r
  | k + 1, t, r => do
    let r ← hash128TailPass m (e - (t + 32)) r
    hash128TailLoop m e k (t + 32) r

/-- TAIL, third part: the final fold (R157). -/
def hash128Fold (r : Rolling) : Pair :=
  let x := hashLen16 r.x r.v0
  let y := hashLen16 (r.y + r.z) r.w0
  { lo := hashLen16 (x + r.v1) r.w1 + y, hi := hashLen16 (x + r.w1) (y + r.v1) }

/-- TAIL of `hash128_long`: scramble, backward passes over the remaining `rem` bytes before `e`, fold
(R155, R156, R157). -/
def hash128Tail (m : Msg) (e rem : Nat) (r : Rolling) : Except Fault Pair := do
  let r ← hash128TailLoop m e (tailPasses rem) 0 (hash128Scramble r)
  .ok (hash128Fold r)

/-- `hash128_long`: INIT, `2 * floor(n / 128)` block steps, TAIL (R153 to R157). -/
def hash128Long (m : Msg) (p : Part) (seeds : Pair) : Except Fault Pair := do
  let r ← hash128Init m p seeds
  let r ← blockSteps 154 m (2 * pairs128 p.n) p.base r
  hash128Tail m (p.base + p.n) (p.n % 128) r

/-- `hash128_with_seed(B, n, sLow, sHigh)` (R150), the function view (R197). -/
def hash128WithSeed (cuts : Cuts) (m : Msg) (p : Part) (seeds : Pair) : Except Fault Pair :=
  if short128 cuts p.n then finisher cuts m p seeds else hash128Long m p seeds

/-- The seed pair of HASH128: from the first 16 bytes when there are that many, else `(k0, k1)`
(R158). -/
def seedsUnseeded (m : Msg) : Except Fault Pair :=
  if 16 ≤ m.len then do
    let lo ← le64 158 m 0
    let hi ← le64 158 m 8
    .ok { lo := lo, hi := hi + Rom.k0 }
  else .ok { lo := Rom.k0, hi := Rom.k1 }

/-- The function view of HASH128 (R158, R197). -/
def hash128 (cuts : Cuts) (m : Msg) : Except Fault Pair := do
  let seeds ← seedsUnseeded m
  hash128WithSeed cuts m (partUnseeded m.len) seeds

/-! ### The commands -/

/-- INIT on the long path: load the rolling state, `POS <- B; REM <- n` (R153). -/
def long128Init (p : Part) (seeds : Pair) (s : State) : Except Fault State := do
  let r ← hash128Init s.msg p seeds
  .ok (s.setLong64 r (word64 p.base) (word64 p.n) .longLoop)

/-- One block step: `POS <- POS + 64`; the second step of a pair also does `REM <- REM - 128`, and the
loop ends when `REM < 128` (R154). -/
def long128Block (base : Nat) (s : State) : Except Fault State := do
  let r ← blockStep 154 s.msg s.pos.toNat s.roll
  let pos := s.pos + 64#64
  if endsPair128 base pos.toNat then
    let rem := s.rem - 128#64
    .ok (s.setLong64 r pos rem (phaseAfterPair128 rem.toNat))
  else
    .ok (s.setLong64 r pos s.rem .longLoop)

/-- TAIL with `E = POS + REM` (R156). -/
def long128Tail (s : State) : Except Fault Pair :=
  hash128Tail s.msg (s.pos.toNat + s.rem.toNat) s.rem.toNat s.roll

/-- The seed pair of HASH128S: `SEED0` is `seedLow`, `SEED1` is `seedHigh` (R62, R150). -/
def seedsOperand (s : State) : Pair := { lo := s.seed0, hi := s.seed1 }

/-- The phases of HASH128 (R158, R150 to R157). -/
def engineHash128 : Engine where
  part s := partUnseeded s.len.toNat
  isShort s := short128 s.cuts (partUnseeded s.len.toNat).n
  short s := do
    let seeds ← seedsUnseeded s.msg
    finisher s.cuts s.msg (partUnseeded s.len.toNat) seeds
  init s := do
    let seeds ← seedsUnseeded s.msg
    long128Init (partUnseeded s.len.toNat) seeds s
  block s := long128Block (partUnseeded s.len.toNat).base s
  tail := long128Tail

/-- The phases of HASH128S (R150 to R157). -/
def engineHash128S : Engine where
  part s := partWhole s.len.toNat
  isShort s := short128 s.cuts (partWhole s.len.toNat).n
  short s := finisher s.cuts s.msg (partWhole s.len.toNat) (seedsOperand s)
  init s := long128Init (partWhole s.len.toNat) (seedsOperand s) s
  block s := long128Block (partWhole s.len.toNat).base s
  tail := long128Tail

/-- HASH128 (R158). -/
def execHash128 (s : State) : Host.Outcome State Fault Refusal := runCommand engineHash128 s

/-- HASH128S (R150). -/
def execHash128S (s : State) : Host.Outcome State Fault Refusal := runCommand engineHash128S s

end Sys2Proof.Machine
end

