-- ==== Sys2Proof/Machine/Hash32.lean ====
section
/-! DEFINITION. The 32-bit hash engine and the meaning of HASH32 (41_hash32.md R100 to R107).  Arithmetic
is 32-bit; lengths and offsets are natural numbers; the length taken as a value is `trunc_32(LEN)`
(30_encoding.md R63). -/

namespace Sys2Proof.Machine

/-! ### Short paths -/

/-- The byte loop of R101: `k` bytes from offset `i` on, each taken as a signed 8-bit value. -/
def hash32Bytes (m : Msg) : Nat → Nat → W32 → W32 → Except Fault (W32 × W32)
  | 0, _, b, c => .ok (b, c)
  | k + 1, i, b, c => do
    let v ← byteAt 101 m i
    let b := b * Rom.c1 + sext32 v
    hash32Bytes m k (i + 1) b (c ^^^ b)

/-- `hash32_0to4()` (R101). -/
def hash32_0to4 (m : Msg) : Except Fault W32 := do
  let bc ← hash32Bytes m m.len 0 0#32 9#32
  .ok (fmix32 (mur32 bc.1 (mur32 (trunc32 m.len) bc.2)))

/-- `hash32_5to12()` (R102). -/
def hash32_5to12 (m : Msg) : Except Fault W32 := do
  let l := trunc32 m.len
  let d := l * 5#32
  let w0 ← le32 102 m 0
  let a := l + w0
  let w1 ← le32 102 m (m.len - 4)
  let b := l * 5#32 + w1
  let w2 ← le32 102 m ((m.len >>> 1) &&& 4)
  let c := 9#32 + w2
  .ok (fmix32 (mur32 c (mur32 b (mur32 a d))))

/-- `hash32_13to24()` (R103). -/
def hash32_13to24 (m : Msg) : Except Fault W32 := do
  let a ← le32 103 m ((m.len >>> 1) - 4)
  let b ← le32 103 m 4
  let c ← le32 103 m (m.len - 8)
  let d ← le32 103 m (m.len >>> 1)
  let e ← le32 103 m 0
  let f ← le32 103 m (m.len - 4)
  let h := trunc32 m.len
  .ok (fmix32 (mur32 f (mur32 e (mur32 d (mur32 c (mur32 b (mur32 a h)))))))

/-- SHORT_PATH: the dispatch of R100 up to 24 bytes. -/
def hash32Short (m : Msg) : Except Fault W32 :=
  if m.len ≤ 4 then hash32_0to4 m
  else if m.len ≤ 12 then hash32_5to12 m
  else hash32_13to24 m

/-! ### Long path -/

/-- `pre(off) = rotr32(LE32(off) * c1, 17) * c2` of R104, on the loaded word. -/
def pre32 (w : W32) : W32 := rotr32 (w * Rom.c1) 17 * Rom.c2

/-- `v <- rotr32(v, s); v <- v * 5 + K`, the step of R104, R105 and R107. -/
def rotMul5 (v : W32) (s : Fin 32) : W32 := rotr32 v s * 5#32 + Rom.k32

/-- INIT of `hash32_long()`: absorbs the length and the last 20 bytes (R104). -/
def hash32Init (m : Msg) : Except Fault Acc32 := do
  let h := trunc32 m.len
  let g := Rom.c1 * trunc32 m.len
  let f := g
  let w0 ← le32 104 m (m.len - 4)
  let w1 ← le32 104 m (m.len - 8)
  let w2 ← le32 104 m (m.len - 16)
  let w3 ← le32 104 m (m.len - 12)
  let w4 ← le32 104 m (m.len - 20)
  let h := rotMul5 (h ^^^ pre32 w0) 19
  let h := rotMul5 (h ^^^ pre32 w2) 19
  let g := rotMul5 (g ^^^ pre32 w1) 19
  let g := rotMul5 (g ^^^ pre32 w3) 19
  let f := rotMul5 (f + pre32 w4) 19
  .ok { h := h, g := g, f := f }

/-- One block step of `hash32_long()`: the 20 bytes from `p` on (R105). -/
def hash32Block (m : Msg) (p : Nat) (acc : Acc32) : Except Fault Acc32 := do
  let w0 ← le32 105 m p
  let b1 ← le32 105 m (p + 4)
  let w2 ← le32 105 m (p + 8)
  let w3 ← le32 105 m (p + 12)
  let b4 ← le32 105 m (p + 16)
  let b0 := pre32 w0
  let b2 := pre32 w2
  let b3 := pre32 w3
  let h := rotMul5 (acc.h ^^^ b0) 18
  let f := rotr32 (acc.f + b1) 19 * Rom.c1
  let g := rotMul5 (acc.g + b2) 18
  let h := rotMul5 (h ^^^ (b3 + b1)) 19
  let g := bswap32 (g ^^^ b4) * 5#32
  let h := bswap32 (h + b4 * 5#32)
  let f := f + b0
  .ok { f := g, h := f, g := h }

/-- TAIL of `hash32_long()` (R107). -/
def hash32Tail (acc : Acc32) : W32 :=
  let g := rotr32 acc.g 11 * Rom.c1
  let g := rotr32 g 17 * Rom.c1
  let f := rotr32 acc.f 11 * Rom.c1
  let f := rotr32 f 17 * Rom.c1
  let h := rotMul5 (acc.h + g) 19
  let h := rotr32 h 17 * Rom.c1
  let h := rotMul5 (h + f) 19
  rotr32 h 17 * Rom.c1

/-- `k` block steps at `p`, `p + 20`, ... (R106). -/
def hash32Blocks (m : Msg) : Nat → Nat → Acc32 → Except Fault Acc32
  | 0, _, a => .ok a
  | k + 1, p, a => do
    let a ← hash32Block m p a
    hash32Blocks m k (p + 20) a

/-- `hash32_long()`: INIT, `floor((LEN - 1) / 20)` block steps, TAIL (R104 to R107). -/
def hash32Long (m : Msg) : Except Fault W32 := do
  let a ← hash32Init m
  let a ← hash32Blocks m (blocks32 m.len) 0 a
  .ok (hash32Tail a)

/-- The function view of HASH32: the dispatch of R100 as one function of the message (R12, R197). -/
def hash32 (m : Msg) : Except Fault W32 :=
  if short32 m.len then hash32Short m else hash32Long m

/-! ### The command -/

/-- Result placement of a 32-bit result: `RES_LO <- zext_64(r); RES_HI <- 0` (R67, R100). -/
def place32 (r : W32) : Pair := { lo := zext64 r, hi := 0#64 }

/-- The phases of HASH32 (R100, R104 to R107).  `REM` is kept as R27 defines it, though the loop is
counted by R106 (log entry 7). -/
def engineHash32 : Engine where
  part s := partWhole s.len.toNat
  isShort s := short32 s.len.toNat
  short s := do
    let r ← hash32Short s.msg
    .ok (place32 r)
  init s := do
    let a ← hash32Init s.msg
    .ok (s.setLong32 a 0#64 s.len .longLoop)
  block s := do
    let a ← hash32Block s.msg s.pos.toNat s.acc
    let pos := s.pos + 20#64
    .ok (s.setLong32 a pos (s.rem - 20#64) (phaseAfterBlock32 s.len.toNat pos.toNat))
  tail s := .ok (place32 (hash32Tail s.acc))

/-- HASH32 (R100). -/
def execHash32 (s : State) : Host.Outcome State Fault Refusal := runCommand engineHash32 s

end Sys2Proof.Machine
end

