-- ==== Sys2Proof/Machine/Dispatch.lean ====
section
/-! DEFINITION. The meaning of each command: one arm per constructor of `Instr` (30_encoding.md R61). -/

namespace Sys2Proof.Machine

def exec (i : Instr) (s : State) : Host.Outcome State Fault Refusal :=
  match i with
  | .hash32 => Sys2Proof.Machine.execHash32 s
  | .hash64 => Sys2Proof.Machine.execHash64 s
  | .hash64s => Sys2Proof.Machine.execHash64S s
  | .hash64ss => Sys2Proof.Machine.execHash64SS s
  | .hash128 => Sys2Proof.Machine.execHash128 s
  | .hash128s => Sys2Proof.Machine.execHash128S s

end Sys2Proof.Machine
end

