-- ==== Sys2Proof/Machine/HostPort.lean ====
section
/-! DEFINITION. What surrounds a command: CORE's own step, the START event, and one action of the host
(60_exceptions.md R172 to R175, R181; 70_reset_and_hazards.md R190 to R192).  Also the function view of a
command (R197). -/

namespace Sys2Proof.Machine

/-- The phases of a command. -/
def engineOf : Instr → Engine
  | .hash32 => engineHash32
  | .hash64 => engineHash64
  | .hash64s => engineHash64S
  | .hash64ss => engineHash64SS
  | .hash128 => engineHash128
  | .hash128s => engineHash128S

/-- The function view of a command: the value of `(RES_LO, RES_HI)` as a function of
`(CMD, LEN, SEED0, SEED1, MSG)` (R21, R197, R67). -/
def commandValue (i : Instr) (s : State) : Except Fault Pair :=
  match i with
  | .hash32 => do
    let r ← hash32 s.msg
    .ok (place32 r)
  | .hash64 => do
    let h ← hash64 s.cuts s.msg
    .ok (place64 h)
  | .hash64s => do
    let h ← hash64 s.cuts s.msg
    .ok (place64 (seedOne s.seed0 h))
  | .hash64ss => do
    let h ← hash64 s.cuts s.msg
    .ok (place64 (seedTwo s.seed0 s.seed1 h))
  | .hash128 => hash128 s.cuts s.msg
  | .hash128s => hash128WithSeed s.cuts s.msg (partWhole s.len.toNat) (seedsOperand s)

/-- CORE's own step: while BUSY, one step of the running command's state machine (R27, R173); otherwise
CORE does nothing (R190: "CORE does nothing until the host's first accepted START").  `CMD` is the
latched descriptor (R22); one that decodes to no command is never BUSY, and CORE then has no step. -/
def coreStep (s : State) : Host.Outcome State Fault Refusal :=
  match s.status with
  | .idle => .next s
  | .done => .next s
  | .busy =>
    match decode s.cmd with
    | .ok i => outcomeOf (phaseStep (engineOf i) s)
    | .error _ => .next s

/-- A refused START: no register changes; the model keeps a refusal mark (R65, R172). -/
def State.refuse (s : State) : State := { s with refusals := s.refusals + 1 }

/-- The START event (R173): ignored while BUSY (R181), refused when `CMD` is reserved (R172), otherwise
accepted. -/
def onStart (accept : Instr → State → Host.Outcome State Fault Refusal) (s : State) :
    Host.Outcome State Fault Refusal :=
  match s.status with
  | .busy => .next s
  | _ =>
    match decode s.cmd with
    | .error _ => .next s.refuse
    | .ok i => accept i s

/-- An accepted START of the register-level protocol: `STATUS <- BUSY; PHASE <- INIT` (R173). -/
def acceptStart (_ : Instr) (s : State) : Host.Outcome State Fault Refusal := .next s.launch

/-- One action of the host; `rest` is the host's program after it (R173). -/
def hostStep (move : HostMove) (rest : List HostMove) (s : State) :
    Host.Outcome State Fault Refusal :=
  match move with
  | .idle => coreStep (s.popScript rest)
  | .write reg v => .next (hostWrite reg v (s.popScript rest))
  | .read reg => .next (hostRead reg (s.popScript rest))
  | .place off bytes => .next (hostPlace off bytes (s.popScript rest))
  | .start => onStart acceptStart (s.popScript rest)
  | .startTogether =>
    match coreStep (s.popScript rest) with
    | .next t => onStart acceptStart t
    | .fault f => .fault f
    | .refused r => .refused r
  | .waitDone =>
    match s.status with
    | .done => .next (s.popScript rest)
    | _ => coreStep s
  | .call => onStart exec (s.popScript rest)
  | .reset => .next (hostReset (s.popScript rest))

/-- `s` with the descriptor `cmd` in `CMD` and a call of it as the host's next action; a command that was
running is taken as abandoned, since a START while BUSY would be ignored. -/
def armCall (cmd : Byte) (s : State) : State :=
  match s.status with
  | .busy => { s with cmd := cmd, status := .idle, phase := .idle, script := .call :: s.script }
  | _ => { s with cmd := cmd, script := .call :: s.script }

end Sys2Proof.Machine
end

