-- ==== Sys2Proof/Machine/Step.lean ====
section
/-! DEFINITION. One step of the machine: the host's next action if its program holds one, else CORE's
own step.  Also the placing of one instruction as the very next to run. -/

namespace Sys2Proof.Machine

/-- One step (R173, R195). -/
def step (s : State) : Host.Outcome State Fault Refusal :=
  match s.script with
  | [] => coreStep s
  | move :: rest => hostStep move rest s

/-- `s` with the instruction whose `nbits` table bits are `w` placed where the next step runs it: its
descriptor byte in `CMD`, and a call of it as the host's next action (log entry 8). -/
def State.withFetchWord (s : State) (nbits w : Nat) : State := armCall (tableByte nbits w) s

end Sys2Proof.Machine
end

