-- ==== Sys2Proof/Safety.lean ====
section
/-! DEFINITION. The terms claims use: a placed message and its bytes, the number of steps of a command,
the invariant of the machine, and what a safe step is. -/

namespace Sys2Proof.Machine

/-! ### The message -/

/-- The message is placed: every offset below its length holds a byte (R40, R173 step 2, R191). -/
def Msg.Placed (m : Msg) : Prop := ∀ off, off < m.len → (Memory.find m.mem off).isSome = true

/-- The bytes of the message are `b 0, b 1, ...` (R40: "a function from offset to byte"). -/
def Msg.Bytes (m : Msg) (b : Nat → Byte) : Prop :=
  ∀ off, off < m.len → Memory.find m.mem off = some (b off)

/-- Two messages with the same length and the same bytes below it. -/
def Msg.Same (m m' : Msg) : Prop :=
  m.len = m'.len ∧ ∀ off, off < m.len → Memory.find m.mem off = Memory.find m'.mem off

/-- The four bytes from `off` on as one little-endian word: `b off` is the low byte (R41, R82). -/
def word32At (b : Nat → Byte) (off : Nat) : W32 := b (off + 3) ++ b (off + 2) ++ b (off + 1) ++ b off

/-- The eight bytes from `off` on as one little-endian word: `b off` is the low byte (R41, R83). -/
def word64At (b : Nat → Byte) (off : Nat) : W64 :=
  b (off + 7) ++ b (off + 6) ++ b (off + 5) ++ b (off + 4) ++ b (off + 3) ++ b (off + 2) ++
    b (off + 1) ++ b off

/-! ### The length of a command -/

/-- The part of the message a command works on (R27, R150, R158). -/
def partOf : Instr → Nat → Part
  | .hash128, len => partUnseeded len
  | _, len => partWhole len

/-- Does a command take SHORT_PATH at this length (R195)? -/
def takesShortPath (cuts : Cuts) : Instr → Nat → Bool
  | .hash32, len => short32 len
  | .hash64, len => short64 len
  | .hash64s, len => short64 len
  | .hash64ss, len => short64 len
  | .hash128, len => short128 cuts (partUnseeded len).n
  | .hash128s, len => short128 cuts (partWhole len).n

/-- The number of LONG_LOOP steps of a command that takes the long path (R106, R126, R154, R195). -/
def loopSteps : Instr → Nat → Nat
  | .hash32, len => (len - 1) / 20
  | .hash64, len => (len - 1) / 64
  | .hash64s, len => (len - 1) / 64
  | .hash64ss, len => (len - 1) / 64
  | .hash128, len => 2 * ((partUnseeded len).n / 128)
  | .hash128s, len => 2 * (len / 128)

/-- The number of steps after the accepted START: INIT and SHORT_PATH, or INIT, the block steps and TAIL
(R195). -/
def commandSteps (cuts : Cuts) (i : Instr) (len : Nat) : Nat :=
  if takesShortPath cuts i len then 2 else loopSteps i len + 2

/-! ### The invariant -/

/-- Where a running command stands, per phase: `POS` and `REM` at the start and the length of its part on the
short path, and as the loop rules leave them on the long path (R27, R104, R106, R124, R126, R153, R154).  Between the two steps of a pair of the 128-bit loop `REM` has not yet
been lowered. -/
def RunningInv (i : Instr) (s : State) : Prop :=
  match s.phase with
  | .idle => False
  | .init => True
  | .shortPath =>
    takesShortPath s.cuts i s.len.toNat = true ∧
    s.pos.toNat = (partOf i s.len.toNat).base ∧ s.rem.toNat = (partOf i s.len.toNat).n
  | .longLoop =>
    takesShortPath s.cuts i s.len.toNat = false ∧
    match i with
    | .hash32 => s.pos.toNat % 20 = 0 ∧ s.pos.toNat + s.rem.toNat = s.len.toNat ∧ 20 < s.rem.toNat
    | .hash64 => s.pos.toNat % 64 = 0 ∧ s.pos.toNat + s.rem.toNat = s.len.toNat ∧ 64 < s.rem.toNat
    | .hash64s => s.pos.toNat % 64 = 0 ∧ s.pos.toNat + s.rem.toNat = s.len.toNat ∧ 64 < s.rem.toNat
    | .hash64ss => s.pos.toNat % 64 = 0 ∧ s.pos.toNat + s.rem.toNat = s.len.toNat ∧ 64 < s.rem.toNat
    | .hash128 => Loop128 (partUnseeded s.len.toNat).base s
    | .hash128s => Loop128 (partWhole s.len.toNat).base s
  | .tail =>
    takesShortPath s.cuts i s.len.toNat = false ∧ s.pos.toNat + s.rem.toNat = s.len.toNat ∧
    match i with
    | .hash32 => 1 ≤ s.rem.toNat ∧ s.rem.toNat ≤ 20
    | .hash64 => 1 ≤ s.rem.toNat ∧ s.rem.toNat ≤ 64
    | .hash64s => 1 ≤ s.rem.toNat ∧ s.rem.toNat ≤ 64
    | .hash64ss => 1 ≤ s.rem.toNat ∧ s.rem.toNat ≤ 64
    | .hash128 => Tail128 (partUnseeded s.len.toNat).base s
    | .hash128s => Tail128 (partWhole s.len.toNat).base s
where
  /-- Inside the 128-bit loop: before the first or before the second step of a pair (R154). -/
  Loop128 (base : Nat) (s : State) : Prop :=
    base ≤ s.pos.toNat ∧ 128 ≤ s.rem.toNat ∧
    (((s.pos.toNat - base) % 128 = 0 ∧ s.pos.toNat + s.rem.toNat = s.len.toNat) ∨
      ((s.pos.toNat - base) % 128 = 64 ∧ s.pos.toNat + s.rem.toNat = s.len.toNat + 64))
  /-- After the 128-bit loop: at least one pair consumed, fewer than 128 bytes left (R154). -/
  Tail128 (base : Nat) (s : State) : Prop :=
    base + 128 ≤ s.pos.toNat ∧ s.rem.toNat < 128

/-- The invariant every step keeps: the message space is in its canonical form, `PHASE = IDLE` exactly
when `STATUS` is not BUSY (R27), a running command is a legal one (R172) and stands where its rules say,
and only a running command has a changed message (R48). -/
def State.Inv (s : State) : Prop :=
  Memory.wf s.mem = true ∧
  (s.phase = .idle ↔ s.status ≠ .busy) ∧
  (s.status = .busy → ∃ i, decode s.cmd = .ok i ∧ RunningInv i s) ∧
  (s.msgChanged = true → s.status = .busy)

/-! ### Safe steps -/

/-- A step is safe when it answers a next state. -/
def State.Safe (s : State) : Prop := ∃ t, step s = .next t

end Sys2Proof.Machine
end

