-- ==== Sys2Proof/Certificates/Slice0/Obligations.lean ====
section
/-! DEFINITION. The statements for the provers.  Each says which rule of spec/ it formalises. -/

open Sys2Proof Sys2Proof.Machine

/-! ### Encoding -/

/-- R61: the `CMD` column of the opcode map, read by the decoder, by the table's own numbering, and
written by the encoder. -/
def Obligations.DecodeMapMatchesTable : Prop :=
  decode 0x00#8 = .ok .hash32 ∧ decode 0x01#8 = .ok .hash64 ∧ decode 0x02#8 = .ok .hash64s ∧
  decode 0x03#8 = .ok .hash64ss ∧ decode 0x04#8 = .ok .hash128 ∧ decode 0x05#8 = .ok .hash128s ∧
  decodeTableWord 8 0x00 = some .hash32 ∧ decodeTableWord 8 0x01 = some .hash64 ∧
  decodeTableWord 8 0x02 = some .hash64s ∧ decodeTableWord 8 0x03 = some .hash64ss ∧
  decodeTableWord 8 0x04 = some .hash128 ∧ decodeTableWord 8 0x05 = some .hash128s

/-- R61, R65: decode and encode agree in both directions. -/
def Obligations.DecodeEncodeRoundTrip : Prop :=
  (∀ i : Instr, decode (encode i) = .ok i ∧ cmdWellFormed (encode i) = true) ∧
  ∀ (b : Byte) (i : Instr), decode b = .ok i → encode i = b

/-- R65: the descriptors the decoder rejects are exactly those with `OP` 6 or 7 or `CMD[7:3]` not
zero. -/
def Obligations.ReservedDescriptorsRejected : Prop :=
  ∀ b : Byte, (∃ r, decode b = .error r) ↔ (opField b = 6#3 ∨ opField b = 7#3 ∨ rsvField b ≠ 0#5)

/-! ### Primitives -/

/-- R41: little-endian reads of 1, 4 and 8 bytes at any offset.  The mixed-width sentence, which R41 marks
as its own inference, follows from the sums by arithmetic. -/
def Obligations.ReadsAreLittleEndian : Prop :=
  ∀ (rule : Nat) (m : Msg) (b : Nat → Byte) (off : Nat), m.Bytes b →
    (off + 1 ≤ m.len → byteAt rule m off = .ok (b off)) ∧
    (off + 4 ≤ m.len → ∃ v, le32 rule m off = .ok v ∧
      v.toNat = (b off).toNat + 2 ^ 8 * (b (off + 1)).toNat + 2 ^ 16 * (b (off + 2)).toNat +
        2 ^ 24 * (b (off + 3)).toNat) ∧
    (off + 8 ≤ m.len → ∃ v, le64 rule m off = .ok v ∧
      v.toNat = (b off).toNat + 2 ^ 8 * (b (off + 1)).toNat + 2 ^ 16 * (b (off + 2)).toNat +
        2 ^ 24 * (b (off + 3)).toNat + 2 ^ 32 * (b (off + 4)).toNat + 2 ^ 40 * (b (off + 5)).toNat +
        2 ^ 48 * (b (off + 6)).toNat + 2 ^ 56 * (b (off + 7)).toNat)

/-- R46: a read with `off + n > LEN` faults and names the rule that issued it, whatever the memory
holds. -/
def Obligations.ReadPastMessageFaults : Prop :=
  ∀ (rule : Nat) (m : Msg) (off n : Nat), m.len < off + n →
    memRead rule m off n = .error (.outsideMessage rule off n)

/-- R80, R81: bit `i` of the result is bit `(i + shift) mod N` of the value; rotation by 0 is the
identity. -/
def Obligations.RotationsMoveBits : Prop :=
  (∀ (v : W32) (shift : Fin 32),
    (∀ i, i < 32 → (rotr32 v shift).getLsbD i = v.getLsbD ((i + shift.val) % 32)) ∧ rotr32 v 0 = v) ∧
  (∀ (v : W64) (shift : Fin 64),
    (∀ i, i < 64 → (rotr64 v shift).getLsbD i = v.getLsbD ((i + shift.val) % 64)) ∧ rotr64 v 0 = v)

/-- R85: `shiftMix(v) = v ^ (v >> 47)` with a logical shift; the top 47 bits of the result equal those of
`v`; `shiftMix(v) = v` when `v < 2^47`. -/
def Obligations.ShiftMixKeepsTopBits : Prop :=
  ∀ v : W64,
    (shiftMix v).toNat = v.toNat ^^^ (v.toNat / 2 ^ 47) ∧
    (∀ i, 17 ≤ i → i < 64 → (shiftMix v).getLsbD i = v.getLsbD i) ∧
    (v.toNat < 2 ^ 47 → shiftMix v = v)

/-- R26, R86, R87: the six constants of the ROM; the five-step combiner in exact arithmetic reduced modulo
2^64, its corner cases, and that it is not symmetric; `hashLen16` is that combiner with `kMul`. -/
def Obligations.HashLen16WithMulExact : Prop :=
  (Rom.c1 = 0xcc9e2d51#32 ∧ Rom.c2 = 0x1b873593#32 ∧ Rom.k0 = 0xc3a5c85c97cb3127#64 ∧
    Rom.k1 = 0xb492b66fbe98f273#64 ∧ Rom.k2 = 0x9ae16a3b2f90404f#64 ∧
    Rom.kMul = 0x9ddfea08eb382d69#64) ∧
  hashLen16 0#64 0#64 = 0#64 ∧ hashLen16 0#64 1#64 = 0xf4ff80ec63c103d4#64 ∧
  hashLen16 1#64 0#64 = 0xb91445ce692f0ce5#64 ∧
  ∀ u v mul : W64,
    hashLen16 u v = hashLen16WithMul u v 0x9ddfea08eb382d69#64 ∧
    (let a0 := ((u.toNat ^^^ v.toNat) * mul.toNat) % 2 ^ 64
     let a := a0 ^^^ (a0 / 2 ^ 47)
     let b0 := ((v.toNat ^^^ a) * mul.toNat) % 2 ^ 64
     let b := b0 ^^^ (b0 / 2 ^ 47)
     (hashLen16WithMul u v mul).toNat = (b * mul.toNat) % 2 ^ 64) ∧
    hashLen16WithMul u v 0#64 = 0#64 ∧
    hashLen16WithMul u v 1#64 = shiftMix (v ^^^ shiftMix (u ^^^ v)) ∧
    hashLen16WithMul 0#64 0#64 mul = 0#64 ∧
    ∃ u' v' mul', hashLen16WithMul u' v' mul' ≠ hashLen16WithMul v' u' mul'

/-- R88: byte `j` of the result is byte `N/8 - 1 - j` of the value. -/
def Obligations.BswapReversesBytes : Prop :=
  (∀ (v : W32) (j : Nat), j < 4 →
    (bswap32 v).extractLsb' (8 * j) 8 = v.extractLsb' (8 * (3 - j)) 8) ∧
  (∀ (v : W64) (j : Nat), j < 8 →
    (bswap64 v).extractLsb' (8 * j) 8 = v.extractLsb' (8 * (7 - j)) 8)

/-- R89, R90, R91: the 32-bit final avalanche, the 32-bit combining step and the 32-byte step of the long
loops in exact arithmetic reduced modulo 2^32 and 2^64, rotations included, and their corner cases; and the
four message words `weakHash32At` takes. -/
def Obligations.MixersExact : Prop :=
  (∀ h : W32,
    let a := h.toNat ^^^ (h.toNat / 2 ^ 16)
    let b := (a * 0x85ebca6b) % 2 ^ 32
    let c := ((b ^^^ (b / 2 ^ 13)) * 0xc2b2ae35) % 2 ^ 32
    (fmix32 h).toNat = c ^^^ (c / 2 ^ 16)) ∧
  fmix32 0#32 = 0#32 ∧
  (∀ a h : W32,
    let rot := fun (v s : Nat) => v / 2 ^ s + (v % 2 ^ s) * 2 ^ (32 - s)
    let p := (rot ((a.toNat * 0xcc9e2d51) % 2 ^ 32) 17 * 0x1b873593) % 2 ^ 32
    (mur32 a h).toNat = (rot (h.toNat ^^^ p) 19 * 5 + 0xe6546b64) % 2 ^ 32) ∧
  mur32 0#32 0#32 = 0xe6546b64#32 ∧
  (∀ w x y z a b : W64,
    let rot := fun (v s : Nat) => v / 2 ^ s + (v % 2 ^ s) * 2 ^ (64 - s)
    let a0 := (a.toNat + w.toNat) % 2 ^ 64
    let b0 := rot ((b.toNat + a0 + z.toNat) % 2 ^ 64) 21
    let a1 := (a0 + x.toNat + y.toNat) % 2 ^ 64
    let b1 := (b0 + rot a1 44) % 2 ^ 64
    (weakHash32 w x y z a b).lo.toNat = (a1 + z.toNat) % 2 ^ 64 ∧
    (weakHash32 w x y z a b).hi.toNat = (b1 + a0) % 2 ^ 64) ∧
  weakHash32 0#64 0#64 0#64 0#64 0#64 0#64 = { lo := 0#64, hi := 0#64 } ∧
  (∀ (rule : Nat) (m : Msg) (b : Nat → Byte) (off : Nat) (x y : W64), m.Bytes b → off + 32 ≤ m.len →
    weakHash32At rule m off x y =
      .ok (weakHash32 (word64At b off) (word64At b (off + 8)) (word64At b (off + 16))
        (word64At b (off + 24)) x y))

/-! ### HASH32 -/

/-- R101: HASH32 on 0 to 4 bytes, the byte sign-extended. -/
def Obligations.Hash32UpTo4Bytes : Prop :=
  ∀ (s : State) (b : Nat → Byte), s.msg.Bytes b → s.len.toNat ≤ 4 →
    let bc := (List.range s.len.toNat).foldl
      (fun (p : W32 × W32) i =>
        let x := p.1 * Rom.c1 + (b i).signExtend 32
        (x, p.2 ^^^ x)) (0#32, 9#32)
    ∃ t, exec .hash32 s = .next t ∧
      t.resLo = (fmix32 (mur32 bc.1 (mur32 (s.len.setWidth 32) bc.2))).setWidth 64 ∧
      t.resHi = 0#64 ∧ t.status = .done

/-- R102: HASH32 on 5 to 12 bytes. -/
def Obligations.Hash32From5To12Bytes : Prop :=
  ∀ (s : State) (b : Nat → Byte), s.msg.Bytes b → 5 ≤ s.len.toNat → s.len.toNat ≤ 12 →
    let n := s.len.toNat
    let l := s.len.setWidth 32
    let d := l * 5#32
    let a := l + word32At b 0
    let e := l * 5#32 + word32At b (n - 4)
    let c := 9#32 + word32At b (if n < 8 then 0 else 4)
    ∃ t, exec .hash32 s = .next t ∧
      t.resLo = (fmix32 (mur32 c (mur32 e (mur32 a d)))).setWidth 64 ∧
      t.resHi = 0#64 ∧ t.status = .done

/-- R103: HASH32 on 13 to 24 bytes. -/
def Obligations.Hash32From13To24Bytes : Prop :=
  ∀ (s : State) (b : Nat → Byte), s.msg.Bytes b → 13 ≤ s.len.toNat → s.len.toNat ≤ 24 →
    let n := s.len.toNat
    let h0 := mur32 (word32At b (n / 2 - 4)) (s.len.setWidth 32)
    let h1 := mur32 (word32At b 4) h0
    let h2 := mur32 (word32At b (n - 8)) h1
    let h3 := mur32 (word32At b (n / 2)) h2
    let h4 := mur32 (word32At b 0) h3
    let h5 := mur32 (word32At b (n - 4)) h4
    ∃ t, exec .hash32 s = .next t ∧ t.resLo = (fmix32 h5).setWidth 64 ∧
      t.resHi = 0#64 ∧ t.status = .done

/-- R104: INIT of HASH32's long path as one step of CORE: the length and the last 20 bytes.  Nothing is
said of `REM`, which R104 does not name. -/
def Obligations.Hash32InitLoadsAccumulators : Prop :=
  ∀ (s : State) (b : Nat → Byte), s.msg.Bytes b → 24 < s.len.toNat → s.script = [] →
    s.status = .busy → s.cmd = 0x00#8 → s.phase = .init →
    let n := s.len.toNat
    let pre := fun (w : W32) => rotr32 (w * Rom.c1) 17 * Rom.c2
    let k := 0xe6546b64#32
    let h := s.len.setWidth 32
    let g := Rom.c1 * s.len.setWidth 32
    let f := g
    let h := rotr32 (h ^^^ pre (word32At b (n - 4))) 19 * 5#32 + k
    let h := rotr32 (h ^^^ pre (word32At b (n - 16))) 19 * 5#32 + k
    let g := rotr32 (g ^^^ pre (word32At b (n - 8))) 19 * 5#32 + k
    let g := rotr32 (g ^^^ pre (word32At b (n - 12))) 19 * 5#32 + k
    let f := rotr32 (f + pre (word32At b (n - 20))) 19 * 5#32 + k
    ∃ t, step s = .next t ∧
      t = { s with
        acc := { h := h, g := g, f := f }, pos := 0#64, rem := t.rem, phase := .longLoop }

/-- R105: one block step of HASH32's long path as one step of CORE. -/
def Obligations.Hash32BlockStepUpdatesAccumulators : Prop :=
  ∀ (s : State) (b : Nat → Byte), s.msg.Bytes b → s.pos.toNat + 20 ≤ s.len.toNat → s.script = [] →
    s.status = .busy → s.cmd = 0x00#8 → s.phase = .longLoop →
    let p := s.pos.toNat
    let pre := fun (w : W32) => rotr32 (w * Rom.c1) 17 * Rom.c2
    let k := 0xe6546b64#32
    let b0 := pre (word32At b p)
    let b1 := word32At b (p + 4)
    let b2 := pre (word32At b (p + 8))
    let b3 := pre (word32At b (p + 12))
    let b4 := word32At b (p + 16)
    let h := rotr32 (s.acc.h ^^^ b0) 18 * 5#32 + k
    let f := rotr32 (s.acc.f + b1) 19 * Rom.c1
    let g := rotr32 (s.acc.g + b2) 18 * 5#32 + k
    let h := rotr32 (h ^^^ (b3 + b1)) 19 * 5#32 + k
    let g := bswap32 (g ^^^ b4) * 5#32
    let h := bswap32 (h + b4 * 5#32)
    let f := f + b0
    ∃ t, step s = .next t ∧ t.acc = { f := g, h := f, g := h } ∧ t.pos = s.pos + 20#64 ∧
      t = { s with acc := t.acc, pos := t.pos, rem := t.rem, phase := t.phase }

/-- R107: TAIL of HASH32's long path as one step of CORE. -/
def Obligations.Hash32TailFoldsAccumulators : Prop :=
  ∀ s : State, s.script = [] → s.status = .busy → s.cmd = 0x00#8 → s.phase = .tail →
    s.msgChanged = false →
    let k := 0xe6546b64#32
    let g := rotr32 (rotr32 s.acc.g 11 * Rom.c1) 17 * Rom.c1
    let f := rotr32 (rotr32 s.acc.f 11 * Rom.c1) 17 * Rom.c1
    let h := rotr32 (s.acc.h + g) 19 * 5#32 + k
    let h := rotr32 h 17 * Rom.c1
    let h := rotr32 (h + f) 19 * 5#32 + k
    let h := rotr32 h 17 * Rom.c1
    ∃ t, step s = .next t ∧ t.resLo = h.setWidth 64 ∧ t.resHi = 0#64 ∧
      t = { s with
        resLo := t.resLo, resHi := t.resHi, status := .done, phase := .idle, pos := t.pos,
        rem := t.rem, roll := t.roll, acc := t.acc, free := t.free }

/-- R106: HASH32's block step runs exactly `floor((LEN - 1) / 20)` times, on the blocks at 0, 20, 40, ...,
at least once, and `POS <= LEN` throughout. -/
def Obligations.Hash32LoopCount : Prop :=
  ∀ s : State, s.msg.Placed → 24 < s.len.toNat → s.script = [.start] → s.status ≠ .busy →
    s.cmd = 0x00#8 →
    1 ≤ (s.len.toNat - 1) / 20 ∧
    ∀ k, k ≤ (s.len.toNat - 1) / 20 →
      ∃ t : State, Host.Core.run core (2 + k) s = .next t ∧ t.pos.toNat = 20 * k ∧
        t.pos.toNat ≤ s.len.toNat ∧
        t.phase = if k < (s.len.toNat - 1) / 20 then .longLoop else .tail

/-! ### HASH64, HASH64S, HASH64SS -/

/-- R121: HASH64 on 0 to 16 bytes, for every value of the parameter `CUT64_WIDE_MIN`. -/
def Obligations.Hash64UpTo16Bytes : Prop :=
  ∀ (s : State) (b : Nat → Byte), s.msg.Bytes b → s.len.toNat ≤ 16 →
    let n := s.len.toNat
    let mul := Rom.k2 + s.len * 2#64
    ∃ t, exec .hash64 s = .next t ∧ t.resHi = 0#64 ∧ t.status = .done ∧
      t.resLo =
        if s.cuts.cut64WideMin ≤ n then
          let a := word64At b 0 + Rom.k2
          let e := word64At b (n - 8)
          hashLen16WithMul (rotr64 e 37 * mul + a) ((rotr64 a 25 + e) * mul) mul
        else if 4 ≤ n then
          hashLen16WithMul (s.len + (((word32At b 0).setWidth 64) <<< 3))
            ((word32At b (n - 4)).setWidth 64) mul
        else if 0 < n then
          let y := (b 0).setWidth 32 + (((b (n / 2)).setWidth 32) <<< 8)
          let z := s.len.setWidth 32 + (((b (n - 1)).setWidth 32) <<< 2)
          shiftMix ((y.setWidth 64 * Rom.k2) ^^^ (z.setWidth 64 * Rom.k0)) * Rom.k2
        else Rom.k2

/-- R122: HASH64 on 17 to 32 bytes. -/
def Obligations.Hash64From17To32Bytes : Prop :=
  ∀ (s : State) (b : Nat → Byte), s.msg.Bytes b → 17 ≤ s.len.toNat → s.len.toNat ≤ 32 →
    let n := s.len.toNat
    let mul := Rom.k2 + s.len * 2#64
    let a := word64At b 0 * Rom.k1
    let e := word64At b 8
    let c := word64At b (n - 8) * mul
    let d := word64At b (n - 16) * Rom.k2
    ∃ t, exec .hash64 s = .next t ∧ t.resHi = 0#64 ∧ t.status = .done ∧
      t.resLo = hashLen16WithMul (rotr64 (a + e) 43 + rotr64 c 30 + d)
        (a + rotr64 (e + Rom.k2) 18 + c) mul

/-- R123: HASH64 on 33 to 64 bytes. -/
def Obligations.Hash64From33To64Bytes : Prop :=
  ∀ (s : State) (b : Nat → Byte), s.msg.Bytes b → 33 ≤ s.len.toNat → s.len.toNat ≤ 64 →
    let n := s.len.toNat
    let mul := Rom.k2 + s.len * 2#64
    let a := word64At b 0 * Rom.k2
    let e1 := word64At b 8
    let c := word64At b (n - 24)
    let d := word64At b (n - 32)
    let e := word64At b 16 * Rom.k2
    let f := word64At b 24 * 9#64
    let g := word64At b (n - 8)
    let h := word64At b (n - 16) * mul
    let u := rotr64 (a + g) 43 + (rotr64 e1 30 + c) * 9#64
    let v := ((a + g) ^^^ d) + f + 1#64
    let w := bswap64 ((u + v) * mul) + h
    let x := rotr64 (e + f) 42 + c
    let y := (bswap64 ((v + w) * mul) + g) * mul
    let z := e + f + c
    let a' := bswap64 ((x + z) * mul + y) + e1
    let b' := shiftMix ((z + a') * mul + d + h) * mul
    ∃ t, exec .hash64 s = .next t ∧ t.resHi = 0#64 ∧ t.status = .done ∧ t.resLo = b' + x

/-- R124: INIT of the 64-bit long path as one step of CORE, for the three 64-bit commands. -/
def Obligations.Hash64InitLoadsRollingState : Prop :=
  ∀ (s : State) (b : Nat → Byte), s.msg.Bytes b → 64 < s.len.toNat → s.script = [] →
    s.status = .busy → (s.cmd = 0x01#8 ∨ s.cmd = 0x02#8 ∨ s.cmd = 0x03#8) → s.phase = .init →
    let n := s.len.toNat
    let weak := fun (p : Nat) (a c : W64) =>
      weakHash32 (word64At b p) (word64At b (p + 8)) (word64At b (p + 16)) (word64At b (p + 24)) a c
    let x := word64At b (n - 40)
    let y := word64At b (n - 16) + word64At b (n - 56)
    let z := hashLen16 (word64At b (n - 48) + s.len) (word64At b (n - 24))
    let v := weak (n - 64) s.len z
    let w := weak (n - 32) (y + Rom.k1) x
    step s = .next { s with
      roll := { x := x * Rom.k1 + word64At b 0, y := y, z := z,
                v0 := v.lo, v1 := v.hi, w0 := w.lo, w1 := w.hi },
      pos := 0#64, rem := s.len, phase := .longLoop }

/-- R92, R125, R154: one LONG_LOOP step of the five 64- and 128-bit commands as one step of CORE; each line
uses the values already updated by the lines before it.  That the 128-bit commands take one block a step,
where R154 leaves one block or a pair open, is the model's choice (log entry 10).  The 64-bit commands lower `REM` by 64 a step; of
`REM` of the 128-bit commands, which R92 does not name, nothing is said here. -/
def Obligations.BlockStepUpdatesRollingState : Prop :=
  ∀ (s : State) (b : Nat → Byte), s.msg.Bytes b → s.pos.toNat + 64 ≤ s.len.toNat → s.script = [] →
    s.status = .busy →
    (s.cmd = 0x01#8 ∨ s.cmd = 0x02#8 ∨ s.cmd = 0x03#8 ∨ s.cmd = 0x04#8 ∨ s.cmd = 0x05#8) →
    s.phase = .longLoop →
    let p := s.pos.toNat
    let r := s.roll
    let weak := fun (q : Nat) (a c : W64) =>
      weakHash32 (word64At b q) (word64At b (q + 8)) (word64At b (q + 16)) (word64At b (q + 24)) a c
    let x := rotr64 (r.x + r.y + r.v0 + word64At b (p + 8)) 37 * Rom.k1
    let y := rotr64 (r.y + r.v1 + word64At b (p + 48)) 42 * Rom.k1
    let x := x ^^^ r.w1
    let y := y + r.v0 + word64At b (p + 40)
    let z := rotr64 (r.z + r.w0) 33 * Rom.k1
    let v := weak p (r.v1 * Rom.k1) (x + r.w0)
    let w := weak (p + 32) (z + r.w1) (y + word64At b (p + 16))
    ∃ t, step s = .next t ∧
      t.roll = { x := z, y := y, z := x, v0 := v.lo, v1 := v.hi, w0 := w.lo, w1 := w.hi } ∧
      t.pos = s.pos + 64#64 ∧
      (s.cmd = 0x01#8 ∨ s.cmd = 0x02#8 ∨ s.cmd = 0x03#8 → t.rem = s.rem - 64#64) ∧
      t = { s with roll := t.roll, pos := t.pos, rem := t.rem, phase := t.phase }

/-- R126: the step is taken while `REM > 64`, exactly `floor((LEN - 1) / 64)` times, at least once, on
the blocks at 0, 64, 128, ...; when the loop ends `1 <= REM <= 64`. -/
def Obligations.Hash64LoopCount : Prop :=
  ∀ (s : State) (i : Instr), (i = .hash64 ∨ i = .hash64s ∨ i = .hash64ss) → s.msg.Placed →
    64 < s.len.toNat → s.script = [.start] → s.status ≠ .busy → decode s.cmd = .ok i →
    1 ≤ (s.len.toNat - 1) / 64 ∧
    ∀ k, k ≤ (s.len.toNat - 1) / 64 →
      ∃ t : State, Host.Core.run core (2 + k) s = .next t ∧ t.pos.toNat = 64 * k ∧
        t.rem.toNat = s.len.toNat - 64 * k ∧
        (t.phase = if 64 < t.rem.toNat then .longLoop else .tail) ∧
        (k = (s.len.toNat - 1) / 64 → 1 ≤ t.rem.toNat ∧ t.rem.toNat ≤ 64) ∧
        (k < (s.len.toNat - 1) / 64 → 64 < t.rem.toNat)

/-- R127: TAIL of the 64-bit long path as one step of CORE: the fold of all seven words. -/
def Obligations.Hash64TailFoldsSevenWords : Prop :=
  ∀ s : State, s.script = [] → s.status = .busy → s.cmd = 0x01#8 → s.phase = .tail →
    s.msgChanged = false →
    let r := s.roll
    ∃ t, step s = .next t ∧
      t.resLo = hashLen16 (hashLen16 r.v0 r.w0 + shiftMix r.y * Rom.k1 + r.z)
        (hashLen16 r.v1 r.w1 + r.x) ∧
      t.resHi = 0#64 ∧
      t = { s with
        resLo := t.resLo, resHi := t.resHi, status := .done, phase := .idle, pos := t.pos,
        rem := t.rem, roll := t.roll, acc := t.acc, free := t.free }

/-- R128: `RES_LO <- hashLen16(hash64(MSG) - k2, SEED0); RES_HI <- 0; STATUS <- DONE`, at every length,
`hash64(MSG)` being what HASH64 leaves in `RES_LO` on the same state. -/
def Obligations.Hash64sCombinesSeed : Prop :=
  ∀ s : State, s.msg.Placed →
    ∃ u t, exec .hash64 s = .next u ∧ exec .hash64s s = .next t ∧
      t.resLo = hashLen16 (u.resLo - Rom.k2) s.seed0 ∧ t.resHi = 0#64 ∧ t.status = .done

/-- R129: `RES_LO <- hashLen16(hash64(MSG) - SEED0, SEED1); RES_HI <- 0; STATUS <- DONE`, at every
length, `hash64(MSG)` being what HASH64 leaves in `RES_LO` on the same state. -/
def Obligations.Hash64ssCombinesSeeds : Prop :=
  ∀ s : State, s.msg.Placed →
    ∃ u t, exec .hash64 s = .next u ∧ exec .hash64ss s = .next t ∧
      t.resLo = hashLen16 (u.resLo - s.seed0) s.seed1 ∧ t.resHi = 0#64 ∧ t.status = .done

/-- The first identity of R69, which R69 marks as its own inference: `HASH64S(b, s) = HASH64SS(b, k2, s)`. -/
def Obligations.Hash64sIsHash64ssWithK2 : Prop :=
  ∀ s : State, s.msg.Placed →
    ∃ t u, exec .hash64s s = .next t ∧
      exec .hash64ss { s with seed0 := Rom.k2, seed1 := s.seed0 } = .next u ∧
      t.resLo = u.resLo ∧ t.resHi = u.resHi

/-! ### HASH128S, HASH128 -/

/-- R151: HASH128S on a message up to `CUT128_SHORT_MAX` bytes: the finisher's short branch, with
`hash64_0to16` of the same message being HASH64's value (R120, R121). -/
def Obligations.Hash128sFinisherShort : Prop :=
  ∀ (s : State) (b : Nat → Byte), s.msg.Bytes b → s.len.toNat ≤ s.cuts.cut128ShortMax →
    ∃ u t, exec .hash64 s = .next u ∧ exec .hash128s s = .next t ∧
      (let a := shiftMix (s.seed0 * Rom.k1) * Rom.k1
       let c := s.seed1 * Rom.k1 + u.resLo
       let d := shiftMix (a + (if 8 ≤ s.len.toNat then word64At b 0 else c))
       let a' := hashLen16 a c
       let b' := hashLen16 d s.seed1
       t.resLo = a' ^^^ b' ∧ t.resHi = hashLen16 b' a') ∧
      t.status = .done

/-- R152: HASH128S on a message above `CUT128_SHORT_MAX` and up to `CUT128_FIN_MAX` bytes: the finisher's
long branch, `max(1, ceil((n - 16) / 16))` chunks. -/
def Obligations.Hash128sFinisherLong : Prop :=
  ∀ (s : State) (b : Nat → Byte), s.msg.Bytes b → s.cuts.cut128ShortMax < s.len.toNat →
    s.len.toNat ≤ s.cuts.cut128FinMax →
    let n := s.len.toNat
    let c0 := hashLen16 (word64At b (n - 8) + Rom.k1) s.seed0
    let d0 := hashLen16 (s.seed1 + s.len) (c0 + word64At b (n - 16))
    let q := (List.range (max 1 ((n - 1) / 16))).foldl
      (fun (q : (W64 × W64) × (W64 × W64)) j =>
        let a := (q.1.1 ^^^ (shiftMix (word64At b (16 * j) * Rom.k1) * Rom.k1)) * Rom.k1
        let c := (q.2.1 ^^^ (shiftMix (word64At b (16 * j + 8) * Rom.k1) * Rom.k1)) * Rom.k1
        ((a, q.1.2 ^^^ a), (c, q.2.2 ^^^ c)))
      ((s.seed0 + d0, s.seed1), (c0, d0))
    let a' := hashLen16 q.1.1 q.2.1
    let b' := hashLen16 q.2.2 q.1.2
    ∃ t, exec .hash128s s = .next t ∧ t.resLo = a' ^^^ b' ∧ t.resHi = hashLen16 b' a' ∧
      t.status = .done

/-- R153: INIT of the block-loop path of HASH128S as one step of CORE. -/
def Obligations.Hash128sInitLoadsRollingState : Prop :=
  ∀ (s : State) (b : Nat → Byte), s.msg.Bytes b → s.cuts.cut128FinMax < s.len.toNat →
    s.script = [] → s.status = .busy → s.cmd = 0x05#8 → s.phase = .init →
    let x := s.seed0
    let y := s.seed1
    let z := s.len * Rom.k1
    let v0 := rotr64 (y ^^^ Rom.k1) 49 * Rom.k1 + word64At b 0
    let v1 := rotr64 v0 42 * Rom.k1 + word64At b 8
    let w0 := rotr64 (y + z) 35 * Rom.k1 + x
    let w1 := rotr64 (x + word64At b 88) 53 * Rom.k1
    step s = .next { s with
      roll := { x := x, y := y, z := z, v0 := v0, v1 := v1, w0 := w0, w1 := w1 },
      pos := 0#64, rem := s.len, phase := .longLoop }

/-- R154, with one block step a step of the model (log entry 10): the 128-bit loop consumes blocks two at a
time, `floor(n / 128)` pairs, at least one, from `B` on; when it ends `REM = n mod 128`. -/
def Obligations.Hash128LoopCount : Prop :=
  ∀ (s : State) (i : Instr), (i = .hash128 ∨ i = .hash128s) → s.msg.Placed →
    takesShortPath s.cuts i s.len.toNat = false → s.script = [.start] → s.status ≠ .busy →
    decode s.cmd = .ok i →
    let base := (partOf i s.len.toNat).base
    let n := (partOf i s.len.toNat).n
    1 ≤ n / 128 ∧
    ∀ k, k ≤ 2 * (n / 128) →
      ∃ t : State, Host.Core.run core (2 + k) s = .next t ∧ t.pos.toNat = base + 64 * k ∧
        t.rem.toNat = n - 128 * (k / 2) ∧
        (t.phase = if k < 2 * (n / 128) then .longLoop else .tail) ∧
        (k = 2 * (n / 128) → t.rem.toNat = n % 128 ∧ t.rem.toNat < 128)

/-- R155, R156, R157: TAIL of the block-loop path of HASH128S as one step of CORE: the scramble, the
`ceil(REM / 32)` backward passes, the final fold. -/
def Obligations.Hash128sTailScramblesPassesAndFolds : Prop :=
  ∀ (s : State) (b : Nat → Byte), s.msg.Bytes b → s.script = [] → s.status = .busy →
    s.cmd = 0x05#8 → s.phase = .tail → s.msgChanged = false →
    s.pos.toNat + s.rem.toNat = s.len.toNat → s.rem.toNat < 128 → 128 ≤ s.pos.toNat →
    let e := s.len.toNat
    let weak := fun (q : Nat) (a c : W64) =>
      weakHash32 (word64At b q) (word64At b (q + 8)) (word64At b (q + 16)) (word64At b (q + 24)) a c
    let r0 : Rolling :=
      { x := s.roll.x + rotr64 (s.roll.v0 + s.roll.z) 49 * Rom.k0,
        y := s.roll.y * Rom.k0 + rotr64 s.roll.w1 37,
        z := s.roll.z * Rom.k0 + rotr64 s.roll.w0 27,
        v0 := s.roll.v0 * Rom.k0, v1 := s.roll.v1, w0 := s.roll.w0 * 9#64, w1 := s.roll.w1 }
    let r := (List.range ((s.rem.toNat + 31) / 32)).foldl
      (fun (r : Rolling) j =>
        let q := e - 32 * (j + 1)
        let y := rotr64 (r.x + r.y) 42 * Rom.k0 + r.v1
        let w0 := r.w0 + word64At b (q + 16)
        let x := r.x * Rom.k0 + w0
        let z := r.z + r.w1 + word64At b q
        let w1 := r.w1 + r.v0
        let v := weak q (r.v0 + z) r.v1
        { x := x, y := y, z := z, v0 := v.lo * Rom.k0, v1 := v.hi, w0 := w0, w1 := w1 }) r0
    let x := hashLen16 r.x r.v0
    let y := hashLen16 (r.y + r.z) r.w0
    ∃ t, step s = .next t ∧ t.resLo = hashLen16 (x + r.v1) r.w1 + y ∧
      t.resHi = hashLen16 (x + r.w1) (y + r.v1) ∧
      t = { s with
        resLo := t.resLo, resHi := t.resHi, status := .done, phase := .idle, pos := t.pos,
        rem := t.rem, roll := t.roll, acc := t.acc, free := t.free }

/-- R158: HASH128 on fewer than 16 bytes is HASH128S of the message with the seed pair `(k0, k1)`; on 16
bytes or more it is HASH128S of the message without its first 16 bytes with the seed pair
`(LE64(0), LE64(8) + k0)`. -/
def Obligations.Hash128IsHash128sOfItsPart : Prop :=
  ∀ (s : State) (b : Nat → Byte), s.msg.Bytes b →
    (s.len.toNat < 16 →
      ∃ t u, exec .hash128 s = .next t ∧
        exec .hash128s { s with seed0 := Rom.k0, seed1 := Rom.k1 } = .next u ∧
        t.resLo = u.resLo ∧ t.resHi = u.resHi ∧ t.status = .done) ∧
    (16 ≤ s.len.toNat → ∀ s' : State, s'.len = s.len - 16#64 → s'.cuts = s.cuts →
      s'.msg.Bytes (fun off => b (off + 16)) → s'.seed0 = word64At b 0 →
      s'.seed1 = word64At b 8 + Rom.k0 →
      ∃ t u, exec .hash128 s = .next t ∧ exec .hash128s s' = .next u ∧
        t.resLo = u.resLo ∧ t.resHi = u.resHi ∧ t.status = .done)

/-! ### Every command -/

/-- R170, R182, R67: on a placed message every command completes, with the value of its function in the result
registers; that stepping through the phases gives the function's value is R197, which the spec marks as its
own inference. -/
def Obligations.EveryCommandCompletes : Prop :=
  ∀ (i : Instr) (s : State), s.msg.Placed →
    ∃ r t, commandValue i s = .ok r ∧ exec i s = .next t ∧
      t.resLo = r.lo ∧ t.resHi = r.hi ∧ t.status = .done ∧ t.phase = .idle

/-- R67: what HASH32 leaves fits 32 bits with `RES_HI = 0`; the 64-bit commands leave `RES_HI = 0`. -/
def Obligations.NarrowResultsClearHighBits : Prop :=
  ∀ (i : Instr) (s t : State), exec i s = .next t →
    (i = .hash32 → t.resLo.toNat < 2 ^ 32 ∧ t.resHi = 0#64) ∧
    (i = .hash64 ∨ i = .hash64s ∨ i = .hash64ss → t.resHi = 0#64)

/-- What R44 says and marks as its own inference: no command ever issues a read outside the message, whatever is
placed; where a command stops (the model's choice, log entry 4), it stops on a byte of the message that the host has not placed. -/
def Obligations.CommandsReadInsideMessage : Prop :=
  ∀ (i : Instr) (s : State) (f : Fault), exec i s = .fault f →
    ∃ rule off, f = .unplaced rule off ∧ off < s.len.toNat ∧ Memory.find s.mem off = none

/-- What R45 says and marks as its own inference: with `LEN = 0` no command issues a read: it completes whatever the memory holds, with the same
result. -/
def Obligations.EmptyMessageReadsNothing : Prop :=
  ∀ (i : Instr) (s : State) (m : Memory), s.len = 0#64 →
    ∃ t u, exec i s = .next t ∧ exec i { s with mem := m } = .next u ∧
      t.resLo = u.resLo ∧ t.resHi = u.resHi ∧ t.status = .done

/-- R21, R62, R193: the result is a function of the command, `LEN`, the message bytes, the seeds the
command's format reads, and the open parameters only, not of anything earlier commands left. -/
def Obligations.ResultDependsOnlyOnOperands : Prop :=
  ∀ (i : Instr) (s s' : State), s.msg.Same s'.msg → s.cuts = s'.cuts →
    (i.format.readsSeed0 = true → s.seed0 = s'.seed0) →
    (i.format.readsSeed1 = true → s.seed1 = s'.seed1) → s.msg.Placed →
    ∃ t t', exec i s = .next t ∧ exec i s' = .next t' ∧ t.resLo = t'.resLo ∧ t.resHi = t'.resHi

/-- R8: each open parameter has its default at reset (log entry 2) and takes its one alternative, 8, 16 and
127; it matters at one length of the hashed part, where for each command that uses it some message has two
different results, and at no other: `CUT64_WIDE_MIN` at 8, `CUT128_SHORT_MAX` at 16, `CUT128_FIN_MAX` at 128,
the last two in the 128-bit commands only. -/
def Obligations.CutsMatterOnlyAtTheirLengths : Prop :=
  (State.reset.cuts.cut64WideMin = 9 ∧ State.reset.cuts.cut128ShortMax = 15 ∧
    State.reset.cuts.cut128FinMax = 128) ∧
  (∀ c : Cuts, c.cut64WideMin = (if c.wide8 then 8 else 9) ∧
    c.cut128ShortMax = (if c.short16 then 16 else 15) ∧
    c.cut128FinMax = (if c.loop128 then 127 else 128)) ∧
  (let differAt := fun (i : Instr) (n : Nat) (c c' : Cuts) =>
    ∃ s : State, s.msg.Placed ∧ (partOf i s.len.toNat).n = n ∧
      ∃ t u, exec i { s with cuts := c } = .next t ∧ exec i { s with cuts := c' } = .next u ∧
        (t.resLo ≠ u.resLo ∨ t.resHi ≠ u.resHi)
   (∀ i, i ≠ .hash32 → differAt i 8 Cuts.xc { Cuts.xc with wide8 := true }) ∧
   (∀ i, i = .hash128 ∨ i = .hash128s →
     differAt i 16 Cuts.xc { Cuts.xc with short16 := true } ∧
     differAt i 128 Cuts.xc { Cuts.xc with loop128 := true })) ∧
  ∀ (i : Instr) (s : State) (x : Bool), s.msg.Placed →
    let n := (partOf i s.len.toNat).n
    let sameResult := fun c : Cuts =>
      ∃ t u, exec i s = .next t ∧ exec i { s with cuts := c } = .next u ∧
        t.resLo = u.resLo ∧ t.resHi = u.resHi
    (i = .hash32 ∨ n ≠ 8 → sameResult { s.cuts with wide8 := x }) ∧
    ((i ≠ .hash128 ∧ i ≠ .hash128s) ∨ n ≠ 16 → sameResult { s.cuts with short16 := x }) ∧
    ((i ≠ .hash128 ∧ i ≠ .hash128s) ∨ n ≠ 128 → sameResult { s.cuts with loop128 := x })

/-- R23, R20, R43, R196: the frame of all six commands.  The destinations are `RES_LO`, `RES_HI`,
`STATUS` and `PHASE`; the operand registers, `CMD`, the message space and what is the host's stay; of
`POS`, `REM`, the rolling state and the accumulators nothing may be claimed afterwards (R30, R196). -/
def Obligations.CommandFrame : Prop :=
  ∀ (i : Instr) (s t : State), exec i s = .next t →
    t.cmd = s.cmd ∧ t.len = s.len ∧ t.seed0 = s.seed0 ∧ t.seed1 = s.seed1 ∧
    t.script = s.script ∧ t.hostData = s.hostData ∧ t.refusals = s.refusals ∧ t.cuts = s.cuts ∧
    (∀ off, Memory.find t.mem off = Memory.find s.mem off) ∧ t.mem = s.mem ∧
    t.status = .done ∧ t.phase = .idle ∧ t.msgChanged = false

/-! ### Launch, completion and the host -/

/-- A call of the command in `CMD` (the function view of R173, as one step: the model's choice, log entry 10)
runs exactly the decoded command; the host's program moves on by one action around it.  While BUSY the call
is ignored, as a START is. -/
def Obligations.StepRunsDecodedInstruction : Prop :=
  ∀ (s : State) (rest : List HostMove), s.script = .call :: rest →
    (∀ i : Instr, s.status ≠ .busy → decode s.cmd = .ok i → step s = exec i { s with script := rest }) ∧
    (s.status = .busy → step s = .next { s with script := rest })

/-- R173: an accepted START sets BUSY and INIT and changes no other register. -/
def Obligations.AcceptedStartSetsBusy : Prop :=
  ∀ (s : State) (rest : List HostMove) (i : Instr), s.script = .start :: rest → s.status ≠ .busy →
    decode s.cmd = .ok i →
    step s = .next { s with script := rest, status := .busy, phase := .init, msgChanged := false }

/-- R65, R172: a START with a reserved `CMD` changes no register.  That the model then has a next state, with
its refusal mark raised, is the model's choice (log entry 6), and so is the call (log entry 10). -/
def Obligations.ReservedStartRefused : Prop :=
  ∀ (s : State) (move : HostMove) (rest : List HostMove), (move = .start ∨ move = .call) →
    s.script = move :: rest → s.status ≠ .busy →
    (opField s.cmd = 6#3 ∨ opField s.cmd = 7#3 ∨ rsvField s.cmd ≠ 0#5) →
    step s = .next { s with script := rest, refusals := s.refusals + 1 }

/-- R181: a START while BUSY is ignored, and a running command ends only by its own terminal phase or by
reset. -/
def Obligations.RunningCommandCannotBeCancelled : Prop :=
  (∀ (s : State) (rest : List HostMove), s.script = .start :: rest → s.status = .busy →
    step s = .next { s with script := rest }) ∧
  (∀ s t : State, s.status = .busy → step s = .next t → t.status ≠ .busy →
    ((∃ rest, s.script = .reset :: rest) ∧ t.status = .idle) ∨
    ((s.phase = .shortPath ∨ s.phase = .tail) ∧ t.status = .done))

/-- R22, R23, R24, R25: a host write takes effect on an operand register or `CMD` unless BUSY, and never
on `RES_LO`, `RES_HI`, `STATUS`. -/
def Obligations.HostWritesReachOperandsOnly : Prop :=
  ∀ (s : State) (reg : HostReg) (v : W64) (rest : List HostMove), s.script = .write reg v :: rest →
    (s.status = .busy → step s = .next { s with script := rest }) ∧
    (s.status ≠ .busy →
      step s = .next
        (match reg with
          | .cmd => { s with script := rest, cmd := v.setWidth 8 }
          | .len => { s with script := rest, len := v }
          | .seed0 => { s with script := rest, seed0 := v }
          | .seed1 => { s with script := rest, seed1 := v }
          | .resLo => { s with script := rest }
          | .resHi => { s with script := rest }
          | .status => { s with script := rest }))

/-- R22, R23, R25, R192: host reads return the registers at any time and change none; the word a result read
returns while `STATUS` is not DONE is unspecified, a free value, whatever it is (log entry 5). -/
def Obligations.HostReadsReturnRegisters : Prop :=
  ∀ (s : State) (reg : HostReg) (rest : List HostMove), s.script = .read reg :: rest →
    (reg = .len → step s = .next { s with script := rest, hostData := s.len }) ∧
    (reg = .seed0 → step s = .next { s with script := rest, hostData := s.seed0 }) ∧
    (reg = .seed1 → step s = .next { s with script := rest, hostData := s.seed1 }) ∧
    (reg = .cmd → step s = .next { s with script := rest, hostData := s.cmd.setWidth 64 }) ∧
    (reg = .status → step s = .next { s with
      script := rest
      hostData := match s.status with
        | .idle => 0#64
        | .busy => 1#64
        | .done => 2#64 }) ∧
    (reg = .resLo → s.status = .done → step s = .next { s with script := rest, hostData := s.resLo }) ∧
    (reg = .resHi → s.status = .done → step s = .next { s with script := rest, hostData := s.resHi }) ∧
    (reg = .resLo ∨ reg = .resHi → s.status ≠ .done →
      step s = .next { s with
        script := rest, hostData := Config.freeWord s.free, free := s.free + 1 })

/-- R190: the reset input, at any time: a running command is abandoned, and CORE then does nothing by
itself. -/
def Obligations.ResetAbandonsCommand : Prop :=
  ∀ (s : State) (rest : List HostMove), s.script = .reset :: rest →
    ∃ t, step s = .next t ∧ t.status = .idle ∧ t.phase = .idle ∧ t.mem = s.mem ∧ t.script = rest ∧
      ∀ u : State, u.status ≠ .busy → u.script = [] → step u = .next u

/-- R35: the values it gives for reset: `STATUS` and `PHASE` are IDLE and the message space is not affected;
a reset while BUSY abandons the command.  Nothing is said of the registers R35 leaves unspecified. -/
def Obligations.ResetStateIsIdle : Prop :=
  State.reset.status = .idle ∧ State.reset.status.code = 0#2 ∧ State.reset.phase = .idle ∧
  ∀ (s : State) (rest : List HostMove), s.script = .reset :: rest →
    ∃ t, step s = .next t ∧ t.status = .idle ∧ t.phase = .idle ∧ t.mem = s.mem

/-- R25: the values of `STATUS` and the only events that change it.  A call (log entry 10) is an accepted
START and its completion in one step; `startTogether` (log entry 11) is a START. -/
def Obligations.StatusTransitions : Prop :=
  (Status.idle.code = 0#2 ∧ Status.busy.code = 1#2 ∧ Status.done.code = 2#2) ∧
  (∀ st : Status, st.code ≠ 3#2) ∧
  ∀ s t : State, step s = .next t → t.status ≠ s.status →
    ((∃ rest, s.script = .reset :: rest) ∧ t.status = .idle) ∨
    ((∃ rest, s.script = .start :: rest ∨ s.script = .startTogether :: rest) ∧
      s.status ≠ .busy ∧ (∃ i, decode s.cmd = .ok i) ∧ t.status = .busy) ∨
    ((∃ rest, s.script = .call :: rest) ∧
      s.status ≠ .busy ∧ (∃ i, decode s.cmd = .ok i) ∧ t.status = .done) ∨
    (s.status = .busy ∧ (s.phase = .shortPath ∨ s.phase = .tail) ∧ t.status = .done)

/-- R23: `RES_LO` and `RES_HI` change only at a completion, a completed call (log entry 10) or a reset (whose
values for them are the model's, log entry 1). -/
def Obligations.ResultsWrittenOnlyAtCompletion : Prop :=
  ∀ s t : State, step s = .next t → (t.resLo ≠ s.resLo ∨ t.resHi ≠ s.resHi) →
    (∃ rest, s.script = .reset :: rest ∨ s.script = .call :: rest) ∨
    (s.status = .busy ∧ (s.phase = .shortPath ∨ s.phase = .tail))

/-- R22, R24, R52: the operand registers and `CMD` change only by a host write of that register while not
BUSY, or by reset. -/
def Obligations.OperandsChangeOnlyByHostWrite : Prop :=
  ∀ s t : State, step s = .next t → (¬ ∃ rest, s.script = .reset :: rest) →
    (t.cmd ≠ s.cmd → s.status ≠ .busy ∧ ∃ v rest, s.script = .write .cmd v :: rest) ∧
    (t.len ≠ s.len → s.status ≠ .busy ∧ ∃ v rest, s.script = .write .len v :: rest) ∧
    (t.seed0 ≠ s.seed0 → s.status ≠ .busy ∧ ∃ v rest, s.script = .write .seed0 v :: rest) ∧
    (t.seed1 ≠ s.seed1 → s.status ≠ .busy ∧ ∃ v rest, s.script = .write .seed1 v :: rest)

/-- R175, R181: a START in the same instant as a step of CORE (how the model says so: log entry 11).  A
completion is taken first, so the START sees DONE and is accepted, and the result of the completed command can
no longer be read: a read of it returns a free value (log entry 5).  A step that does not complete leaves BUSY,
and the START is ignored.  Where no command is running it is a START like any other. -/
def Obligations.CompletionPrecedesStart : Prop :=
  ∀ (s : State) (rest : List HostMove), s.script = .startTogether :: rest →
    (∀ t : State, s.status = .busy → coreStep { s with script := rest } = .next t →
      (t.status = .done →
        step s = .next { t with status := .busy, phase := .init, msgChanged := false } ∧
        ∀ (u : State) (r : HostReg) (rest' : List HostMove),
          u = { t with status := .busy, phase := .init, msgChanged := false,
                       script := .read r :: rest' } →
          r = .resLo ∨ r = .resHi →
          step u = .next { u with
            script := rest', hostData := Config.freeWord u.free, free := u.free + 1 }) ∧
      (t.status = .busy → step s = .next t)) ∧
    (s.status ≠ .busy → step s = step { s with script := .start :: rest })

/-- R48: a message byte changed while BUSY, that is, a byte placed below `LEN` that differs from the one there,
marks the command (the model's mark, log entry 3) and changes no register; bytes placed that change no byte of
the message leave the mark as it was; at completion the two result words are free values, whatever they are, and nothing else differs
from the unmarked completion. -/
def Obligations.ChangedMessageFreesOnlyTheResult : Prop :=
  (∀ (s : State) (off : Nat) (bytes : List Byte) (rest : List HostMove),
    s.script = .place off bytes :: rest → s.status = .busy →
    ((∃ k, k < bytes.length ∧ off + k < s.len.toNat ∧
        Memory.find s.mem (off + k) ≠ bytes[k]?) →
      step s = .next { s with
        script := rest, mem := Memory.place s.mem off bytes, msgChanged := true }) ∧
    ((∀ k, k < bytes.length → off + k < s.len.toNat →
        Memory.find s.mem (off + k) = bytes[k]?) →
      step s = .next { s with script := rest, mem := Memory.place s.mem off bytes })) ∧
  (∀ s t : State, s.script = [] → s.status = .busy → s.msgChanged = true →
    step { s with msgChanged := false } = .next t → t.status = .done →
    step s = .next { t with
      resLo := Config.freeWord t.free, resHi := Config.freeWord (t.free + 1), free := t.free + 2 })

/-- R43, R40: no step but a host placement changes the message space, and placing bytes changes those
bytes only. -/
def Obligations.MessageWrittenOnlyByHost : Prop :=
  (∀ s t : State, step s = .next t →
    (¬ ∃ off bytes rest, s.script = .place off bytes :: rest) → t.mem = s.mem) ∧
  (∀ (s : State) (off : Nat) (bytes : List Byte) (rest : List HostMove),
    s.script = .place off bytes :: rest →
    ∃ t, step s = .next t ∧
      ∀ a, Memory.find t.mem a =
        if off ≤ a ∧ a < off + bytes.length then bytes[a - off]? else Memory.find s.mem a)

/-! ### Whole-machine statements -/

/-- The step counts of R195, which R195 marks as its own inference: after the accepted START a command is BUSY
for all of its steps but the last.  R27: on every path INIT leaves `POS` at the start of the command's part, 0
or 16, and `REM` its length (log entries 7 and 20), and from then on `POS <= LEN`, which R27 marks as its own
inference too. -/
def Obligations.BusyUntilLastStep : Prop :=
  ∀ (i : Instr) (s : State), s.msg.Placed → s.script = [.start] → s.status ≠ .busy →
    decode s.cmd = .ok i →
    ∀ k, 1 ≤ k → k ≤ commandSteps s.cuts i s.len.toNat →
      ∃ t : State, Host.Core.run core k s = .next t ∧ t.status = .busy ∧
        (k = 2 → t.pos.toNat = (partOf i s.len.toNat).base ∧
          t.rem.toNat = (partOf i s.len.toNat).n) ∧
        (2 ≤ k → t.pos.toNat ≤ s.len.toNat)

/-- Big step equals small step, which R197 marks as its own inference: an accepted START followed by CORE's steps (as many as R195 says)
reaches the very state the command run as one call reaches, and its result is the value of the command's
function. -/
def Obligations.BigStepEqualsSmallStep : Prop :=
  ∀ (i : Instr) (s : State), s.msg.Placed → s.script = [.start] → s.status ≠ .busy →
    decode s.cmd = .ok i →
    ∃ (r : Pair) (t : State), commandValue i s = .ok r ∧
      Host.Core.run core (commandSteps s.cuts i s.len.toNat + 1) s = .next t ∧
      exec i { s with script := [] } = .next t ∧
      t.resLo = r.lo ∧ t.resHi = r.hi ∧ t.status = .done ∧ t.phase = .idle

/-- The invariant holds at reset. -/
def Obligations.InvariantHoldsAtReset : Prop := State.reset.Inv

/-- Every step keeps the invariant: the sentences of R27 (`PHASE = IDLE` exactly when `STATUS` is not BUSY;
`POS` and `REM` stand where the rules of the path say), R172 (only a legal command runs), the canonical form
of the message space.  `REM` on HASH32's long path, on SHORT_PATH, and between the two blocks of a pair of the
128-bit loop is the model's deduction (log entries 7, 20, 10). -/
def Obligations.InvariantKeptByEveryStep : Prop :=
  ∀ s t : State, s.Inv → step s = .next t → t.Inv

/-- R170, and R44's inference: in a state that meets the invariant, with the message placed, every step is
safe, whatever the host does next. -/
def Obligations.StepsAreSafe : Prop :=
  ∀ s : State, s.Inv → s.msg.Placed → s.Safe

/-- R44's inference: in a state that meets the invariant no step reads outside the message, placed or not. -/
def Obligations.StepsReadInsideMessage : Prop :=
  ∀ (s : State) (rule off n : Nat), s.Inv → step s ≠ .fault (.outsideMessage rule off n)
end

