-- ==== Sys2Proof/Laws/State.lean ====
section
/-! SUPPORT. One lemma per field per named update of State, true by rfl, so that no later proof unfolds a
record update; and what the conditional updates (completion, host accesses, reset) do to each field. -/

namespace Sys2Proof.Machine

/-! ### launch -/

@[simp] theorem State.launch_cmd (s : State) : s.launch.cmd = s.cmd := rfl
@[simp] theorem State.launch_len (s : State) : s.launch.len = s.len := rfl
@[simp] theorem State.launch_seed0 (s : State) : s.launch.seed0 = s.seed0 := rfl
@[simp] theorem State.launch_seed1 (s : State) : s.launch.seed1 = s.seed1 := rfl
@[simp] theorem State.launch_resLo (s : State) : s.launch.resLo = s.resLo := rfl
@[simp] theorem State.launch_resHi (s : State) : s.launch.resHi = s.resHi := rfl
@[simp] theorem State.launch_status (s : State) : s.launch.status = .busy := rfl
@[simp] theorem State.launch_phase (s : State) : s.launch.phase = .init := rfl
@[simp] theorem State.launch_pos (s : State) : s.launch.pos = s.pos := rfl
@[simp] theorem State.launch_rem (s : State) : s.launch.rem = s.rem := rfl
@[simp] theorem State.launch_roll (s : State) : s.launch.roll = s.roll := rfl
@[simp] theorem State.launch_acc (s : State) : s.launch.acc = s.acc := rfl
@[simp] theorem State.launch_mem (s : State) : s.launch.mem = s.mem := rfl
@[simp] theorem State.launch_script (s : State) : s.launch.script = s.script := rfl
@[simp] theorem State.launch_hostData (s : State) : s.launch.hostData = s.hostData := rfl
@[simp] theorem State.launch_refusals (s : State) : s.launch.refusals = s.refusals := rfl
@[simp] theorem State.launch_msgChanged (s : State) : s.launch.msgChanged = false := rfl
@[simp] theorem State.launch_free (s : State) : s.launch.free = s.free := rfl
@[simp] theorem State.launch_cuts (s : State) : s.launch.cuts = s.cuts := rfl

/-! ### enterShort -/

@[simp] theorem State.enterShort_cmd (p : Part) (s : State) : (s.enterShort p).cmd = s.cmd := rfl
@[simp] theorem State.enterShort_len (p : Part) (s : State) : (s.enterShort p).len = s.len := rfl
@[simp] theorem State.enterShort_seed0 (p : Part) (s : State) : (s.enterShort p).seed0 = s.seed0 := rfl
@[simp] theorem State.enterShort_seed1 (p : Part) (s : State) : (s.enterShort p).seed1 = s.seed1 := rfl
@[simp] theorem State.enterShort_resLo (p : Part) (s : State) : (s.enterShort p).resLo = s.resLo := rfl
@[simp] theorem State.enterShort_resHi (p : Part) (s : State) : (s.enterShort p).resHi = s.resHi := rfl
@[simp] theorem State.enterShort_status (p : Part) (s : State) : (s.enterShort p).status = s.status := rfl
@[simp] theorem State.enterShort_phase (p : Part) (s : State) : (s.enterShort p).phase = .shortPath := rfl
@[simp] theorem State.enterShort_pos (p : Part) (s : State) : (s.enterShort p).pos = word64 p.base := rfl
@[simp] theorem State.enterShort_rem (p : Part) (s : State) : (s.enterShort p).rem = word64 p.n := rfl
@[simp] theorem State.enterShort_roll (p : Part) (s : State) : (s.enterShort p).roll = s.roll := rfl
@[simp] theorem State.enterShort_acc (p : Part) (s : State) : (s.enterShort p).acc = s.acc := rfl
@[simp] theorem State.enterShort_mem (p : Part) (s : State) : (s.enterShort p).mem = s.mem := rfl
@[simp] theorem State.enterShort_script (p : Part) (s : State) : (s.enterShort p).script = s.script := rfl
@[simp] theorem State.enterShort_hostData (p : Part) (s : State) : (s.enterShort p).hostData = s.hostData := rfl
@[simp] theorem State.enterShort_refusals (p : Part) (s : State) : (s.enterShort p).refusals = s.refusals := rfl
@[simp] theorem State.enterShort_msgChanged (p : Part) (s : State) : (s.enterShort p).msgChanged = s.msgChanged := rfl
@[simp] theorem State.enterShort_free (p : Part) (s : State) : (s.enterShort p).free = s.free := rfl
@[simp] theorem State.enterShort_cuts (p : Part) (s : State) : (s.enterShort p).cuts = s.cuts := rfl

/-! ### setLong64 -/

@[simp] theorem State.setLong64_cmd (r : Rolling) (pos rem : W64) (p : Phase) (s : State) : (s.setLong64 r pos rem p).cmd = s.cmd := rfl
@[simp] theorem State.setLong64_len (r : Rolling) (pos rem : W64) (p : Phase) (s : State) : (s.setLong64 r pos rem p).len = s.len := rfl
@[simp] theorem State.setLong64_seed0 (r : Rolling) (pos rem : W64) (p : Phase) (s : State) : (s.setLong64 r pos rem p).seed0 = s.seed0 := rfl
@[simp] theorem State.setLong64_seed1 (r : Rolling) (pos rem : W64) (p : Phase) (s : State) : (s.setLong64 r pos rem p).seed1 = s.seed1 := rfl
@[simp] theorem State.setLong64_resLo (r : Rolling) (pos rem : W64) (p : Phase) (s : State) : (s.setLong64 r pos rem p).resLo = s.resLo := rfl
@[simp] theorem State.setLong64_resHi (r : Rolling) (pos rem : W64) (p : Phase) (s : State) : (s.setLong64 r pos rem p).resHi = s.resHi := rfl
@[simp] theorem State.setLong64_status (r : Rolling) (pos rem : W64) (p : Phase) (s : State) : (s.setLong64 r pos rem p).status = s.status := rfl
@[simp] theorem State.setLong64_phase (r : Rolling) (pos rem : W64) (p : Phase) (s : State) : (s.setLong64 r pos rem p).phase = p := rfl
@[simp] theorem State.setLong64_pos (r : Rolling) (pos rem : W64) (p : Phase) (s : State) : (s.setLong64 r pos rem p).pos = pos := rfl
@[simp] theorem State.setLong64_rem (r : Rolling) (pos rem : W64) (p : Phase) (s : State) : (s.setLong64 r pos rem p).rem = rem := rfl
@[simp] theorem State.setLong64_roll (r : Rolling) (pos rem : W64) (p : Phase) (s : State) : (s.setLong64 r pos rem p).roll = r := rfl
@[simp] theorem State.setLong64_acc (r : Rolling) (pos rem : W64) (p : Phase) (s : State) : (s.setLong64 r pos rem p).acc = s.acc := rfl
@[simp] theorem State.setLong64_mem (r : Rolling) (pos rem : W64) (p : Phase) (s : State) : (s.setLong64 r pos rem p).mem = s.mem := rfl
@[simp] theorem State.setLong64_script (r : Rolling) (pos rem : W64) (p : Phase) (s : State) : (s.setLong64 r pos rem p).script = s.script := rfl
@[simp] theorem State.setLong64_hostData (r : Rolling) (pos rem : W64) (p : Phase) (s : State) : (s.setLong64 r pos rem p).hostData = s.hostData := rfl
@[simp] theorem State.setLong64_refusals (r : Rolling) (pos rem : W64) (p : Phase) (s : State) : (s.setLong64 r pos rem p).refusals = s.refusals := rfl
@[simp] theorem State.setLong64_msgChanged (r : Rolling) (pos rem : W64) (p : Phase) (s : State) : (s.setLong64 r pos rem p).msgChanged = s.msgChanged := rfl
@[simp] theorem State.setLong64_free (r : Rolling) (pos rem : W64) (p : Phase) (s : State) : (s.setLong64 r pos rem p).free = s.free := rfl
@[simp] theorem State.setLong64_cuts (r : Rolling) (pos rem : W64) (p : Phase) (s : State) : (s.setLong64 r pos rem p).cuts = s.cuts := rfl

/-! ### setLong32 -/

@[simp] theorem State.setLong32_cmd (a : Acc32) (pos rem : W64) (p : Phase) (s : State) : (s.setLong32 a pos rem p).cmd = s.cmd := rfl
@[simp] theorem State.setLong32_len (a : Acc32) (pos rem : W64) (p : Phase) (s : State) : (s.setLong32 a pos rem p).len = s.len := rfl
@[simp] theorem State.setLong32_seed0 (a : Acc32) (pos rem : W64) (p : Phase) (s : State) : (s.setLong32 a pos rem p).seed0 = s.seed0 := rfl
@[simp] theorem State.setLong32_seed1 (a : Acc32) (pos rem : W64) (p : Phase) (s : State) : (s.setLong32 a pos rem p).seed1 = s.seed1 := rfl
@[simp] theorem State.setLong32_resLo (a : Acc32) (pos rem : W64) (p : Phase) (s : State) : (s.setLong32 a pos rem p).resLo = s.resLo := rfl
@[simp] theorem State.setLong32_resHi (a : Acc32) (pos rem : W64) (p : Phase) (s : State) : (s.setLong32 a pos rem p).resHi = s.resHi := rfl
@[simp] theorem State.setLong32_status (a : Acc32) (pos rem : W64) (p : Phase) (s : State) : (s.setLong32 a pos rem p).status = s.status := rfl
@[simp] theorem State.setLong32_phase (a : Acc32) (pos rem : W64) (p : Phase) (s : State) : (s.setLong32 a pos rem p).phase = p := rfl
@[simp] theorem State.setLong32_pos (a : Acc32) (pos rem : W64) (p : Phase) (s : State) : (s.setLong32 a pos rem p).pos = pos := rfl
@[simp] theorem State.setLong32_rem (a : Acc32) (pos rem : W64) (p : Phase) (s : State) : (s.setLong32 a pos rem p).rem = rem := rfl
@[simp] theorem State.setLong32_roll (a : Acc32) (pos rem : W64) (p : Phase) (s : State) : (s.setLong32 a pos rem p).roll = s.roll := rfl
@[simp] theorem State.setLong32_acc (a : Acc32) (pos rem : W64) (p : Phase) (s : State) : (s.setLong32 a pos rem p).acc = a := rfl
@[simp] theorem State.setLong32_mem (a : Acc32) (pos rem : W64) (p : Phase) (s : State) : (s.setLong32 a pos rem p).mem = s.mem := rfl
@[simp] theorem State.setLong32_script (a : Acc32) (pos rem : W64) (p : Phase) (s : State) : (s.setLong32 a pos rem p).script = s.script := rfl
@[simp] theorem State.setLong32_hostData (a : Acc32) (pos rem : W64) (p : Phase) (s : State) : (s.setLong32 a pos rem p).hostData = s.hostData := rfl
@[simp] theorem State.setLong32_refusals (a : Acc32) (pos rem : W64) (p : Phase) (s : State) : (s.setLong32 a pos rem p).refusals = s.refusals := rfl
@[simp] theorem State.setLong32_msgChanged (a : Acc32) (pos rem : W64) (p : Phase) (s : State) : (s.setLong32 a pos rem p).msgChanged = s.msgChanged := rfl
@[simp] theorem State.setLong32_free (a : Acc32) (pos rem : W64) (p : Phase) (s : State) : (s.setLong32 a pos rem p).free = s.free := rfl
@[simp] theorem State.setLong32_cuts (a : Acc32) (pos rem : W64) (p : Phase) (s : State) : (s.setLong32 a pos rem p).cuts = s.cuts := rfl

/-! ### finish -/

@[simp] theorem State.finish_cmd (r : Pair) (s : State) : (s.finish r).cmd = s.cmd := rfl
@[simp] theorem State.finish_len (r : Pair) (s : State) : (s.finish r).len = s.len := rfl
@[simp] theorem State.finish_seed0 (r : Pair) (s : State) : (s.finish r).seed0 = s.seed0 := rfl
@[simp] theorem State.finish_seed1 (r : Pair) (s : State) : (s.finish r).seed1 = s.seed1 := rfl
@[simp] theorem State.finish_resLo (r : Pair) (s : State) : (s.finish r).resLo = r.lo := rfl
@[simp] theorem State.finish_resHi (r : Pair) (s : State) : (s.finish r).resHi = r.hi := rfl
@[simp] theorem State.finish_status (r : Pair) (s : State) : (s.finish r).status = .done := rfl
@[simp] theorem State.finish_phase (r : Pair) (s : State) : (s.finish r).phase = .idle := rfl
@[simp] theorem State.finish_mem (r : Pair) (s : State) : (s.finish r).mem = s.mem := rfl
@[simp] theorem State.finish_script (r : Pair) (s : State) : (s.finish r).script = s.script := rfl
@[simp] theorem State.finish_hostData (r : Pair) (s : State) : (s.finish r).hostData = s.hostData := rfl
@[simp] theorem State.finish_refusals (r : Pair) (s : State) : (s.finish r).refusals = s.refusals := rfl
@[simp] theorem State.finish_msgChanged (r : Pair) (s : State) : (s.finish r).msgChanged = false := rfl
@[simp] theorem State.finish_free (r : Pair) (s : State) : (s.finish r).free = s.free + 12 := rfl
@[simp] theorem State.finish_cuts (r : Pair) (s : State) : (s.finish r).cuts = s.cuts := rfl

/-! ### popScript -/

@[simp] theorem State.popScript_cmd (rest : List HostMove) (s : State) : (s.popScript rest).cmd = s.cmd := rfl
@[simp] theorem State.popScript_len (rest : List HostMove) (s : State) : (s.popScript rest).len = s.len := rfl
@[simp] theorem State.popScript_seed0 (rest : List HostMove) (s : State) : (s.popScript rest).seed0 = s.seed0 := rfl
@[simp] theorem State.popScript_seed1 (rest : List HostMove) (s : State) : (s.popScript rest).seed1 = s.seed1 := rfl
@[simp] theorem State.popScript_resLo (rest : List HostMove) (s : State) : (s.popScript rest).resLo = s.resLo := rfl
@[simp] theorem State.popScript_resHi (rest : List HostMove) (s : State) : (s.popScript rest).resHi = s.resHi := rfl
@[simp] theorem State.popScript_status (rest : List HostMove) (s : State) : (s.popScript rest).status = s.status := rfl
@[simp] theorem State.popScript_phase (rest : List HostMove) (s : State) : (s.popScript rest).phase = s.phase := rfl
@[simp] theorem State.popScript_pos (rest : List HostMove) (s : State) : (s.popScript rest).pos = s.pos := rfl
@[simp] theorem State.popScript_rem (rest : List HostMove) (s : State) : (s.popScript rest).rem = s.rem := rfl
@[simp] theorem State.popScript_roll (rest : List HostMove) (s : State) : (s.popScript rest).roll = s.roll := rfl
@[simp] theorem State.popScript_acc (rest : List HostMove) (s : State) : (s.popScript rest).acc = s.acc := rfl
@[simp] theorem State.popScript_mem (rest : List HostMove) (s : State) : (s.popScript rest).mem = s.mem := rfl
@[simp] theorem State.popScript_script (rest : List HostMove) (s : State) : (s.popScript rest).script = rest := rfl
@[simp] theorem State.popScript_hostData (rest : List HostMove) (s : State) : (s.popScript rest).hostData = s.hostData := rfl
@[simp] theorem State.popScript_refusals (rest : List HostMove) (s : State) : (s.popScript rest).refusals = s.refusals := rfl
@[simp] theorem State.popScript_msgChanged (rest : List HostMove) (s : State) : (s.popScript rest).msgChanged = s.msgChanged := rfl
@[simp] theorem State.popScript_free (rest : List HostMove) (s : State) : (s.popScript rest).free = s.free := rfl
@[simp] theorem State.popScript_cuts (rest : List HostMove) (s : State) : (s.popScript rest).cuts = s.cuts := rfl

/-! ### refuse -/

@[simp] theorem State.refuse_cmd (s : State) : s.refuse.cmd = s.cmd := rfl
@[simp] theorem State.refuse_len (s : State) : s.refuse.len = s.len := rfl
@[simp] theorem State.refuse_seed0 (s : State) : s.refuse.seed0 = s.seed0 := rfl
@[simp] theorem State.refuse_seed1 (s : State) : s.refuse.seed1 = s.seed1 := rfl
@[simp] theorem State.refuse_resLo (s : State) : s.refuse.resLo = s.resLo := rfl
@[simp] theorem State.refuse_resHi (s : State) : s.refuse.resHi = s.resHi := rfl
@[simp] theorem State.refuse_status (s : State) : s.refuse.status = s.status := rfl
@[simp] theorem State.refuse_phase (s : State) : s.refuse.phase = s.phase := rfl
@[simp] theorem State.refuse_pos (s : State) : s.refuse.pos = s.pos := rfl
@[simp] theorem State.refuse_rem (s : State) : s.refuse.rem = s.rem := rfl
@[simp] theorem State.refuse_roll (s : State) : s.refuse.roll = s.roll := rfl
@[simp] theorem State.refuse_acc (s : State) : s.refuse.acc = s.acc := rfl
@[simp] theorem State.refuse_mem (s : State) : s.refuse.mem = s.mem := rfl
@[simp] theorem State.refuse_script (s : State) : s.refuse.script = s.script := rfl
@[simp] theorem State.refuse_hostData (s : State) : s.refuse.hostData = s.hostData := rfl
@[simp] theorem State.refuse_refusals (s : State) : s.refuse.refusals = s.refusals + 1 := rfl
@[simp] theorem State.refuse_msgChanged (s : State) : s.refuse.msgChanged = s.msgChanged := rfl
@[simp] theorem State.refuse_free (s : State) : s.refuse.free = s.free := rfl
@[simp] theorem State.refuse_cuts (s : State) : s.refuse.cuts = s.cuts := rfl

/-! ### complete -/

theorem State.complete_of_unchanged (r : Pair) (s : State) (h : s.msgChanged = false) :
    s.complete r = s.finish r := by simp [State.complete, h]

theorem State.complete_of_changed (r : Pair) (s : State) (h : s.msgChanged = true) :
    s.complete r = { s.finish r with
      resLo := Config.freeWord (s.free + 12)
      resHi := Config.freeWord (s.free + 13)
      free := s.free + 14 } := by simp [State.complete, h]

@[simp] theorem State.complete_cmd (r : Pair) (s : State) : (s.complete r).cmd = s.cmd := by
  by_cases h : s.msgChanged = true <;> simp [State.complete, h]
@[simp] theorem State.complete_len (r : Pair) (s : State) : (s.complete r).len = s.len := by
  by_cases h : s.msgChanged = true <;> simp [State.complete, h]
@[simp] theorem State.complete_seed0 (r : Pair) (s : State) : (s.complete r).seed0 = s.seed0 := by
  by_cases h : s.msgChanged = true <;> simp [State.complete, h]
@[simp] theorem State.complete_seed1 (r : Pair) (s : State) : (s.complete r).seed1 = s.seed1 := by
  by_cases h : s.msgChanged = true <;> simp [State.complete, h]
@[simp] theorem State.complete_status (r : Pair) (s : State) : (s.complete r).status = .done := by
  by_cases h : s.msgChanged = true <;> simp [State.complete, h]
@[simp] theorem State.complete_phase (r : Pair) (s : State) : (s.complete r).phase = .idle := by
  by_cases h : s.msgChanged = true <;> simp [State.complete, h]
@[simp] theorem State.complete_mem (r : Pair) (s : State) : (s.complete r).mem = s.mem := by
  by_cases h : s.msgChanged = true <;> simp [State.complete, h]
@[simp] theorem State.complete_script (r : Pair) (s : State) : (s.complete r).script = s.script := by
  by_cases h : s.msgChanged = true <;> simp [State.complete, h]
@[simp] theorem State.complete_hostData (r : Pair) (s : State) : (s.complete r).hostData = s.hostData := by
  by_cases h : s.msgChanged = true <;> simp [State.complete, h]
@[simp] theorem State.complete_refusals (r : Pair) (s : State) : (s.complete r).refusals = s.refusals := by
  by_cases h : s.msgChanged = true <;> simp [State.complete, h]
@[simp] theorem State.complete_msgChanged (r : Pair) (s : State) : (s.complete r).msgChanged = false := by
  by_cases h : s.msgChanged = true <;> simp [State.complete, h]
@[simp] theorem State.complete_cuts (r : Pair) (s : State) : (s.complete r).cuts = s.cuts := by
  by_cases h : s.msgChanged = true <;> simp [State.complete, h]

/-! ### deliver -/

@[simp] theorem State.deliver_cmd (v : W64) (s : State) : (s.deliver v).cmd = s.cmd := rfl
@[simp] theorem State.deliver_len (v : W64) (s : State) : (s.deliver v).len = s.len := rfl
@[simp] theorem State.deliver_seed0 (v : W64) (s : State) : (s.deliver v).seed0 = s.seed0 := rfl
@[simp] theorem State.deliver_seed1 (v : W64) (s : State) : (s.deliver v).seed1 = s.seed1 := rfl
@[simp] theorem State.deliver_resLo (v : W64) (s : State) : (s.deliver v).resLo = s.resLo := rfl
@[simp] theorem State.deliver_resHi (v : W64) (s : State) : (s.deliver v).resHi = s.resHi := rfl
@[simp] theorem State.deliver_status (v : W64) (s : State) : (s.deliver v).status = s.status := rfl
@[simp] theorem State.deliver_phase (v : W64) (s : State) : (s.deliver v).phase = s.phase := rfl
@[simp] theorem State.deliver_pos (v : W64) (s : State) : (s.deliver v).pos = s.pos := rfl
@[simp] theorem State.deliver_rem (v : W64) (s : State) : (s.deliver v).rem = s.rem := rfl
@[simp] theorem State.deliver_roll (v : W64) (s : State) : (s.deliver v).roll = s.roll := rfl
@[simp] theorem State.deliver_acc (v : W64) (s : State) : (s.deliver v).acc = s.acc := rfl
@[simp] theorem State.deliver_mem (v : W64) (s : State) : (s.deliver v).mem = s.mem := rfl
@[simp] theorem State.deliver_script (v : W64) (s : State) : (s.deliver v).script = s.script := rfl
@[simp] theorem State.deliver_hostData (v : W64) (s : State) : (s.deliver v).hostData = v := rfl
@[simp] theorem State.deliver_refusals (v : W64) (s : State) : (s.deliver v).refusals = s.refusals := rfl
@[simp] theorem State.deliver_msgChanged (v : W64) (s : State) : (s.deliver v).msgChanged = s.msgChanged := rfl
@[simp] theorem State.deliver_free (v : W64) (s : State) : (s.deliver v).free = s.free := rfl
@[simp] theorem State.deliver_cuts (v : W64) (s : State) : (s.deliver v).cuts = s.cuts := rfl

/-! ### hostPlace and hostReset -/

@[simp] theorem hostPlace_cmd (off : Nat) (bytes : List Byte) (s : State) : (hostPlace off bytes s).cmd = s.cmd := rfl
@[simp] theorem hostPlace_len (off : Nat) (bytes : List Byte) (s : State) : (hostPlace off bytes s).len = s.len := rfl
@[simp] theorem hostPlace_seed0 (off : Nat) (bytes : List Byte) (s : State) : (hostPlace off bytes s).seed0 = s.seed0 := rfl
@[simp] theorem hostPlace_seed1 (off : Nat) (bytes : List Byte) (s : State) : (hostPlace off bytes s).seed1 = s.seed1 := rfl
@[simp] theorem hostPlace_resLo (off : Nat) (bytes : List Byte) (s : State) : (hostPlace off bytes s).resLo = s.resLo := rfl
@[simp] theorem hostPlace_resHi (off : Nat) (bytes : List Byte) (s : State) : (hostPlace off bytes s).resHi = s.resHi := rfl
@[simp] theorem hostPlace_status (off : Nat) (bytes : List Byte) (s : State) : (hostPlace off bytes s).status = s.status := rfl
@[simp] theorem hostPlace_phase (off : Nat) (bytes : List Byte) (s : State) : (hostPlace off bytes s).phase = s.phase := rfl
@[simp] theorem hostPlace_pos (off : Nat) (bytes : List Byte) (s : State) : (hostPlace off bytes s).pos = s.pos := rfl
@[simp] theorem hostPlace_rem (off : Nat) (bytes : List Byte) (s : State) : (hostPlace off bytes s).rem = s.rem := rfl
@[simp] theorem hostPlace_roll (off : Nat) (bytes : List Byte) (s : State) : (hostPlace off bytes s).roll = s.roll := rfl
@[simp] theorem hostPlace_acc (off : Nat) (bytes : List Byte) (s : State) : (hostPlace off bytes s).acc = s.acc := rfl
@[simp] theorem hostPlace_script (off : Nat) (bytes : List Byte) (s : State) : (hostPlace off bytes s).script = s.script := rfl
@[simp] theorem hostPlace_hostData (off : Nat) (bytes : List Byte) (s : State) : (hostPlace off bytes s).hostData = s.hostData := rfl
@[simp] theorem hostPlace_refusals (off : Nat) (bytes : List Byte) (s : State) : (hostPlace off bytes s).refusals = s.refusals := rfl
@[simp] theorem hostPlace_free (off : Nat) (bytes : List Byte) (s : State) : (hostPlace off bytes s).free = s.free := rfl
@[simp] theorem hostPlace_cuts (off : Nat) (bytes : List Byte) (s : State) : (hostPlace off bytes s).cuts = s.cuts := rfl
@[simp] theorem hostPlace_mem (off : Nat) (bytes : List Byte) (s : State) :
    (hostPlace off bytes s).mem = Memory.place s.mem off bytes := rfl

@[simp] theorem hostReset_cmd (s : State) : (hostReset s).cmd = State.reset.cmd := rfl
@[simp] theorem hostReset_len (s : State) : (hostReset s).len = State.reset.len := rfl
@[simp] theorem hostReset_seed0 (s : State) : (hostReset s).seed0 = State.reset.seed0 := rfl
@[simp] theorem hostReset_seed1 (s : State) : (hostReset s).seed1 = State.reset.seed1 := rfl
@[simp] theorem hostReset_resLo (s : State) : (hostReset s).resLo = State.reset.resLo := rfl
@[simp] theorem hostReset_resHi (s : State) : (hostReset s).resHi = State.reset.resHi := rfl
@[simp] theorem hostReset_status (s : State) : (hostReset s).status = State.reset.status := rfl
@[simp] theorem hostReset_phase (s : State) : (hostReset s).phase = State.reset.phase := rfl
@[simp] theorem hostReset_pos (s : State) : (hostReset s).pos = State.reset.pos := rfl
@[simp] theorem hostReset_rem (s : State) : (hostReset s).rem = State.reset.rem := rfl
@[simp] theorem hostReset_roll (s : State) : (hostReset s).roll = State.reset.roll := rfl
@[simp] theorem hostReset_acc (s : State) : (hostReset s).acc = State.reset.acc := rfl
@[simp] theorem hostReset_mem (s : State) : (hostReset s).mem = s.mem := rfl
@[simp] theorem hostReset_script (s : State) : (hostReset s).script = s.script := rfl
@[simp] theorem hostReset_hostData (s : State) : (hostReset s).hostData = s.hostData := rfl
@[simp] theorem hostReset_refusals (s : State) : (hostReset s).refusals = State.reset.refusals := rfl
@[simp] theorem hostReset_msgChanged (s : State) : (hostReset s).msgChanged = State.reset.msgChanged := rfl
@[simp] theorem hostReset_free (s : State) : (hostReset s).free = s.free := rfl
@[simp] theorem hostReset_cuts (s : State) : (hostReset s).cuts = s.cuts := rfl

@[simp] theorem State.reset_status : State.reset.status = .idle := rfl
@[simp] theorem State.reset_phase : State.reset.phase = .idle := rfl
@[simp] theorem State.reset_msgChanged : State.reset.msgChanged = false := rfl
@[simp] theorem State.reset_mem : State.reset.mem = [] := rfl

/-! ### hostWrite -/

@[simp] theorem hostWrite_resLo (reg : HostReg) (v : W64) (s : State) : (hostWrite reg v s).resLo = s.resLo := by
  cases reg <;> (unfold hostWrite; split <;> rfl)
@[simp] theorem hostWrite_resHi (reg : HostReg) (v : W64) (s : State) : (hostWrite reg v s).resHi = s.resHi := by
  cases reg <;> (unfold hostWrite; split <;> rfl)
@[simp] theorem hostWrite_status (reg : HostReg) (v : W64) (s : State) : (hostWrite reg v s).status = s.status := by
  cases reg <;> (unfold hostWrite; split <;> rfl)
@[simp] theorem hostWrite_phase (reg : HostReg) (v : W64) (s : State) : (hostWrite reg v s).phase = s.phase := by
  cases reg <;> (unfold hostWrite; split <;> rfl)
@[simp] theorem hostWrite_pos (reg : HostReg) (v : W64) (s : State) : (hostWrite reg v s).pos = s.pos := by
  cases reg <;> (unfold hostWrite; split <;> rfl)
@[simp] theorem hostWrite_rem (reg : HostReg) (v : W64) (s : State) : (hostWrite reg v s).rem = s.rem := by
  cases reg <;> (unfold hostWrite; split <;> rfl)
@[simp] theorem hostWrite_roll (reg : HostReg) (v : W64) (s : State) : (hostWrite reg v s).roll = s.roll := by
  cases reg <;> (unfold hostWrite; split <;> rfl)
@[simp] theorem hostWrite_acc (reg : HostReg) (v : W64) (s : State) : (hostWrite reg v s).acc = s.acc := by
  cases reg <;> (unfold hostWrite; split <;> rfl)
@[simp] theorem hostWrite_mem (reg : HostReg) (v : W64) (s : State) : (hostWrite reg v s).mem = s.mem := by
  cases reg <;> (unfold hostWrite; split <;> rfl)
@[simp] theorem hostWrite_script (reg : HostReg) (v : W64) (s : State) : (hostWrite reg v s).script = s.script := by
  cases reg <;> (unfold hostWrite; split <;> rfl)
@[simp] theorem hostWrite_hostData (reg : HostReg) (v : W64) (s : State) : (hostWrite reg v s).hostData = s.hostData := by
  cases reg <;> (unfold hostWrite; split <;> rfl)
@[simp] theorem hostWrite_refusals (reg : HostReg) (v : W64) (s : State) : (hostWrite reg v s).refusals = s.refusals := by
  cases reg <;> (unfold hostWrite; split <;> rfl)
@[simp] theorem hostWrite_msgChanged (reg : HostReg) (v : W64) (s : State) : (hostWrite reg v s).msgChanged = s.msgChanged := by
  cases reg <;> (unfold hostWrite; split <;> rfl)
@[simp] theorem hostWrite_free (reg : HostReg) (v : W64) (s : State) : (hostWrite reg v s).free = s.free := by
  cases reg <;> (unfold hostWrite; split <;> rfl)
@[simp] theorem hostWrite_cuts (reg : HostReg) (v : W64) (s : State) : (hostWrite reg v s).cuts = s.cuts := by
  cases reg <;> (unfold hostWrite; split <;> rfl)

theorem hostWrite_of_busy (reg : HostReg) (v : W64) (s : State) (h : s.status = .busy) :
    hostWrite reg v s = s := by simp [hostWrite, h]

/-! ### The message of a state -/

@[simp] theorem State.msg_len (s : State) : s.msg.len = s.len.toNat := rfl
@[simp] theorem State.msg_mem (s : State) : s.msg.mem = s.mem := rfl
@[simp] theorem State.launch_msg (s : State) : s.launch.msg = s.msg := rfl
@[simp] theorem State.enterShort_msg (p : Part) (s : State) : (s.enterShort p).msg = s.msg := rfl
@[simp] theorem State.setLong64_msg (r : Rolling) (pos rem : W64) (p : Phase) (s : State) : (s.setLong64 r pos rem p).msg = s.msg := rfl
@[simp] theorem State.setLong32_msg (a : Acc32) (pos rem : W64) (p : Phase) (s : State) : (s.setLong32 a pos rem p).msg = s.msg := rfl
@[simp] theorem State.finish_msg (r : Pair) (s : State) : (s.finish r).msg = s.msg := rfl
@[simp] theorem State.popScript_msg (rest : List HostMove) (s : State) : (s.popScript rest).msg = s.msg := rfl
@[simp] theorem State.refuse_msg (s : State) : s.refuse.msg = s.msg := rfl
@[simp] theorem State.complete_msg (r : Pair) (s : State) : (s.complete r).msg = s.msg := by
  simp [State.msg]

end Sys2Proof.Machine
end

