-- ==== Sys2Proof/Laws/Memory.lean ====
section
/-! SUPPORT. The message space: read after write, the canonical form is kept by every memory operation, and
what a read can answer. -/

namespace Sys2Proof.Machine

/-! ### Read after write -/

theorem Memory.find_set (m : Memory) (a : Nat) (b : Byte) (x : Nat) :
    Memory.find (Memory.set m a b) x = if x = a then some b else Memory.find m x := by
  induction m with
  | nil => by_cases h : x = a <;> simp [Memory.set, Memory.find, h, Ne.symm]
  | cons cell rest ih =>
    simp only [Memory.set]
    split
    · by_cases h : x = a
      · simp [Memory.find, h]
      · simp [Memory.find, h, Ne.symm h]
    · split
      · rename_i h; subst h
        by_cases h : x = cell.1
        · simp [Memory.find, h]
        · simp [Memory.find, h, Ne.symm h]
      · rename_i h1 h2
        by_cases h : x = a
        · subst h; simp [Memory.find, Ne.symm h2, ih]
        · simp [Memory.find, ih, h]

theorem Memory.find_place (m : Memory) (off : Nat) (bytes : List Byte) (a : Nat) :
    Memory.find (Memory.place m off bytes) a =
      if off ≤ a ∧ a < off + bytes.length then bytes[a - off]? else Memory.find m a := by
  induction bytes generalizing m off with
  | nil => rw [if_neg (by simp)]; rfl
  | cons b bs ih =>
    rw [Memory.place, ih, Memory.find_set]
    by_cases h1 : a = off
    · subst h1; simp
    · by_cases h2 : off + 1 ≤ a ∧ a < off + 1 + bs.length
      · have : off ≤ a ∧ a < off + (b :: bs).length := by simp; omega
        rw [if_pos h2, if_pos this]
        obtain ⟨k, rfl⟩ : ∃ k, a = off + 1 + k := ⟨a - (off + 1), by omega⟩
        rw [show off + 1 + k - off = k + 1 by omega, show off + 1 + k - (off + 1) = k by omega]
        simp
      · have : ¬ (off ≤ a ∧ a < off + (b :: bs).length) := by simp; omega
        rw [if_neg h2, if_neg this, if_neg h1]

/-! ### The canonical form -/

theorem Memory.risesFrom_mono {lo lo' : Nat} (m : Memory) (h : lo ≤ lo')
    (hm : Memory.risesFrom lo' m = true) : Memory.risesFrom lo m = true := by
  cases m with
  | nil => rfl
  | cons cell rest => simp [Memory.risesFrom] at hm ⊢; exact ⟨by omega, hm.2⟩

theorem Memory.risesFrom_set (lo : Nat) (m : Memory) (a : Nat) (b : Byte) (hlo : lo ≤ a)
    (hm : Memory.risesFrom lo m = true) : Memory.risesFrom lo (Memory.set m a b) = true := by
  induction m generalizing lo with
  | nil => simp [Memory.set, Memory.risesFrom, hlo]
  | cons cell rest ih =>
    simp only [Memory.risesFrom, Bool.and_eq_true, decide_eq_true_eq] at hm
    simp only [Memory.set]
    split
    · simp [Memory.risesFrom, hlo]; exact ⟨by omega, hm.2⟩
    · split
      · rename_i h; subst h; simp [Memory.risesFrom, hm]
      · simp only [Memory.risesFrom, Bool.and_eq_true, decide_eq_true_eq]
        exact ⟨hm.1, ih _ (by omega) hm.2⟩

/-- Placing a byte keeps the canonical form. -/
theorem Memory.wf_set (m : Memory) (a : Nat) (b : Byte) (h : Memory.wf m = true) :
    Memory.wf (Memory.set m a b) = true := Memory.risesFrom_set 0 m a b (Nat.zero_le _) h

/-- Placing a run of bytes keeps the canonical form. -/
theorem Memory.wf_place (m : Memory) (off : Nat) (bytes : List Byte) (h : Memory.wf m = true) :
    Memory.wf (Memory.place m off bytes) = true := by
  induction bytes generalizing m off with
  | nil => exact h
  | cons b bs ih => exact ih _ _ (Memory.wf_set m off b h)

/-- The memory of the reset state is canonical. -/
theorem Memory.wf_reset : Memory.wf State.reset.mem = true := rfl

/-- In a canonical memory two listings of the same bytes are the same list. -/
theorem Memory.find_below {lo : Nat} {m : Memory} (h : Memory.risesFrom lo m = true) {a : Nat}
    (ha : a < lo) : Memory.find m a = none := by
  induction m generalizing lo with
  | nil => rfl
  | cons cell rest ih =>
    simp only [Memory.risesFrom, Bool.and_eq_true, decide_eq_true_eq] at h
    have : cell.1 ≠ a := by omega
    simp [Memory.find, this, ih h.2 (by omega)]

/-! ### What a read answers -/

/-- Everything a byte run can answer: its value, or a stop on a byte that is not placed. -/
theorem readBytes_error {rule : Nat} {m : Memory} {off n : Nat} {f : Fault}
    (h : readBytes rule m off n = .error f) :
    ∃ a, f = .unplaced rule a ∧ off ≤ a ∧ a < off + n ∧ Memory.find m a = none := by
  induction n generalizing off with
  | zero => simp [readBytes] at h
  | succ n ih =>
    rw [readBytes] at h
    split at h
    · rename_i hf
      simp only [Except.error.injEq] at h
      exact ⟨off, h.symm, le_refl _, by omega, hf⟩
    · split at h
      · rename_i g hg
        simp only [Except.error.injEq] at h
        subst h
        obtain ⟨a, h1, h2, h3, h4⟩ := ih hg
        exact ⟨a, h1, by omega, by omega, h4⟩
      · simp at h

/-- A read inside the message fails only on a byte of the message that is not placed. -/
theorem memRead_error {rule : Nat} {m : Msg} {off n : Nat} {f : Fault} (hin : off + n ≤ m.len)
    (h : memRead rule m off n = .error f) :
    ∃ a, f = .unplaced rule a ∧ a < m.len ∧ Memory.find m.mem a = none := by
  rw [memRead, if_pos hin] at h
  obtain ⟨a, h1, _, h3, h4⟩ := readBytes_error h
  exact ⟨a, h1, by omega, h4⟩

/-- A read outside the message names its rule. -/
theorem memRead_outside {rule : Nat} {m : Msg} {off n : Nat} (h : m.len < off + n) :
    memRead rule m off n = .error (.outsideMessage rule off n) := by
  rw [memRead, if_neg (by omega)]

/-- A read depends on the bytes of the message only. -/
theorem readBytes_congr {m m' : Memory} {len : Nat}
    (h : ∀ a, a < len → Memory.find m a = Memory.find m' a) (rule off n : Nat)
    (hin : off + n ≤ len) : readBytes rule m off n = readBytes rule m' off n := by
  induction n generalizing off with
  | zero => rfl
  | succ n ih => rw [readBytes, readBytes, h off (by omega), ih (off + 1) (by omega)]

theorem memRead_congr {m m' : Msg} (h : m.Same m') (rule off n : Nat) :
    memRead rule m off n = memRead rule m' off n := by
  unfold memRead
  rw [← h.1]
  split
  · exact readBytes_congr h.2 rule off n (by assumption)
  · rfl

/-- Placing bytes changes the message exactly when one of them, below the length, differs from the byte there
(R48). -/
theorem Memory.changes_iff (m : Memory) (len off : Nat) (bytes : List Byte) :
    Memory.changes m len off bytes = true ↔
      ∃ k, k < bytes.length ∧ off + k < len ∧ Memory.find m (off + k) ≠ bytes[k]? := by
  induction bytes generalizing off with
  | nil => simp [Memory.changes]
  | cons b bs ih =>
    simp only [Memory.changes, Bool.or_eq_true, Bool.and_eq_true, decide_eq_true_eq, ih]
    constructor
    · rintro (⟨h1, h2⟩ | ⟨k, h1, h2, h3⟩)
      · exact ⟨0, by simp, h1, by simpa using h2⟩
      · refine ⟨k + 1, by simpa using h1, by omega, ?_⟩
        rw [show off + (k + 1) = off + 1 + k by omega]
        simpa using h3
    · rintro ⟨k, h1, h2, h3⟩
      cases k with
      | zero => exact .inl ⟨h2, by simpa using h3⟩
      | succ k =>
        refine .inr ⟨k, by simpa using h1, by omega, ?_⟩
        rw [show off + (k + 1) = off + 1 + k by omega] at h3
        simpa using h3

/-- Placing only bytes that are there already, or beyond the length, changes nothing of the message (R48). -/
theorem Memory.changes_eq_false {m : Memory} {len off : Nat} {bytes : List Byte}
    (h : ∀ k, k < bytes.length → off + k < len → Memory.find m (off + k) = bytes[k]?) :
    Memory.changes m len off bytes = false := by
  rw [← Bool.not_eq_true, Memory.changes_iff]
  rintro ⟨k, h1, h2, h3⟩
  exact h3 (h k h1 h2)

end Sys2Proof.Machine
end

