-- ==== Sys2Proof/Laws/Loads.lean ====
section
/-! SUPPORT. The three loads: their value on a message with known bytes, what stops them, and that they see
nothing but the message. -/

namespace Sys2Proof.Machine

/-! ### Stops only on unplaced bytes -/

/-- `e` stops, if at all, on a byte of the message `m` that is not placed. -/
def StopsUnplaced {α : Type} (m : Msg) (e : Except Fault α) : Prop :=
  ∀ f, e = .error f → ∃ rule a, f = .unplaced rule a ∧ a < m.len ∧ Memory.find m.mem a = none

theorem StopsUnplaced.ok {α : Type} {m : Msg} (a : α) : StopsUnplaced m (.ok a) := by
  intro f h; cases h

theorem StopsUnplaced.bind {α β : Type} {m : Msg} {e : Except Fault α} {k : α → Except Fault β}
    (he : StopsUnplaced m e) (hk : ∀ a, StopsUnplaced m (k a)) : StopsUnplaced m (e >>= k) := by
  cases e with
  | ok a => exact hk a
  | error f => intro g h; exact he g (by cases h; rfl)

theorem StopsUnplaced.ite {α : Type} {m : Msg} {c : Prop} [Decidable c] {a b : Except Fault α}
    (ha : c → StopsUnplaced m a) (hb : ¬ c → StopsUnplaced m b) :
    StopsUnplaced m (if c then a else b) := by
  split
  · exact ha ‹_›
  · exact hb ‹_›

/-- On a placed message such a computation answers a value. -/
theorem StopsUnplaced.total {α : Type} {m : Msg} {e : Except Fault α} (h : StopsUnplaced m e)
    (hp : m.Placed) : ∃ a, e = .ok a := by
  cases e with
  | ok a => exact ⟨a, rfl⟩
  | error f =>
    obtain ⟨_, a, _, ha, hn⟩ := h f rfl
    have := hp a ha
    simp [hn] at this

theorem le32_stops (rule : Nat) {m : Msg} {off : Nat} (h : off + 4 ≤ m.len) :
    StopsUnplaced m (le32 rule m off) := by
  intro f hf
  unfold le32 at hf
  split at hf
  · cases hf
  · rename_i g hg
    obtain ⟨a, h1, h2, h3⟩ := memRead_error h hg
    cases hf
    exact ⟨rule, a, h1, h2, h3⟩

theorem le64_stops (rule : Nat) {m : Msg} {off : Nat} (h : off + 8 ≤ m.len) :
    StopsUnplaced m (le64 rule m off) := by
  intro f hf
  unfold le64 at hf
  split at hf
  · cases hf
  · rename_i g hg
    obtain ⟨a, h1, h2, h3⟩ := memRead_error h hg
    cases hf
    exact ⟨rule, a, h1, h2, h3⟩

theorem byteAt_stops (rule : Nat) {m : Msg} {off : Nat} (h : off + 1 ≤ m.len) :
    StopsUnplaced m (byteAt rule m off) := by
  intro f hf
  unfold byteAt at hf
  split at hf
  · cases hf
  · rename_i g hg
    obtain ⟨a, h1, h2, h3⟩ := memRead_error h hg
    cases hf
    exact ⟨rule, a, h1, h2, h3⟩

/-! ### Only the message is seen -/

theorem le32_congr {m m' : Msg} (h : m.Same m') (rule : Nat) : le32 rule m = le32 rule m' := by
  funext off; simp only [le32, memRead_congr h]

theorem le64_congr {m m' : Msg} (h : m.Same m') (rule : Nat) : le64 rule m = le64 rule m' := by
  funext off; simp only [le64, memRead_congr h]

theorem byteAt_congr {m m' : Msg} (h : m.Same m') (rule : Nat) : byteAt rule m = byteAt rule m' := by
  funext off; simp only [byteAt, memRead_congr h]

/-! ### Values -/

theorem Msg.Bytes.placed {m : Msg} {b : Nat → Byte} (h : m.Bytes b) : m.Placed := by
  intro off hoff; simp [h off hoff]

theorem Msg.Placed.bytes {m : Msg} (h : m.Placed) : ∃ b, m.Bytes b := by
  refine ⟨fun off => (Memory.find m.mem off).getD 0#8, fun off hoff => ?_⟩
  obtain ⟨b, hb⟩ := Option.isSome_iff_exists.mp (h off hoff)
  show Memory.find m.mem off = some ((Memory.find m.mem off).getD 0#8)
  rw [hb]
  rfl

/-- The value of a run of `n` known bytes, least significant first. -/
theorem readBytes_bytes {m : Memory} {b : Nat → Byte} {rule off n : Nat}
    (h : ∀ a, off ≤ a → a < off + n → Memory.find m a = some (b a)) :
    readBytes rule m off n =
      .ok ((List.range n).foldr (fun i v => (b (off + i)).toNat + 256 * v) 0) := by
  induction n generalizing off with
  | zero => rfl
  | succ n ih =>
    rw [readBytes, h off (le_refl _) (by omega), ih (fun a h1 h2 => h a (by omega) (by omega))]
    simp only [List.range_succ_eq_map, List.foldr_cons, List.foldr_map, Nat.add_zero]
    simp only [Nat.succ_eq_add_one, Nat.add_assoc, Nat.add_comm 1]

theorem byteAt_bytes {m : Msg} {b : Nat → Byte} (hb : m.Bytes b) (rule : Nat) {off : Nat}
    (h : off + 1 ≤ m.len) : byteAt rule m off = .ok (b off) := by
  unfold byteAt memRead
  rw [if_pos h, readBytes_bytes (fun a h1 h2 => hb a (by omega))]
  simp [List.range, List.range.loop]

/-- The bits of a value with one more low byte. -/
theorem getLsbD_append_byte {n : Nat} (x : BitVec n) (y : Byte) (k : Nat) :
    (x ++ y).getLsbD k = if k < 8 then y.getLsbD k else x.getLsbD (k - 8) :=
  BitVec.getLsbD_append

/-- One more low byte. -/
theorem toNat_append_byte {w : Nat} (x : BitVec w) (y : Byte) :
    (x ++ y).toNat = y.toNat + 256 * x.toNat := by
  rw [BitVec.toNat_append, ← Nat.shiftLeft_add_eq_or_of_lt y.isLt, Nat.shiftLeft_eq]
  omega

theorem le32_bytes {m : Msg} {b : Nat → Byte} (hb : m.Bytes b) (rule : Nat) {off : Nat}
    (h : off + 4 ≤ m.len) : le32 rule m off = .ok (word32At b off) := by
  unfold le32 memRead
  rw [if_pos h, readBytes_bytes (fun a h1 h2 => hb a (by omega))]
  have hv : (List.range 4).foldr (fun i v => (b (off + i)).toNat + 256 * v) 0 =
      (word32At b off).toNat := by
    simp only [word32At, toNat_append_byte]
    simp only [List.range, List.range.loop, List.foldr, Nat.add_zero, Nat.mul_zero]
  rw [hv]
  simp

theorem le64_bytes {m : Msg} {b : Nat → Byte} (hb : m.Bytes b) (rule : Nat) {off : Nat}
    (h : off + 8 ≤ m.len) : le64 rule m off = .ok (word64At b off) := by
  unfold le64 memRead
  rw [if_pos h, readBytes_bytes (fun a h1 h2 => hb a (by omega))]
  have hv : (List.range 8).foldr (fun i v => (b (off + i)).toNat + 256 * v) 0 =
      (word64At b off).toNat := by
    simp only [word64At, toNat_append_byte]
    simp only [List.range, List.range.loop, List.foldr, Nat.add_zero, Nat.mul_zero]
  rw [hv]
  simp

/-! ### The length as a value (R63) -/

theorem word64_len (s : State) : word64 s.len.toNat = s.len := by simp [word64]

theorem trunc32_len (s : State) : trunc32 s.len.toNat = s.len.setWidth 32 := by
  apply BitVec.eq_of_toNat_eq
  simp [trunc32]

/-! ### The four loads of `weakHash32At` (R91) -/

theorem weakHash32At_bytes {m : Msg} {b : Nat → Byte} (hb : m.Bytes b) (rule : Nat) {off : Nat}
    (h : off + 32 ≤ m.len) (x y : W64) :
    weakHash32At rule m off x y =
      .ok (weakHash32 (word64At b off) (word64At b (off + 8)) (word64At b (off + 16))
        (word64At b (off + 24)) x y) := by
  rw [weakHash32At, le64_bytes hb rule (by omega), le64_bytes hb rule (by omega),
    le64_bytes hb rule (by omega), le64_bytes hb rule (by omega)]
  rfl

end Sys2Proof.Machine
end

