-- ==== Sys2Proof/Laws/Bounds.lean ====
section
/-! SUPPORT. Every engine function stays inside the message: where its part lies in the message it stops, if
at all, on a byte of the message that is not placed (20_memory.md R44, read by read).  One lemma per
function of the engines; callers cite it. -/

namespace Sys2Proof.Machine

theorem weakHash32At_stops (rule : Nat) {m : Msg} {off : Nat} (a b : W64) (h : off + 32 ≤ m.len) :
    StopsUnplaced m (weakHash32At rule m off a b) := by
  unfold weakHash32At
  repeat' first
    | exact .ok _
    | refine .bind (le64_stops _ (by omega)) fun _ => ?_

theorem blockStep_stops (rule : Nat) {m : Msg} {p : Nat} (r : Rolling) (h : p + 64 ≤ m.len) :
    StopsUnplaced m (blockStep rule m p r) := by
  unfold blockStep
  repeat' first
    | exact .ok _
    | refine .bind (le64_stops _ (by omega)) fun _ => ?_
    | refine .bind (weakHash32At_stops _ _ _ (by omega)) fun _ => ?_

theorem blockSteps_stops (rule : Nat) {m : Msg} (k : Nat) {p : Nat} (r : Rolling)
    (h : p + 64 * k ≤ m.len) : StopsUnplaced m (blockSteps rule m k p r) := by
  induction k generalizing p r with
  | zero => exact .ok _
  | succ k ih =>
    exact .bind (blockStep_stops rule r (by omega)) fun _ => ih _ (by omega)

theorem hash32Bytes_stops {m : Msg} (k : Nat) {i : Nat} (b c : W32) (h : i + k ≤ m.len) :
    StopsUnplaced m (hash32Bytes m k i b c) := by
  induction k generalizing i b c with
  | zero => exact .ok _
  | succ k ih => exact .bind (byteAt_stops _ (by omega)) fun _ => ih _ _ (by omega)

theorem and4_add_le {n : Nat} (h5 : 5 ≤ n) (h : n ≤ 12) : ((n >>> 1) &&& 4) + 4 ≤ n := by
  interval_cases n <;> decide

theorem hash32Short_stops (m : Msg) : StopsUnplaced m (hash32Short m) := by
  unfold hash32Short
  refine .ite (fun h => ?_) fun h4 => .ite (fun h => ?_) fun h12 => ?_
  · exact .bind (hash32Bytes_stops _ _ _ (by omega)) fun _ => .ok _
  · have := and4_add_le (n := m.len) (by omega) h
    unfold hash32_5to12
    repeat' first
      | exact .ok _
      | refine .bind (le32_stops _ (by omega)) fun _ => ?_
  · unfold hash32_13to24
    repeat' first
      | exact .ok _
      | refine .bind (le32_stops _ (by omega)) fun _ => ?_

theorem hash32Init_stops {m : Msg} (h : 24 < m.len) : StopsUnplaced m (hash32Init m) := by
  unfold hash32Init
  repeat' first
    | exact .ok _
    | refine .bind (le32_stops _ (by omega)) fun _ => ?_

theorem hash32Block_stops {m : Msg} {p : Nat} (a : Acc32) (h : p + 20 ≤ m.len) :
    StopsUnplaced m (hash32Block m p a) := by
  unfold hash32Block
  repeat' first
    | exact .ok _
    | refine .bind (le32_stops _ (by omega)) fun _ => ?_

theorem hash64_0to16_stops (cuts : Cuts) {m : Msg} {base n : Nat} (h : base + n ≤ m.len) :
    StopsUnplaced m (hash64_0to16 cuts m base n) := by
  unfold hash64_0to16
  have hc : 8 ≤ cuts.cut64WideMin := by unfold Cuts.cut64WideMin; split <;> omega
  refine .ite (fun h1 => ?_) fun h1 => .ite (fun h2 => ?_) fun h2 => .ite (fun h3 => ?_) fun h3 => ?_
  all_goals
    repeat' first
      | exact .ok _
      | refine .bind (le64_stops _ (by omega)) fun _ => ?_
      | refine .bind (le32_stops _ (by omega)) fun _ => ?_
      | refine .bind (byteAt_stops _ (by omega)) fun _ => ?_

theorem hash64Short_stops (cuts : Cuts) (m : Msg) : StopsUnplaced m (hash64Short cuts m) := by
  unfold hash64Short
  refine .ite (fun h => hash64_0to16_stops cuts (by omega)) fun h1 => .ite (fun h => ?_) fun h2 => ?_
  · unfold hash64_17to32
    repeat' first
      | exact .ok _
      | refine .bind (le64_stops _ (by omega)) fun _ => ?_
  · unfold hash64_33to64
    repeat' first
      | exact .ok _
      | refine .bind (le64_stops _ (by omega)) fun _ => ?_

theorem hash64Init_stops {m : Msg} (h : 64 < m.len) : StopsUnplaced m (hash64Init m) := by
  unfold hash64Init
  repeat' first
    | exact .ok _
    | refine .bind (le64_stops _ (by omega)) fun _ => ?_
    | refine .bind (weakHash32At_stops _ _ _ (by omega)) fun _ => ?_

theorem finisherShort_stops (cuts : Cuts) {m : Msg} {p : Part} (seeds : Pair)
    (h : p.base + p.n ≤ m.len) : StopsUnplaced m (finisherShort cuts m p seeds) := by
  unfold finisherShort
  refine .bind (hash64_0to16_stops cuts h) fun _ => ?_
  split
  · exact .bind (le64_stops _ (by omega)) fun _ => .ok _
  · exact .ok _

theorem finisherChunkLoop_stops {m : Msg} (k : Nat) {q : Nat} (a b c d : W64)
    (h : q + 16 * k ≤ m.len) : StopsUnplaced m (finisherChunkLoop m k q a b c d) := by
  induction k generalizing q a b c d with
  | zero => exact .ok _
  | succ k ih =>
    exact .bind (le64_stops _ (by omega)) fun _ => .bind (le64_stops _ (by omega)) fun _ =>
      ih _ _ _ _ (by omega)

theorem finisher_stops (cuts : Cuts) {m : Msg} {p : Part} (seeds : Pair)
    (h : p.base + p.n ≤ m.len) : StopsUnplaced m (finisher cuts m p seeds) := by
  have hc : 15 ≤ cuts.cut128ShortMax := by unfold Cuts.cut128ShortMax; split <;> omega
  refine .ite (fun _ => finisherShort_stops cuts seeds h) fun h1 => ?_
  refine .bind (le64_stops _ (by omega)) fun _ => .bind (le64_stops _ (by omega)) fun _ =>
    finisherChunkLoop_stops _ _ _ _ _ ?_
  unfold finisherChunks
  omega

theorem hash128Init_stops {m : Msg} {p : Part} (seeds : Pair) (h : p.base + p.n ≤ m.len)
    (hn : 128 ≤ p.n) : StopsUnplaced m (hash128Init m p seeds) := by
  unfold hash128Init
  repeat' first
    | exact .ok _
    | refine .bind (le64_stops _ (by omega)) fun _ => ?_

theorem hash128TailPass_stops {m : Msg} {q : Nat} (r : Rolling) (h : q + 32 ≤ m.len) :
    StopsUnplaced m (hash128TailPass m q r) := by
  unfold hash128TailPass
  repeat' first
    | exact .ok _
    | refine .bind (le64_stops _ (by omega)) fun _ => ?_
    | refine .bind (weakHash32At_stops _ _ _ (by omega)) fun _ => ?_

theorem hash128TailLoop_stops {m : Msg} {e : Nat} (k : Nat) {t : Nat} (r : Rolling)
    (he : e ≤ m.len) (h : t + 32 * k ≤ e) : StopsUnplaced m (hash128TailLoop m e k t r) := by
  induction k generalizing t r with
  | zero => exact .ok _
  | succ k ih =>
    exact .bind (hash128TailPass_stops _ (by omega)) fun _ => ih _ (by omega)

theorem hash128Tail_stops {m : Msg} {e rem : Nat} (r : Rolling) (he : e ≤ m.len)
    (h : rem + 31 ≤ e) : StopsUnplaced m (hash128Tail m e rem r) :=
  .bind (hash128TailLoop_stops _ _ he (by unfold tailPasses; omega)) fun _ => .ok _

theorem seedsUnseeded_stops (m : Msg) : StopsUnplaced m (seedsUnseeded m) := by
  unfold seedsUnseeded
  refine .ite (fun h => ?_) fun _ => .ok _
  exact .bind (le64_stops _ (by omega)) fun _ => .bind (le64_stops _ (by omega)) fun _ => .ok _

end Sys2Proof.Machine
end

