-- ==== Sys2Proof/Laws/Phases.lean ====
section
/-! SUPPORT. One step of a command's state machine: everything it can do, said once, and what it leaves alone.
The engines agree with the dispatch. -/

namespace Sys2Proof.Machine

/-! ### Engines and dispatch agree -/

theorem exec_eq_runCommand (i : Instr) (s : State) : exec i s = runCommand (engineOf i) s := by
  cases i <;> rfl

theorem isShort_eq (i : Instr) (s : State) :
    (engineOf i).isShort s = takesShortPath s.cuts i s.len.toNat := by
  cases i <;> rfl

theorem part_eq (i : Instr) (s : State) : (engineOf i).part s = partOf i s.len.toNat := by
  cases i <;> rfl

/-! ### runPhases -/

theorem runPhases_idle (e : Engine) (k : Nat) {s : State} (h : s.phase = .idle) :
    runPhases e k s = .ok s := by
  cases k with
  | zero => rfl
  | succ k => simp [runPhases, h]

theorem runPhases_succ (e : Engine) (k : Nat) {s : State} (h : s.phase ≠ .idle) :
    runPhases e (k + 1) s = (phaseStep e s).bind (runPhases e k) := by
  rw [runPhases]
  split
  · contradiction
  · cases phaseStep e s <;> rfl

theorem runPhases_add (e : Engine) (j k : Nat) (s : State) :
    runPhases e (j + k) s = (runPhases e j s).bind (runPhases e k) := by
  induction j generalizing s with
  | zero => simp [runPhases, Except.bind]
  | succ j ih =>
    by_cases h : s.phase = .idle
    · simp [runPhases_idle _ _ h, Except.bind]
    · rw [show j + 1 + k = (j + k) + 1 by omega, runPhases_succ _ _ h, runPhases_succ _ _ h]
      cases phaseStep e s with
      | error f => rfl
      | ok t => exact ih t

/-! ### One step of a command, phase by phase -/

theorem phaseStep_short {s : State} (e : Engine) (h : s.phase = .shortPath) :
    phaseStep e s = (e.short s).bind fun r => .ok (s.complete r) := by
  simp only [phaseStep, h]; cases e.short s <;> rfl

theorem phaseStep_block {s : State} (e : Engine) (h : s.phase = .longLoop) :
    phaseStep e s = e.block s := by simp only [phaseStep, h]

theorem phaseStep_tail {s : State} (e : Engine) (h : s.phase = .tail) :
    phaseStep e s = (e.tail s).bind fun r => .ok (s.complete r) := by
  simp only [phaseStep, h]; cases e.tail s <;> rfl

theorem phaseStep_init {s : State} (e : Engine) (h : s.phase = .init) :
    phaseStep e s = if e.isShort s then .ok (s.enterShort (e.part s)) else e.init s := by
  simp only [phaseStep, h]

/-! ### What one step of a command can do -/

/-- A step that stores the working state of a command's engine: the accumulators for HASH32, the rolling
state for the others. -/
def SetsLong (i : Instr) (s : State) (pos rem : W64) (p : Phase) (t : State) : Prop :=
  (i = .hash32 ∧ ∃ a, t = s.setLong32 a pos rem p) ∨
  (i ≠ .hash32 ∧ ∃ r, t = s.setLong64 r pos rem p)

/-- `POS`, `REM` and `PHASE` after a LONG_LOOP step (R106, R126, R154). -/
def afterBlock (i : Instr) (s : State) : W64 × W64 × Phase :=
  match i with
  | .hash32 => (s.pos + 20#64, s.rem - 20#64,
      phaseAfterBlock32 s.len.toNat (s.pos + 20#64).toNat)
  | .hash64 => (s.pos + 64#64, s.rem - 64#64, phaseAfterBlock64 (s.rem - 64#64).toNat)
  | .hash64s => (s.pos + 64#64, s.rem - 64#64, phaseAfterBlock64 (s.rem - 64#64).toNat)
  | .hash64ss => (s.pos + 64#64, s.rem - 64#64, phaseAfterBlock64 (s.rem - 64#64).toNat)
  | .hash128 => after128 (partUnseeded s.len.toNat).base s
  | .hash128s => after128 (partWhole s.len.toNat).base s
where
  after128 (base : Nat) (s : State) : W64 × W64 × Phase :=
    if endsPair128 base (s.pos + 64#64).toNat then
      (s.pos + 64#64, s.rem - 128#64, phaseAfterPair128 (s.rem - 128#64).toNat)
    else (s.pos + 64#64, s.rem, .longLoop)

theorem bind_ok {α β : Type} {e : Except Fault α} {k : α → Except Fault β} {b : β}
    (h : (e >>= k) = .ok b) : ∃ a, e = .ok a ∧ k a = .ok b := by
  cases e with
  | ok a => exact ⟨a, rfl, h⟩
  | error f => cases h

theorem init_sets {i : Instr} {s t : State} (h : (engineOf i).init s = .ok t) :
    SetsLong i s (word64 (partOf i s.len.toNat).base) (word64 (partOf i s.len.toNat).n) .longLoop t := by
  cases i
  case hash32 =>
    obtain ⟨a, _, h⟩ := bind_ok h; cases h
    exact .inl ⟨rfl, a, by simp [partOf, partWhole, word64]⟩
  case hash64 | hash64s | hash64ss =>
    obtain ⟨r, _, h⟩ := bind_ok h; cases h
    exact .inr ⟨by simp, r, by simp [partOf, partWhole, word64]⟩
  case hash128 =>
    obtain ⟨_, _, h⟩ := bind_ok h
    obtain ⟨r, _, h⟩ := bind_ok h; cases h
    exact .inr ⟨by simp, r, rfl⟩
  case hash128s =>
    obtain ⟨r, _, h⟩ := bind_ok h; cases h
    exact .inr ⟨by simp, r, rfl⟩

theorem long128Block_ok {base : Nat} {s t : State} (h : long128Block base s = .ok t) :
    ∃ r, t = s.setLong64 r (afterBlock.after128 base s).1 (afterBlock.after128 base s).2.1
      (afterBlock.after128 base s).2.2 := by
  obtain ⟨r, _, h⟩ := bind_ok h
  refine ⟨r, ?_⟩
  simp only [afterBlock.after128]
  dsimp only at h
  split at h
  · rename_i hp; simp only [hp, if_true]; cases h; rfl
  · rename_i hp; simp only [hp]; cases h; rfl

theorem block_sets {i : Instr} {s t : State} (h : (engineOf i).block s = .ok t) :
    SetsLong i s (afterBlock i s).1 (afterBlock i s).2.1 (afterBlock i s).2.2 t := by
  cases i
  case hash32 =>
    obtain ⟨a, _, h⟩ := bind_ok h; cases h
    exact .inl ⟨rfl, a, rfl⟩
  case hash64 | hash64s | hash64ss =>
    obtain ⟨r, _, h⟩ := bind_ok h; cases h
    exact .inr ⟨by simp, r, rfl⟩
  case hash128 => exact .inr ⟨by simp, long128Block_ok h⟩
  case hash128s => exact .inr ⟨by simp, long128Block_ok h⟩

/-- Everything one step of a command's state machine can do (R27). -/
theorem phaseStep_cases {i : Instr} {s t : State} (h : phaseStep (engineOf i) s = .ok t) :
    (s.phase = .idle ∧ t = s) ∨
    (s.phase = .init ∧ takesShortPath s.cuts i s.len.toNat = true ∧
      t = s.enterShort (partOf i s.len.toNat)) ∨
    (s.phase = .init ∧ takesShortPath s.cuts i s.len.toNat = false ∧
      SetsLong i s (word64 (partOf i s.len.toNat).base) (word64 (partOf i s.len.toNat).n) .longLoop t) ∨
    (s.phase = .shortPath ∧ ∃ r, (engineOf i).short s = .ok r ∧ t = s.complete r) ∨
    (s.phase = .longLoop ∧
      SetsLong i s (afterBlock i s).1 (afterBlock i s).2.1 (afterBlock i s).2.2 t) ∨
    (s.phase = .tail ∧ ∃ r, (engineOf i).tail s = .ok r ∧ t = s.complete r) := by
  unfold phaseStep at h
  split at h
  · rename_i hp; cases h; exact .inl ⟨hp, rfl⟩
  · rename_i hp
    rw [isShort_eq, part_eq] at h
    split at h
    · rename_i hs; cases h; exact .inr (.inl ⟨hp, hs, rfl⟩)
    · rename_i hs; exact .inr (.inr (.inl ⟨hp, by simpa using hs, init_sets h⟩))
  · rename_i hp
    split at h
    · rename_i r hr; cases h; exact .inr (.inr (.inr (.inl ⟨hp, r, hr, rfl⟩)))
    · cases h
  · rename_i hp; exact .inr (.inr (.inr (.inr (.inl ⟨hp, block_sets h⟩))))
  · rename_i hp
    split at h
    · rename_i r hr; cases h; exact .inr (.inr (.inr (.inr (.inr ⟨hp, r, hr, rfl⟩))))
    · cases h

/-- What no step of a command changes (R20, R22, R196). -/
structure SameOperands (s t : State) : Prop where
  cmd : t.cmd = s.cmd
  len : t.len = s.len
  seed0 : t.seed0 = s.seed0
  seed1 : t.seed1 = s.seed1
  mem : t.mem = s.mem
  script : t.script = s.script
  hostData : t.hostData = s.hostData
  refusals : t.refusals = s.refusals
  cuts : t.cuts = s.cuts

theorem SameOperands.rfl {s : State} : SameOperands s s := by constructor <;> exact Eq.refl _

theorem SameOperands.trans {s t u : State} (h : SameOperands s t) (h' : SameOperands t u) :
    SameOperands s u := by
  obtain ⟨a1, a2, a3, a4, a5, a6, a7, a8, a9⟩ := h
  obtain ⟨b1, b2, b3, b4, b5, b6, b7, b8, b9⟩ := h'
  exact ⟨b1.trans a1, b2.trans a2, b3.trans a3, b4.trans a4, b5.trans a5, b6.trans a6, b7.trans a7,
    b8.trans a8, b9.trans a9⟩

theorem SameOperands.launch (s : State) : SameOperands s s.launch := by constructor <;> exact Eq.refl _

theorem SameOperands.complete (s : State) (r : Pair) : SameOperands s (s.complete r) := by
  constructor <;> simp

theorem SetsLong.sameOperands {i : Instr} {s t : State} {pos rem : W64} {p : Phase}
    (h : SetsLong i s pos rem p t) : SameOperands s t := by
  rcases h with ⟨_, _, rfl⟩ | ⟨_, _, rfl⟩ <;> constructor <;> exact Eq.refl _

theorem SetsLong.status {i : Instr} {s t : State} {pos rem : W64} {p : Phase}
    (h : SetsLong i s pos rem p t) : t.status = s.status := by
  rcases h with ⟨_, _, rfl⟩ | ⟨_, _, rfl⟩ <;> rfl

theorem SetsLong.phase {i : Instr} {s t : State} {pos rem : W64} {p : Phase}
    (h : SetsLong i s pos rem p t) : t.phase = p := by
  rcases h with ⟨_, _, rfl⟩ | ⟨_, _, rfl⟩ <;> rfl

theorem SetsLong.pos_rem {i : Instr} {s t : State} {pos rem : W64} {p : Phase}
    (h : SetsLong i s pos rem p t) : t.pos = pos ∧ t.rem = rem := by
  rcases h with ⟨_, _, rfl⟩ | ⟨_, _, rfl⟩ <;> exact ⟨rfl, rfl⟩

theorem SetsLong.results {i : Instr} {s t : State} {pos rem : W64} {p : Phase}
    (h : SetsLong i s pos rem p t) :
    t.resLo = s.resLo ∧ t.resHi = s.resHi ∧ t.msgChanged = s.msgChanged ∧ t.free = s.free := by
  rcases h with ⟨_, _, rfl⟩ | ⟨_, _, rfl⟩ <;> exact ⟨rfl, rfl, rfl, rfl⟩

theorem phaseStep_sameOperands {i : Instr} {s t : State} (h : phaseStep (engineOf i) s = .ok t) :
    SameOperands s t := by
  obtain ⟨_, rfl⟩ | ⟨_, _, rfl⟩ | ⟨_, _, h⟩ | ⟨_, r, _, rfl⟩ | ⟨_, h⟩ | ⟨_, r, _, rfl⟩ :=
    phaseStep_cases h
  · exact .rfl
  · constructor <;> exact Eq.refl _
  · exact h.sameOperands
  · exact .complete s r
  · exact h.sameOperands
  · exact .complete s r

theorem phaseAfterBlock32_cases (len pos : Nat) :
    phaseAfterBlock32 len pos = .longLoop ∨ phaseAfterBlock32 len pos = .tail := by
  unfold phaseAfterBlock32; split <;> simp

theorem phaseAfterBlock64_cases (rem : Nat) :
    phaseAfterBlock64 rem = .longLoop ∨ phaseAfterBlock64 rem = .tail := by
  unfold phaseAfterBlock64; split <;> simp

theorem phaseAfterPair128_cases (rem : Nat) :
    phaseAfterPair128 rem = .longLoop ∨ phaseAfterPair128 rem = .tail := by
  unfold phaseAfterPair128; split <;> simp

theorem afterBlock_phase (i : Instr) (s : State) :
    (afterBlock i s).2.2 = .longLoop ∨ (afterBlock i s).2.2 = .tail := by
  cases i
  case hash32 => exact phaseAfterBlock32_cases _ _
  case hash64 | hash64s | hash64ss => exact phaseAfterBlock64_cases _
  case hash128 | hash128s =>
    simp only [afterBlock, afterBlock.after128]
    split
    · exact phaseAfterPair128_cases _
    · exact .inl rfl

/-- A step of a command leaves `STATUS` alone unless it is a terminal phase, which sets DONE and IDLE. -/
theorem phaseStep_status {i : Instr} {s t : State} (h : phaseStep (engineOf i) s = .ok t) :
    ((s.phase = .shortPath ∨ s.phase = .tail) ∧ t.status = .done ∧ t.phase = .idle) ∨
    (s.phase ≠ .shortPath ∧ s.phase ≠ .tail ∧ t.status = s.status ∧
      (t.phase = .idle → s.phase = .idle) ∧
      t.resLo = s.resLo ∧ t.resHi = s.resHi ∧ t.msgChanged = s.msgChanged ∧ t.free = s.free) := by
  obtain ⟨hp, rfl⟩ | ⟨hp, _, rfl⟩ | ⟨hp, _, h⟩ | ⟨hp, r, _, rfl⟩ | ⟨hp, h⟩ | ⟨hp, r, _, rfl⟩ :=
    phaseStep_cases h
  · exact .inr (by simp [hp])
  · exact .inr (by simp [hp])
  · exact .inr ⟨by simp [hp], by simp [hp], h.status, by simp [h.phase], h.results⟩
  · exact .inl (by simp [hp])
  · refine .inr ⟨by simp [hp], by simp [hp], h.status, ?_, h.results⟩
    rw [h.phase]
    rcases afterBlock_phase i s with h' | h' <;> simp [h']
  · exact .inl (by simp [hp])

end Sys2Proof.Machine
end

