-- ==== Sys2Proof/Laws/Runs.lean ====
section
/-! SUPPORT. The run of a long path: the state after INIT and any number of block steps, once for the three
engines. -/

namespace Sys2Proof.Machine

/-! ### A loop of block steps, once for all engines -/

/-- `k` steps of a numbered step function. -/
def iterSteps {ρ : Type} (f : Nat → ρ → Except Fault ρ) : Nat → ρ → Except Fault ρ
  | 0, r => .ok r
  | k + 1, r => (iterSteps f k r).bind (f k)

/-- The run of a long path: `S j r` is the state after `j` block steps with working value `r`. -/
theorem runPhases_loop {ρ : Type} (e : Engine) (N : Nat) (S : Nat → ρ → State)
    (f : Nat → ρ → Except Fault ρ)
    (hphase : ∀ j r, j < N → (S j r).phase = .longLoop)
    (hblock : ∀ j r, j < N → e.block (S j r) = (f j r).bind fun r' => .ok (S (j + 1) r'))
    (j : Nat) (hj : j ≤ N) (r : ρ) :
    runPhases e j (S 0 r) = (iterSteps f j r).bind fun r' => .ok (S j r') := by
  induction j with
  | zero => rfl
  | succ j ih =>
    rw [runPhases_add, ih (by omega), iterSteps]
    cases iterSteps f j r with
    | error g => rfl
    | ok r' =>
      have hp := hphase j r' (by omega)
      show runPhases e 1 (S j r') = (f j r').bind _
      rw [show (1 : Nat) = 0 + 1 from rfl, runPhases_succ _ _ (by rw [hp]; simp)]
      have : phaseStep e (S j r') = e.block (S j r') := by simp [phaseStep, hp]
      rw [this, hblock j r' (by omega)]
      cases f j r' <;> rfl

theorem blockSteps_snoc (rule : Nat) (m : Msg) (k p : Nat) (r : Rolling) :
    blockSteps rule m (k + 1) p r = (blockSteps rule m k p r).bind (blockStep rule m (p + 64 * k)) := by
  induction k generalizing p r with
  | zero =>
    show (blockStep rule m p r).bind (fun r => .ok r) = blockStep rule m (p + 64 * 0) r
    rw [Nat.mul_zero, Nat.add_zero]
    cases blockStep rule m p r <;> rfl
  | succ k ih =>
    show (blockStep rule m p r).bind (fun r => blockSteps rule m (k + 1) (p + 64) r) =
      ((blockStep rule m p r).bind fun r => blockSteps rule m k (p + 64) r).bind _
    cases blockStep rule m p r with
    | error f => rfl
    | ok r' =>
      show blockSteps rule m (k + 1) (p + 64) r' = _
      rw [ih]
      show _ = (blockSteps rule m k (p + 64) r').bind _
      rw [show p + 64 + 64 * k = p + 64 * (k + 1) by omega]

theorem hash32Blocks_snoc (m : Msg) (k p : Nat) (a : Acc32) :
    hash32Blocks m (k + 1) p a = (hash32Blocks m k p a).bind (hash32Block m (p + 20 * k)) := by
  induction k generalizing p a with
  | zero =>
    show (hash32Block m p a).bind (fun r => .ok r) = hash32Block m (p + 20 * 0) a
    rw [Nat.mul_zero, Nat.add_zero]
    cases hash32Block m p a <;> rfl
  | succ k ih =>
    show (hash32Block m p a).bind (fun r => hash32Blocks m (k + 1) (p + 20) r) =
      ((hash32Block m p a).bind fun r => hash32Blocks m k (p + 20) r).bind _
    cases hash32Block m p a with
    | error f => rfl
    | ok r' =>
      show hash32Blocks m (k + 1) (p + 20) r' = _
      rw [ih]
      show _ = (hash32Blocks m k (p + 20) r').bind _
      rw [show p + 20 + 20 * k = p + 20 * (k + 1) by omega]

theorem iterSteps_blockStep (rule : Nat) (m : Msg) (p k : Nat) (r : Rolling) :
    iterSteps (fun j => blockStep rule m (p + 64 * j)) k r = blockSteps rule m k p r := by
  induction k with
  | zero => rfl
  | succ k ih => rw [iterSteps, ih, blockSteps_snoc]

theorem iterSteps_hash32Block (m : Msg) (p k : Nat) (a : Acc32) :
    iterSteps (fun j => hash32Block m (p + 20 * j)) k a = hash32Blocks m k p a := by
  induction k with
  | zero => rfl
  | succ k ih => rw [iterSteps, ih, hash32Blocks_snoc]

/-! ### The states of the three long paths -/

/-- HASH32 after `j` block steps (R104 to R106). -/
def loopState32 (s : State) (j : Nat) (a : Acc32) : State :=
  s.setLong32 a (word64 (20 * j)) (word64 (s.len.toNat - 20 * j))
    (if j < blocks32 s.len.toNat then .longLoop else .tail)

/-- A 64-bit command after `j` block steps (R124 to R126). -/
def loopState64 (s : State) (j : Nat) (r : Rolling) : State :=
  s.setLong64 r (word64 (64 * j)) (word64 (s.len.toNat - 64 * j))
    (if j < blocks64 s.len.toNat then .longLoop else .tail)

/-- A 128-bit command on the part `p` after `j` block steps (R153, R154). -/
def loopState128 (p : Part) (s : State) (j : Nat) (r : Rolling) : State :=
  s.setLong64 r (word64 (p.base + 64 * j)) (word64 (p.n - 128 * (j / 2)))
    (if j < 2 * pairs128 p.n then .longLoop else .tail)

theorem word64_toNat {n : Nat} (h : n < 2 ^ 64) : (word64 n).toNat = n := by
  rw [word64, BitVec.toNat_ofNat, Nat.mod_eq_of_lt h]

theorem word64_add (a b : Nat) : word64 a + word64 b = word64 (a + b) := by
  simp [word64, BitVec.ofNat_add]

theorem word64_sub {a b : Nat} (h : b ≤ a) : word64 a - word64 b = word64 (a - b) := by
  obtain ⟨c, rfl⟩ := Nat.exists_eq_add_of_le h
  rw [Nat.add_sub_cancel_left, ← word64_add, BitVec.add_comm, BitVec.add_sub_cancel]

theorem block32_step (s : State) (j : Nat) (a : Acc32) (hj : j < blocks32 s.len.toNat) :
    engineHash32.block (loopState32 s j a) =
      (hash32Block s.msg (0 + 20 * j) a).bind fun a' => .ok (loopState32 s (j + 1) a') := by
  have hl := s.len.isLt
  have hb : 20 * (j + 1) < s.len.toNat := by unfold blocks32 at hj; omega
  show (hash32Block s.msg (word64 (20 * j)).toNat a).bind _ = _
  rw [word64_toNat (by omega), Nat.zero_add]
  cases hash32Block s.msg (20 * j) a with
  | error f => rfl
  | ok a' =>
    show Except.ok (State.setLong32 a' _ _ _ _) = Except.ok (loopState32 s (j + 1) a')
    congr 1
    have h1 : word64 (20 * j) + 20#64 = word64 (20 * (j + 1)) := word64_add (20 * j) 20
    have h2 : word64 (s.len.toNat - 20 * j) - 20#64 = word64 (s.len.toNat - 20 * (j + 1)) := by
      rw [show s.len.toNat - 20 * (j + 1) = (s.len.toNat - 20 * j) - 20 by omega]
      exact word64_sub (by omega)
    simp only [loopState32, State.setLong32_pos, State.setLong32_rem, State.setLong32_len, h1, h2,
      word64_toNat (show 20 * (j + 1) < 2 ^ 64 by omega), phaseAfterBlock32]
    simp only [State.setLong32]
    congr 1
    simp only [Nat.mul_lt_mul_left (show 0 < 20 by omega)]

theorem block64_step (s : State) (j : Nat) (r : Rolling) (hj : j < blocks64 s.len.toNat) :
    long64Block (loopState64 s j r) =
      (blockStep 125 s.msg (0 + 64 * j) r).bind fun r' => .ok (loopState64 s (j + 1) r') := by
  have hl := s.len.isLt
  have hb : 64 * (j + 1) < s.len.toNat := by unfold blocks64 at hj; omega
  show (blockStep 125 s.msg (word64 (64 * j)).toNat r).bind _ = _
  rw [word64_toNat (by omega), Nat.zero_add]
  cases blockStep 125 s.msg (64 * j) r with
  | error f => rfl
  | ok r' =>
    show Except.ok (State.setLong64 r' _ _ _ _) = Except.ok (loopState64 s (j + 1) r')
    congr 1
    have h1 : word64 (64 * j) + 64#64 = word64 (64 * (j + 1)) := word64_add (64 * j) 64
    have h2 : word64 (s.len.toNat - 64 * j) - 64#64 = word64 (s.len.toNat - 64 * (j + 1)) := by
      rw [show s.len.toNat - 64 * (j + 1) = (s.len.toNat - 64 * j) - 64 by omega]
      exact word64_sub (by omega)
    simp only [loopState64, State.setLong64_pos, State.setLong64_rem, h1, h2,
      word64_toNat (show s.len.toNat - 64 * (j + 1) < 2 ^ 64 by omega), phaseAfterBlock64]
    simp only [State.setLong64]
    congr 1
    have : 64 < s.len.toNat - 64 * (j + 1) ↔ j + 1 < blocks64 s.len.toNat := by
      unfold blocks64; omega
    simp only [this]

theorem block128_step (p : Part) (s : State) (j : Nat) (r : Rolling) (hj : j < 2 * pairs128 p.n)
    (hp : p.base + p.n = s.len.toNat) :
    long128Block p.base (loopState128 p s j r) =
      (blockStep 154 s.msg (p.base + 64 * j) r).bind fun r' => .ok (loopState128 p s (j + 1) r') := by
  have hl := s.len.isLt
  unfold pairs128 at hj
  have hb : 64 * (j + 1) ≤ p.n := by omega
  show (blockStep 154 s.msg (word64 (p.base + 64 * j)).toNat r).bind _ = _
  rw [word64_toNat (by omega)]
  cases blockStep 154 s.msg (p.base + 64 * j) r with
  | error f => rfl
  | ok r' =>
    have h1 : (loopState128 p s j r).pos + 64#64 = word64 (p.base + 64 * (j + 1)) := by
      show word64 (p.base + 64 * j) + word64 64 = _
      rw [word64_add]; congr 1
    by_cases hj2 : j % 2 = 1
    · have he : endsPair128 p.base (p.base + 64 * (j + 1)) = true := by
        simp only [endsPair128, decide_eq_true_eq]; omega
      have h2 : word64 (p.n - 128 * (j / 2)) - 128#64 = word64 (p.n - 128 * ((j + 1) / 2)) := by
        rw [show p.n - 128 * ((j + 1) / 2) = (p.n - 128 * (j / 2)) - 128 by omega]
        exact word64_sub (by omega)
      show (if endsPair128 p.base ((loopState128 p s j r).pos + 64#64).toNat then _ else _) = _
      rw [h1, word64_toNat (by omega), he, if_pos rfl]
      show Except.ok (State.setLong64 r' _ (word64 (p.n - 128 * (j / 2)) - 128#64)
        (phaseAfterPair128 (word64 (p.n - 128 * (j / 2)) - 128#64).toNat) _) = _
      rw [h2, word64_toNat (by omega)]
      show _ = Except.ok (loopState128 p s (j + 1) r')
      have : p.n - 128 * ((j + 1) / 2) < 128 ↔ ¬ j + 1 < 2 * pairs128 p.n := by
        unfold pairs128; omega
      simp only [loopState128, phaseAfterPair128, this, ite_not]
      rfl
    · have he : endsPair128 p.base (p.base + 64 * (j + 1)) = false := by
        simp only [endsPair128, decide_eq_false_iff_not]; omega
      show (if endsPair128 p.base ((loopState128 p s j r).pos + 64#64).toNat then _ else _) = _
      rw [h1, word64_toNat (by omega), he]
      show Except.ok (State.setLong64 r' _ (word64 (p.n - 128 * (j / 2))) .longLoop _) =
        Except.ok (loopState128 p s (j + 1) r')
      have h3 : j + 1 < 2 * pairs128 p.n := by unfold pairs128; omega
      have h4 : (j + 1) / 2 = j / 2 := by omega
      simp only [loopState128, h3, h4, if_true]
      rfl

/-! ### Runs up to the tail -/

theorem runPhases_init {ρ : Type} (e : Engine) (s : State) (k : Nat) (init0 : Except Fault ρ)
    (S : ρ → State) (hphase : s.phase = .init) (hshort : e.isShort s = false)
    (hinit : e.init s = init0.bind fun r => .ok (S r)) :
    runPhases e (k + 1) s = init0.bind fun r => runPhases e k (S r) := by
  rw [runPhases_succ _ _ (by simp [hphase])]
  have : phaseStep e s = e.init s := by simp [phaseStep, hphase, hshort]
  rw [this, hinit]
  cases init0 <;> rfl

/-- HASH32 on its long path after INIT and `j` block steps. -/
theorem run32 (s : State) (h : 24 < s.len.toNat) (j : Nat) (hj : j ≤ blocks32 s.len.toNat) :
    runPhases engineHash32 (j + 1) s.launch =
      (hash32Init s.msg).bind fun a => (hash32Blocks s.msg j 0 a).bind fun a' =>
        .ok (loopState32 s.launch j a') := by
  rw [runPhases_init engineHash32 s.launch j (hash32Init s.msg) (loopState32 s.launch 0) rfl
    (by show short32 s.len.toNat = false; simp only [short32, decide_eq_false_iff_not]; omega)]
  · cases hash32Init s.msg with
    | error f => rfl
    | ok a =>
      show runPhases _ j (loopState32 s.launch 0 a) = _
      rw [runPhases_loop engineHash32 (blocks32 s.len.toNat) (loopState32 s.launch) _
        (fun i r hi => by simp [loopState32, hi]) (fun i r hi => block32_step s.launch i r hi) j hj,
        iterSteps_hash32Block]
      rfl
  · have h0 : 0 < blocks32 s.len.toNat := by unfold blocks32; omega
    show (hash32Init s.msg).bind _ = _
    congr 1; funext a
    simp only [loopState32, State.launch_len, h0, if_true, Nat.mul_zero, Nat.sub_zero]
    simp [word64]

/-- A 64-bit command on its long path after INIT and `j` block steps. -/
theorem run64 (e : Engine) (hshort : ∀ s, e.isShort s = short64 s.len.toNat)
    (hinit : e.init = long64Init) (hblock : e.block = long64Block) (s : State)
    (h : 64 < s.len.toNat) (j : Nat) (hj : j ≤ blocks64 s.len.toNat) :
    runPhases e (j + 1) s.launch =
      (hash64Init s.msg).bind fun r => (blockSteps 125 s.msg j 0 r).bind fun r' =>
        .ok (loopState64 s.launch j r') := by
  rw [runPhases_init e s.launch j (hash64Init s.msg) (loopState64 s.launch 0) rfl
    (by rw [hshort]; show short64 s.len.toNat = false; simp only [short64, decide_eq_false_iff_not]; omega)]
  · cases hash64Init s.msg with
    | error f => rfl
    | ok r =>
      show runPhases _ j (loopState64 s.launch 0 r) = _
      rw [runPhases_loop e (blocks64 s.len.toNat) (loopState64 s.launch) _
        (fun i r hi => by simp [loopState64, hi])
        (fun i r hi => by rw [hblock]; exact block64_step s.launch i r hi) j hj,
        iterSteps_blockStep]
      rfl
  · have h0 : 0 < blocks64 s.len.toNat := by unfold blocks64; omega
    rw [hinit]
    show (hash64Init s.msg).bind _ = _
    congr 1; funext a
    simp only [loopState64, State.launch_len, h0, if_true, Nat.mul_zero, Nat.sub_zero]
    simp [word64]

/-- A 128-bit command on its long path after INIT and `j` block steps. -/
theorem run128 (e : Engine) (p : Part) (seeds : Except Fault Pair) (s : State)
    (hshort : e.isShort s.launch = false)
    (hinit : e.init s.launch = seeds.bind fun sd => long128Init p sd s.launch)
    (hblock : ∀ j r, e.block (loopState128 p s.launch j r) =
      long128Block p.base (loopState128 p s.launch j r))
    (hp : p.base + p.n = s.len.toNat) (hn : 128 ≤ p.n) (j : Nat) (hj : j ≤ 2 * pairs128 p.n) :
    runPhases e (j + 1) s.launch =
      seeds.bind fun sd => (hash128Init s.msg p sd).bind fun r =>
        (blockSteps 154 s.msg j p.base r).bind fun r' => .ok (loopState128 p s.launch j r') := by
  rw [runPhases_init e s.launch j (seeds.bind fun sd => hash128Init s.msg p sd)
    (loopState128 p s.launch 0) rfl hshort]
  · cases seeds with
    | error f => rfl
    | ok sd =>
      show (hash128Init s.msg p sd).bind _ = (hash128Init s.msg p sd).bind _
      cases hash128Init s.msg p sd with
      | error f => rfl
      | ok r =>
        show runPhases _ j (loopState128 p s.launch 0 r) = _
        rw [runPhases_loop e (2 * pairs128 p.n) (loopState128 p s.launch) _
          (fun i r hi => by simp [loopState128, hi])
          (fun i r hi => by rw [hblock]; exact block128_step p s.launch i r hi hp) j hj,
          iterSteps_blockStep]
        rfl
  · have h0 : 0 < 2 * pairs128 p.n := by unfold pairs128; omega
    rw [hinit]
    cases seeds with
    | error f => rfl
    | ok sd =>
      show (hash128Init s.msg p sd).bind _ = (hash128Init s.msg p sd).bind _
      congr 1; funext r
      simp only [loopState128, h0, if_true, Nat.mul_zero, Nat.zero_div, Nat.sub_zero, Nat.add_zero]

end Sys2Proof.Machine
end

