-- ==== Sys2Proof/Laws/SameMessage.lean ====
section
/-! SUPPORT. Every engine function sees nothing of the memory but the bytes of the message
(10_state.md R21): it is equal on two messages that are the same. -/

namespace Sys2Proof.Machine

variable {m m' : Msg}

theorem weakHash32At_congr (h : m.Same m') (rule off : Nat) (a b : W64) :
    weakHash32At rule m off a b = weakHash32At rule m' off a b := by
  simp only [weakHash32At, le64_congr h]

theorem blockStep_congr (h : m.Same m') (rule p : Nat) (r : Rolling) :
    blockStep rule m p r = blockStep rule m' p r := by
  simp only [blockStep, le64_congr h, weakHash32At_congr h]

theorem blockSteps_congr (h : m.Same m') (rule k p : Nat) (r : Rolling) :
    blockSteps rule m k p r = blockSteps rule m' k p r := by
  induction k generalizing p r with
  | zero => rfl
  | succ k ih => simp only [blockSteps, blockStep_congr h, ih]

theorem hash32Bytes_congr (h : m.Same m') (k i : Nat) (b c : W32) :
    hash32Bytes m k i b c = hash32Bytes m' k i b c := by
  induction k generalizing i b c with
  | zero => rfl
  | succ k ih => simp only [hash32Bytes, byteAt_congr h, ih]

theorem hash32_0to4_congr (h : m.Same m')  :
    hash32_0to4 m = hash32_0to4 m' := by
  simp only [hash32_0to4, h.1, hash32Bytes_congr h]

theorem hash32_5to12_congr (h : m.Same m')  :
    hash32_5to12 m = hash32_5to12 m' := by
  simp only [hash32_5to12, le32_congr h, h.1]

theorem hash32_13to24_congr (h : m.Same m')  :
    hash32_13to24 m = hash32_13to24 m' := by
  simp only [hash32_13to24, le32_congr h, h.1]

theorem hash32Short_congr (h : m.Same m')  :
    hash32Short m = hash32Short m' := by
  simp only [hash32Short, h.1, hash32_0to4_congr h, hash32_5to12_congr h, hash32_13to24_congr h]

theorem hash32Init_congr (h : m.Same m')  :
    hash32Init m = hash32Init m' := by
  simp only [hash32Init, le32_congr h, h.1]

theorem hash32Block_congr (h : m.Same m') (p : Nat) (a : Acc32) :
    hash32Block m p a = hash32Block m' p a := by
  simp only [hash32Block, le32_congr h]

theorem hash32Blocks_congr (h : m.Same m') (k p : Nat) (a : Acc32) :
    hash32Blocks m k p a = hash32Blocks m' k p a := by
  induction k generalizing p a with
  | zero => rfl
  | succ k ih => simp only [hash32Blocks, hash32Block_congr h, ih]

theorem hash32Long_congr (h : m.Same m')  :
    hash32Long m = hash32Long m' := by
  simp only [hash32Long, h.1, hash32Init_congr h, hash32Blocks_congr h]

theorem hash32_congr (h : m.Same m')  :
    hash32 m = hash32 m' := by
  simp only [hash32, h.1, hash32Short_congr h, hash32Long_congr h]

theorem hash64_0to16_congr (h : m.Same m') (cuts : Cuts) (base n : Nat) :
    hash64_0to16 cuts m base n = hash64_0to16 cuts m' base n := by
  simp only [hash64_0to16, le32_congr h, le64_congr h, byteAt_congr h]

theorem hash64_17to32_congr (h : m.Same m')  :
    hash64_17to32 m = hash64_17to32 m' := by
  simp only [hash64_17to32, le64_congr h, h.1]

theorem hash64_33to64_congr (h : m.Same m')  :
    hash64_33to64 m = hash64_33to64 m' := by
  simp only [hash64_33to64, le64_congr h, h.1]

theorem hash64Short_congr (h : m.Same m') (cuts : Cuts) :
    hash64Short cuts m = hash64Short cuts m' := by
  simp only [hash64Short, h.1, hash64_0to16_congr h, hash64_17to32_congr h, hash64_33to64_congr h]

theorem hash64Init_congr (h : m.Same m')  :
    hash64Init m = hash64Init m' := by
  simp only [hash64Init, le64_congr h, h.1, weakHash32At_congr h]

theorem hash64Long_congr (h : m.Same m')  :
    hash64Long m = hash64Long m' := by
  simp only [hash64Long, h.1, hash64Init_congr h, blockSteps_congr h]

theorem hash64_congr (h : m.Same m') (cuts : Cuts) :
    hash64 cuts m = hash64 cuts m' := by
  simp only [hash64, h.1, hash64Short_congr h, hash64Long_congr h]

theorem finisherShort_congr (h : m.Same m') (cuts : Cuts) (p : Part) (seeds : Pair) :
    finisherShort cuts m p seeds = finisherShort cuts m' p seeds := by
  simp only [finisherShort, le64_congr h, hash64_0to16_congr h]

theorem finisherChunkLoop_congr (h : m.Same m') (k q : Nat) (a b c d : W64) :
    finisherChunkLoop m k q a b c d = finisherChunkLoop m' k q a b c d := by
  induction k generalizing q a b c d with
  | zero => rfl
  | succ k ih => simp only [finisherChunkLoop, le64_congr h, ih]

theorem finisherLong_congr (h : m.Same m') (p : Part) (seeds : Pair) :
    finisherLong m p seeds = finisherLong m' p seeds := by
  simp only [finisherLong, le64_congr h, finisherChunkLoop_congr h]

theorem finisher_congr (h : m.Same m') (cuts : Cuts) (p : Part) (seeds : Pair) :
    finisher cuts m p seeds = finisher cuts m' p seeds := by
  simp only [finisher, finisherShort_congr h, finisherLong_congr h]

theorem hash128Init_congr (h : m.Same m') (p : Part) (seeds : Pair) :
    hash128Init m p seeds = hash128Init m' p seeds := by
  simp only [hash128Init, le64_congr h]

theorem hash128TailPass_congr (h : m.Same m') (q : Nat) (r : Rolling) :
    hash128TailPass m q r = hash128TailPass m' q r := by
  simp only [hash128TailPass, le64_congr h, weakHash32At_congr h]

theorem hash128TailLoop_congr (h : m.Same m') (e k t : Nat) (r : Rolling) :
    hash128TailLoop m e k t r = hash128TailLoop m' e k t r := by
  induction k generalizing t r with
  | zero => rfl
  | succ k ih => simp only [hash128TailLoop, hash128TailPass_congr h, ih]

theorem hash128Tail_congr (h : m.Same m') (e rem : Nat) (r : Rolling) :
    hash128Tail m e rem r = hash128Tail m' e rem r := by
  simp only [hash128Tail, hash128TailLoop_congr h]

theorem hash128Long_congr (h : m.Same m') (p : Part) (seeds : Pair) :
    hash128Long m p seeds = hash128Long m' p seeds := by
  simp only [hash128Long, hash128Init_congr h, blockSteps_congr h, hash128Tail_congr h]

theorem hash128WithSeed_congr (h : m.Same m') (cuts : Cuts) (p : Part) (seeds : Pair) :
    hash128WithSeed cuts m p seeds = hash128WithSeed cuts m' p seeds := by
  simp only [hash128WithSeed, finisher_congr h, hash128Long_congr h]

theorem seedsUnseeded_congr (h : m.Same m')  :
    seedsUnseeded m = seedsUnseeded m' := by
  simp only [seedsUnseeded, le64_congr h, h.1]

theorem hash128_congr (h : m.Same m') (cuts : Cuts) :
    hash128 cuts m = hash128 cuts m' := by
  simp only [hash128, h.1, seedsUnseeded_congr h, hash128WithSeed_congr h]

end Sys2Proof.Machine
end

