-- ==== Sys2Proof/Laws/Commands.lean ====
section
/-! SUPPORT. A whole command: the phases compute the command's function in the number of steps of R195, and
everything `exec` can do, said once.  Also what stops a command's function and what it sees. -/

namespace Sys2Proof.Machine

/-! ### The whole command -/

/-- What a completed command leaves: `r` in the result registers, DONE, IDLE, the operands and everything
of the host as in `s` (R20, R23, R67, R196).  The working registers are free values. -/
structure CommandEnd (s : State) (r : Pair) (t : State) : Prop where
  same : SameOperands s t
  resLo : t.resLo = r.lo
  resHi : t.resHi = r.hi
  status : t.status = .done
  phase : t.phase = .idle
  msgChanged : t.msgChanged = false

/-- A command computes `v`: it stops where `v` stops, and else leaves the value of `v`. -/
def Computes (s : State) (v : Except Fault Pair) (e : Except Fault State) : Prop :=
  match v with
  | .error f => e = .error f
  | .ok r => ∃ t, e = .ok t ∧ CommandEnd s r t

/-- The short path in two steps. -/
theorem short_run (i : Instr) (s : State) (h : takesShortPath s.cuts i s.len.toNat = true) :
    Computes s ((engineOf i).short (s.launch.enterShort ((engineOf i).part s.launch)))
      (runPhases (engineOf i) 2 s.launch) := by
  have h1 : phaseStep (engineOf i) s.launch = .ok (s.launch.enterShort ((engineOf i).part s.launch)) := by
    have hs : (engineOf i).isShort s.launch = true := by rw [isShort_eq]; exact h
    simp [phaseStep, hs]
  rw [show (2 : Nat) = 1 + 1 from rfl, runPhases_succ _ _ (by simp), h1]
  show Computes _ _ (runPhases (engineOf i) (0 + 1) (s.launch.enterShort ((engineOf i).part s.launch)))
  rw [runPhases_succ _ _ (by simp)]
  unfold Computes
  cases hv : (engineOf i).short (s.launch.enterShort ((engineOf i).part s.launch)) with
  | error f => simp [phaseStep, hv, Except.bind]
  | ok r =>
    refine ⟨(s.launch.enterShort ((engineOf i).part s.launch)).finish r, ?_, ?_⟩
    · have := State.complete_of_unchanged r (s.launch.enterShort ((engineOf i).part s.launch)) rfl
      simp [phaseStep, hv, Except.bind, runPhases, this]
    · constructor <;> (constructor <;> rfl)

/-- The last step of a long path. -/
theorem tail_run (i : Instr) (s u : State) (hp : u.phase = .tail) (hm : u.msgChanged = false)
    (hs : SameOperands s u) :
    Computes s ((engineOf i).tail u) (runPhases (engineOf i) 1 u) := by
  rw [show (1 : Nat) = 0 + 1 from rfl, runPhases_succ _ _ (by simp [hp]), phaseStep_tail _ hp]
  unfold Computes
  cases (engineOf i).tail u with
  | error f => rfl
  | ok r =>
    exact ⟨u.finish r, by rw [← State.complete_of_unchanged r u hm]; rfl,
      hs.trans (by constructor <;> rfl), rfl, rfl, rfl, rfl, rfl⟩

theorem long_run32 (s : State) (h : 24 < s.len.toNat) :
    Computes s ((hash32Long s.msg).bind fun r => .ok (place32 r))
      (runPhases engineHash32 (blocks32 s.len.toNat + 2) s.launch) := by
  rw [show blocks32 s.len.toNat + 2 = (blocks32 s.len.toNat + 1) + 1 by omega, runPhases_add,
    run32 s h _ (le_refl _)]
  have e1 : ((hash32Long s.msg).bind fun r => .ok (place32 r)) =
      (hash32Init s.msg).bind fun a => (hash32Blocks s.msg (blocks32 s.len.toNat) 0 a).bind fun a =>
        .ok (place32 (hash32Tail a)) := by
    show ((hash32Init s.msg).bind fun a => (hash32Blocks s.msg (blocks32 s.msg.len) 0 a).bind fun a => _).bind _ = _
    cases hash32Init s.msg with
    | error f => rfl
    | ok a =>
      show ((hash32Blocks s.msg (blocks32 s.len.toNat) 0 a).bind fun a => _).bind _ = (hash32Blocks s.msg (blocks32 s.len.toNat) 0 a).bind _
      cases hash32Blocks s.msg (blocks32 s.len.toNat) 0 a <;> rfl
  rw [e1]
  cases hash32Init s.msg with
  | error f => exact rfl
  | ok a =>
    show Computes _ ((hash32Blocks s.msg (blocks32 s.len.toNat) 0 a).bind _)
      (((hash32Blocks s.msg (blocks32 s.len.toNat) 0 a).bind _).bind _)
    cases hash32Blocks s.msg (blocks32 s.len.toNat) 0 a with
    | error f => exact rfl
    | ok a' =>
      exact tail_run .hash32 s (loopState32 s.launch (blocks32 s.len.toNat) a')
        (by simp [loopState32]) rfl (by constructor <;> rfl)

theorem long_run64 (i : Instr) (hi : i = .hash64 ∨ i = .hash64s ∨ i = .hash64ss) (s : State)
    (h : 64 < s.len.toNat) (g : W64 → W64)
    (hg : ∀ u : State, u.seed0 = s.seed0 → u.seed1 = s.seed1 →
      (engineOf i).tail u = .ok (place64 (g (hash64Fold u.roll)))) :
    Computes s ((hash64Long s.msg).bind fun r => .ok (place64 (g r)))
      (runPhases (engineOf i) (blocks64 s.len.toNat + 2) s.launch) := by
  have hrun := run64 (engineOf i) (by rcases hi with rfl | rfl | rfl <;> exact fun s => rfl)
    (by rcases hi with rfl | rfl | rfl <;> rfl) (by rcases hi with rfl | rfl | rfl <;> rfl) s h _
    (le_refl _)
  rw [show blocks64 s.len.toNat + 2 = (blocks64 s.len.toNat + 1) + 1 by omega, runPhases_add, hrun]
  have e1 : ((hash64Long s.msg).bind fun r => .ok (place64 (g r))) =
      (hash64Init s.msg).bind fun a => (blockSteps 125 s.msg (blocks64 s.len.toNat) 0 a).bind fun a =>
        .ok (place64 (g (hash64Fold a))) := by
    show ((hash64Init s.msg).bind fun a => (blockSteps 125 s.msg (blocks64 s.msg.len) 0 a).bind fun a => _).bind _ = _
    cases hash64Init s.msg with
    | error f => rfl
    | ok a =>
      show ((blockSteps 125 s.msg (blocks64 s.len.toNat) 0 a).bind fun a => _).bind _ = (blockSteps 125 s.msg (blocks64 s.len.toNat) 0 a).bind _
      cases blockSteps 125 s.msg (blocks64 s.len.toNat) 0 a <;> rfl
  rw [e1]
  cases hash64Init s.msg with
  | error f => exact rfl
  | ok a =>
    show Computes _ ((blockSteps 125 s.msg (blocks64 s.len.toNat) 0 a).bind _)
      (((blockSteps 125 s.msg (blocks64 s.len.toNat) 0 a).bind _).bind _)
    cases blockSteps 125 s.msg (blocks64 s.len.toNat) 0 a with
    | error f => exact rfl
    | ok a' =>
      have := tail_run i s (loopState64 s.launch (blocks64 s.len.toNat) a')
        (by simp [loopState64]) rfl (by constructor <;> rfl)
      rw [hg (loopState64 s.launch (blocks64 s.len.toNat) a') rfl rfl] at this
      exact this

/-- The work of a 128-bit command after its seed pair is known. -/
theorem hash128Long_bind (m : Msg) (p : Part) (sd : Pair) :
    hash128Long m p sd = (hash128Init m p sd).bind fun r =>
      (blockSteps 154 m (2 * pairs128 p.n) p.base r).bind fun r =>
        hash128Tail m (p.base + p.n) (p.n % 128) r := rfl

theorem long_run128 (i : Instr) (hi : i = .hash128 ∨ i = .hash128s) (s : State)
    (hl : takesShortPath s.cuts i s.len.toNat = false) (seeds : Except Fault Pair)
    (hinit : (engineOf i).init s.launch =
      seeds.bind fun sd => long128Init (partOf i s.len.toNat) sd s.launch)
    (hblock : ∀ u : State, u.len = s.len →
      (engineOf i).block u = long128Block (partOf i s.len.toNat).base u)
    (hp : (partOf i s.len.toNat).base + (partOf i s.len.toNat).n = s.len.toNat)
    (hn : 128 ≤ (partOf i s.len.toNat).n) :
    Computes s (seeds.bind fun sd => hash128Long s.msg (partOf i s.len.toNat) sd)
      (runPhases (engineOf i) (2 * pairs128 (partOf i s.len.toNat).n + 2) s.launch) := by
  have hrun := run128 (engineOf i) (partOf i s.len.toNat) seeds s
    (by rw [isShort_eq]; exact hl) hinit (fun j r => hblock _ rfl) hp hn _ (le_refl _)
  rw [show 2 * pairs128 (partOf i s.len.toNat).n + 2 =
    (2 * pairs128 (partOf i s.len.toNat).n + 1) + 1 by omega, runPhases_add, hrun]
  cases seeds with
  | error f => exact rfl
  | ok sd =>
    show Computes _ (hash128Long s.msg _ sd) (((hash128Init s.msg _ sd).bind _).bind _)
    rw [hash128Long_bind]
    cases hash128Init s.msg (partOf i s.len.toNat) sd with
    | error f => exact rfl
    | ok r =>
      show Computes _ ((blockSteps 154 s.msg _ _ r).bind _) (((blockSteps 154 s.msg _ _ r).bind _).bind _)
      cases blockSteps 154 s.msg (2 * pairs128 (partOf i s.len.toNat).n) (partOf i s.len.toNat).base r with
      | error f => exact rfl
      | ok r' =>
        have := tail_run i s (loopState128 (partOf i s.len.toNat) s.launch
            (2 * pairs128 (partOf i s.len.toNat).n) r') (by simp [loopState128]) rfl
          (by constructor <;> rfl)
        have ht : (engineOf i).tail (loopState128 (partOf i s.len.toNat) s.launch
            (2 * pairs128 (partOf i s.len.toNat).n) r') =
            hash128Tail s.msg ((partOf i s.len.toNat).base + (partOf i s.len.toNat).n)
              ((partOf i s.len.toNat).n % 128) r' := by
          have e : (engineOf i).tail = long128Tail := by rcases hi with rfl | rfl <;> rfl
          have hlt := s.len.isLt
          have e1 : 2 * pairs128 (partOf i s.len.toNat).n / 2 = (partOf i s.len.toNat).n / 128 := by
            unfold pairs128; omega
          have e2 : (loopState128 (partOf i s.len.toNat) s.launch
            (2 * pairs128 (partOf i s.len.toNat).n) r').rem.toNat = (partOf i s.len.toNat).n % 128 := by
            show (word64 ((partOf i s.len.toNat).n - 128 * (2 * pairs128 (partOf i s.len.toNat).n / 2))).toNat = _
            rw [e1, word64_toNat (by omega)]; omega
          have e3 : (loopState128 (partOf i s.len.toNat) s.launch
            (2 * pairs128 (partOf i s.len.toNat).n) r').pos.toNat =
              (partOf i s.len.toNat).base + 64 * (2 * pairs128 (partOf i s.len.toNat).n) := by
            show (word64 _).toNat = _
            rw [word64_toNat (by unfold pairs128; omega)]
          rw [e]
          unfold long128Tail
          rw [e2, e3]
          show hash128Tail s.msg _ _ r' = _
          congr 1
          unfold pairs128; omega
        rw [ht] at this
        exact this

theorem partUnseeded_total (n : Nat) : (partUnseeded n).base + (partUnseeded n).n = n := by
  unfold partUnseeded
  split
  · simp; omega
  · simp

theorem short128_false {c : Cuts} {n : Nat} (h : short128 c n = false) : 128 ≤ n := by
  have : 127 ≤ c.cut128FinMax := by unfold Cuts.cut128FinMax; split <;> omega
  simp only [short128, decide_eq_false_iff_not] at h
  omega

/-- The phases of a command compute its function, in the number of steps of R195. -/
theorem command_run (i : Instr) (s : State) :
    Computes s (commandValue i s)
      (runPhases (engineOf i) (commandSteps s.cuts i s.len.toNat) s.launch) := by
  cases hs : takesShortPath s.cuts i s.len.toNat with
  | true =>
    have := short_run i s hs
    rw [commandSteps, if_pos hs]
    have e : (engineOf i).short (s.launch.enterShort ((engineOf i).part s.launch)) = commandValue i s := by
      cases i
      case hash32 =>
        show (hash32Short s.msg).bind _ = (hash32 s.msg).bind _
        rw [hash32, if_pos (show short32 s.msg.len = true from hs)]
      case hash64 =>
        show (hash64Short s.cuts s.msg).bind _ = (hash64 s.cuts s.msg).bind _
        rw [hash64, if_pos (show short64 s.msg.len = true from hs)]
      case hash64s =>
        show (hash64Short s.cuts s.msg).bind _ = (hash64 s.cuts s.msg).bind _
        rw [hash64, if_pos (show short64 s.msg.len = true from hs)]; rfl
      case hash64ss =>
        show (hash64Short s.cuts s.msg).bind _ = (hash64 s.cuts s.msg).bind _
        rw [hash64, if_pos (show short64 s.msg.len = true from hs)]; rfl
      case hash128 =>
        show (seedsUnseeded s.msg).bind _ = (seedsUnseeded s.msg).bind _
        congr 1; funext sd
        show finisher s.cuts s.msg _ sd = hash128WithSeed s.cuts s.msg _ sd
        rw [hash128WithSeed]
        rw [show short128 s.cuts (partUnseeded s.msg.len).n = true from hs, if_pos rfl]
        rfl
      case hash128s =>
        show finisher s.cuts s.msg _ _ = hash128WithSeed s.cuts s.msg _ _
        rw [hash128WithSeed, show short128 s.cuts (partWhole s.len.toNat).n = true from hs, if_pos rfl]
        rfl
    rwa [e] at this
  | false =>
    rw [commandSteps, if_neg (by simp [hs])]
    cases i
    case hash32 =>
      have h : 24 < s.len.toNat := by
        simp only [takesShortPath, short32, decide_eq_false_iff_not] at hs; omega
      have := long_run32 s h
      show Computes _ ((hash32 s.msg).bind _) _
      rw [hash32, show short32 s.msg.len = false from hs]
      exact this
    case hash64 =>
      have h : 64 < s.len.toNat := by
        simp only [takesShortPath, short64, decide_eq_false_iff_not] at hs; omega
      have := long_run64 .hash64 (by simp) s h id (fun u _ _ => rfl)
      show Computes _ ((hash64 s.cuts s.msg).bind _) _
      rw [hash64, show short64 s.msg.len = false from hs]
      exact this
    case hash64s =>
      have h : 64 < s.len.toNat := by
        simp only [takesShortPath, short64, decide_eq_false_iff_not] at hs; omega
      have := long_run64 .hash64s (by simp) s h (seedOne s.seed0) (fun u h0 _ => by rw [← h0]; rfl)
      show Computes _ ((hash64 s.cuts s.msg).bind _) _
      rw [hash64, show short64 s.msg.len = false from hs]
      exact this
    case hash64ss =>
      have h : 64 < s.len.toNat := by
        simp only [takesShortPath, short64, decide_eq_false_iff_not] at hs; omega
      have := long_run64 .hash64ss (by simp) s h (seedTwo s.seed0 s.seed1)
        (fun u h0 h1 => by rw [← h0, ← h1]; rfl)
      show Computes _ ((hash64 s.cuts s.msg).bind _) _
      rw [hash64, show short64 s.msg.len = false from hs]
      exact this
    case hash128 =>
      have hn := short128_false hs
      have := long_run128 .hash128 (by simp) s hs (seedsUnseeded s.msg) rfl
        (fun u hu => by
          show long128Block (partUnseeded u.len.toNat).base u = _
          rw [hu]; rfl)
        (partUnseeded_total _) hn
      show Computes _ ((seedsUnseeded s.msg).bind _) _
      have e : (fun sd => hash128WithSeed s.cuts s.msg (partUnseeded s.msg.len) sd) =
          fun sd => hash128Long s.msg (partOf .hash128 s.len.toNat) sd := by
        funext sd
        rw [hash128WithSeed, show short128 s.cuts (partUnseeded s.msg.len).n = false from hs]
        rfl
      rw [e]
      exact this
    case hash128s =>
      have hn := short128_false hs
      have := long_run128 .hash128s (by simp) s hs (.ok (seedsOperand s)) rfl
        (fun u hu => by
          show long128Block (partWhole u.len.toNat).base u = _
          rw [hu]; rfl)
        (Nat.zero_add _) hn
      show Computes _ (hash128WithSeed _ _ _ _) _
      rw [hash128WithSeed, show short128 s.cuts (partWhole s.len.toNat).n = false from hs]
      exact this

theorem partUnseeded_le (n : Nat) : (partUnseeded n).n ≤ n := by
  have := partUnseeded_total n; omega

/-- The bound of a run is above the number of steps. -/
theorem commandSteps_le (c : Cuts) (i : Instr) (len : Nat) : commandSteps c i len ≤ len + 3 := by
  unfold commandSteps
  split
  · omega
  · have := partUnseeded_le len
    cases i <;> simp only [loopSteps] <;> omega

/-- A run that has reached IDLE does not go on. -/
theorem Computes.mono {j : Instr} {s u : State} {v : Except Fault Pair} {k k' : Nat} (hk : k ≤ k')
    (h : Computes s v (runPhases (engineOf j) k u)) : Computes s v (runPhases (engineOf j) k' u) := by
  obtain ⟨d, rfl⟩ := Nat.exists_eq_add_of_le hk
  rw [runPhases_add]
  cases v with
  | error f => rw [show runPhases (engineOf j) k u = .error f from h]; exact rfl
  | ok r =>
    obtain ⟨t, ht, he⟩ := h
    rw [ht]
    exact ⟨t, runPhases_idle _ _ he.phase, he⟩

/-- Everything `exec` can do: stop where the command's function stops, or leave the function's value. -/
theorem exec_cases (i : Instr) (s : State) :
    (∃ f, commandValue i s = .error f ∧ exec i s = .fault f) ∨
    (∃ r t, commandValue i s = .ok r ∧ exec i s = .next t ∧ CommandEnd s r t) := by
  have h := (command_run i s).mono (commandSteps_le s.cuts i s.len.toNat)
  rw [exec_eq_runCommand, runCommand]
  cases hv : commandValue i s with
  | error f =>
    rw [hv] at h
    exact .inl ⟨f, rfl, by rw [show runPhases _ _ _ = _ from h]; rfl⟩
  | ok r =>
    rw [hv] at h
    obtain ⟨t, ht, he⟩ := h
    exact .inr ⟨r, t, rfl, by rw [ht]; rfl, he⟩

theorem exec_next {i : Instr} {s t : State} (h : exec i s = .next t) :
    ∃ r, commandValue i s = .ok r ∧ CommandEnd s r t := by
  rcases exec_cases i s with ⟨f, _, he⟩ | ⟨r, u, hv, he, hc⟩
  · rw [he] at h; cases h
  · rw [he] at h; cases h; exact ⟨r, hv, hc⟩

theorem exec_of_value {i : Instr} {s : State} {r : Pair} (h : commandValue i s = .ok r) :
    ∃ t, exec i s = .next t ∧ CommandEnd s r t := by
  rcases exec_cases i s with ⟨f, hv, _⟩ | ⟨r', t, hv, he, hc⟩
  · rw [hv] at h; cases h
  · rw [hv] at h; cases h; exact ⟨t, he, hc⟩

/-! ### What stops the function of a command, and what it sees -/

theorem hash32Blocks_stops {m : Msg} (k : Nat) {p : Nat} (a : Acc32) (h : p + 20 * k ≤ m.len) :
    StopsUnplaced m (hash32Blocks m k p a) := by
  induction k generalizing p a with
  | zero => exact .ok _
  | succ k ih => exact .bind (hash32Block_stops _ (by omega)) fun _ => ih _ (by omega)

theorem hash32_stops (m : Msg) : StopsUnplaced m (hash32 m) := by
  refine .ite (fun _ => hash32Short_stops m) fun h => ?_
  simp only [short32, decide_eq_true_eq] at h
  refine .bind (hash32Init_stops (by omega)) fun _ => .bind (hash32Blocks_stops _ _ ?_) fun _ => .ok _
  unfold blocks32
  omega

theorem hash64_stops (cuts : Cuts) (m : Msg) : StopsUnplaced m (hash64 cuts m) := by
  refine .ite (fun _ => hash64Short_stops cuts m) fun h => ?_
  simp only [short64, decide_eq_true_eq] at h
  refine .bind (hash64Init_stops (by omega)) fun _ => .bind (blockSteps_stops _ _ _ ?_) fun _ => .ok _
  unfold blocks64
  omega

theorem hash128WithSeed_stops (cuts : Cuts) {m : Msg} {p : Part} (seeds : Pair)
    (h : p.base + p.n ≤ m.len) : StopsUnplaced m (hash128WithSeed cuts m p seeds) := by
  refine .ite (fun _ => finisher_stops cuts seeds h) fun hs => ?_
  have hn := short128_false (by simpa using hs)
  refine .bind (hash128Init_stops seeds h hn) fun _ => .bind (blockSteps_stops _ _ _ ?_) fun _ =>
    hash128Tail_stops _ h (by omega)
  unfold pairs128
  omega

/-- The function of a command stops, if at all, on a byte of the message that is not placed (R44). -/
theorem commandValue_stops (i : Instr) (s : State) : StopsUnplaced s.msg (commandValue i s) := by
  cases i
  case hash32 => exact .bind (hash32_stops _) fun _ => .ok _
  case hash64 => exact .bind (hash64_stops _ _) fun _ => .ok _
  case hash64s => exact .bind (hash64_stops _ _) fun _ => .ok _
  case hash64ss => exact .bind (hash64_stops _ _) fun _ => .ok _
  case hash128 =>
    exact .bind (seedsUnseeded_stops _) fun sd =>
      hash128WithSeed_stops _ sd (le_of_eq (partUnseeded_total _))
  case hash128s => exact hash128WithSeed_stops _ _ (le_of_eq (Nat.zero_add _))

/-- The function of a command sees the message, the open parameters and the seeds of its format (R21). -/
theorem commandValue_congr (i : Instr) {s s' : State} (hm : s.msg.Same s'.msg) (hc : s.cuts = s'.cuts)
    (h0 : i.format.readsSeed0 = true → s.seed0 = s'.seed0)
    (h1 : i.format.readsSeed1 = true → s.seed1 = s'.seed1) :
    commandValue i s = commandValue i s' := by
  cases i
  case hash32 => simp only [commandValue, hash32_congr hm]
  case hash64 => simp only [commandValue, hc, hash64_congr hm]
  case hash64s => simp only [commandValue, hc, hash64_congr hm, h0 rfl]
  case hash64ss => simp only [commandValue, hc, hash64_congr hm, h0 rfl, h1 rfl]
  case hash128 => simp only [commandValue, hc, hash128_congr hm]
  case hash128s =>
    have hl : s.len.toNat = s'.len.toNat := hm.1
    simp only [commandValue, seedsOperand, hc, hash128WithSeed_congr hm, h0 rfl, h1 rfl, hl]

end Sys2Proof.Machine
end

