-- ==== Sys2Proof/Laws/PerInstr.lean ====
section
/-! SUPPORT. Statements made once per instruction.  Family `TableWord`: the descriptor the encoder writes,
read back by the opcode table's own bit numbering, is the instruction (30_encoding.md R60, R61). -/

namespace Sys2Proof.Laws.TableWord

/-- The descriptor byte is legal, its `RSV` field is zero, and the table's numbering of
its 8 bits reads it as this instruction. -/
def Statement (i : Instr) : Prop :=
  i.wellFormed = true ∧ rsvField (encode i) = 0#5 ∧ decodeTableWord 8 (encode i).toNat = some i

theorem hash32 : Statement .hash32 := by unfold Statement; decide
theorem hash64 : Statement .hash64 := by unfold Statement; decide
theorem hash64s : Statement .hash64s := by unfold Statement; decide
theorem hash64ss : Statement .hash64ss := by unfold Statement; decide
theorem hash128 : Statement .hash128 := by unfold Statement; decide
theorem hash128s : Statement .hash128s := by unfold Statement; decide

end Sys2Proof.Laws.TableWord
end

