-- ==== Sys2Proof/Laws/Steps.lean ====
section
/-! SUPPORT. What surrounds a command: everything CORE's own step, a START, a host read and a step of the machine
can do, said once; and a run of CORE's own steps as a run of the command's phases. -/

namespace Sys2Proof.Machine

/-! ### What the pieces of a step can do -/

theorem outcomeOf_next {e : Except Fault State} {t : State} (h : outcomeOf e = .next t) :
    e = .ok t := by
  cases e with
  | ok s => cases h; rfl
  | error f => cases h

/-- Everything CORE's own step can do (R27, R173, R190). -/
theorem coreStep_cases {s t : State} (h : coreStep s = .next t) :
    (t = s ∧ (s.status = .busy → ∃ r, decode s.cmd = .error r)) ∨
    (s.status = .busy ∧ ∃ i, decode s.cmd = .ok i ∧ phaseStep (engineOf i) s = .ok t) := by
  unfold coreStep at h
  split at h
  · rename_i hs; cases h; exact .inl ⟨rfl, fun hb => by rw [hs] at hb; cases hb⟩
  · rename_i hs; cases h; exact .inl ⟨rfl, fun hb => by rw [hs] at hb; cases hb⟩
  · rename_i hs
    split at h
    · rename_i i hi; exact .inr ⟨hs, i, hi, outcomeOf_next h⟩
    · rename_i r hr; cases h; exact .inl ⟨rfl, fun _ => ⟨r, hr⟩⟩

/-- Everything a START can do (R172, R173, R181). -/
theorem onStart_cases {accept : Instr → State → Host.Outcome State Fault Refusal} {s : State}
    {o : Host.Outcome State Fault Refusal} (h : onStart accept s = o) :
    (s.status = .busy ∧ o = .next s) ∨
    (s.status ≠ .busy ∧ (∃ r, decode s.cmd = .error r) ∧ o = .next s.refuse) ∨
    (s.status ≠ .busy ∧ ∃ i, decode s.cmd = .ok i ∧ o = accept i s) := by
  unfold onStart at h
  split at h
  · rename_i hs; exact .inl ⟨hs, h.symm⟩
  · rename_i hs
    split at h
    · rename_i r hr; exact .inr (.inl ⟨hs, ⟨r, hr⟩, h.symm⟩)
    · rename_i i hi; exact .inr (.inr ⟨hs, i, hi, h.symm⟩)

theorem onStart_accepts (accept : Instr → State → Host.Outcome State Fault Refusal) {s : State}
    {i : Instr} (hs : s.status ≠ .busy) (hi : decode s.cmd = .ok i) :
    onStart accept s = accept i s := by
  rcases onStart_cases (rfl : onStart accept s = _) with ⟨h, _⟩ | ⟨_, ⟨r, h⟩, _⟩ | ⟨_, j, h, e⟩
  · exact absurd h hs
  · rw [hi] at h; cases h
  · rw [hi] at h; cases h; exact e

/-- A host read changes the word read and, for an unspecified result, the free-draw counter; nothing else
(R173, R192). -/
theorem hostRead_cases (reg : HostReg) (s : State) :
    ∃ v k, hostRead reg s = { s with hostData := v, free := k } := by
  have result (v : W64) : ∃ w k, readResult v s = { s with hostData := w, free := k } := by
    unfold readResult
    split <;> exact ⟨_, _, rfl⟩
  cases reg with
  | resLo => exact result s.resLo
  | resHi => exact result s.resHi
  | cmd => exact ⟨_, _, rfl⟩
  | len => exact ⟨_, _, rfl⟩
  | seed0 => exact ⟨_, _, rfl⟩
  | seed1 => exact ⟨_, _, rfl⟩
  | status => exact ⟨_, _, rfl⟩

/-- Everything a step can do when it answers a next state, one alternative per host action. -/
theorem step_cases {s t : State} (h : step s = .next t) :
    (s.script = [] ∧ coreStep s = .next t) ∨
    (∃ rest, s.script = .idle :: rest ∧ coreStep (s.popScript rest) = .next t) ∨
    (∃ reg v rest, s.script = .write reg v :: rest ∧ t = hostWrite reg v (s.popScript rest)) ∨
    (∃ reg rest v k, s.script = .read reg :: rest ∧
      t = { s.popScript rest with hostData := v, free := k }) ∨
    (∃ off bytes rest, s.script = .place off bytes :: rest ∧
      t = hostPlace off bytes (s.popScript rest)) ∨
    (∃ rest, s.script = .start :: rest ∧ onStart acceptStart (s.popScript rest) = .next t) ∨
    (∃ rest u, s.script = .startTogether :: rest ∧ coreStep (s.popScript rest) = .next u ∧
      onStart acceptStart u = .next t) ∨
    (∃ rest, s.script = .waitDone :: rest ∧ s.status = .done ∧ t = s.popScript rest) ∨
    (∃ rest, s.script = .waitDone :: rest ∧ s.status ≠ .done ∧ coreStep s = .next t) ∨
    (∃ rest, s.script = .call :: rest ∧ onStart exec (s.popScript rest) = .next t) ∨
    (∃ rest, s.script = .reset :: rest ∧ t = hostReset (s.popScript rest)) := by
  unfold step at h
  split at h
  · rename_i hs; exact .inl ⟨hs, h⟩
  · rename_i move rest hs
    refine .inr ?_
    cases move with
    | idle => exact .inl ⟨rest, hs, h⟩
    | write reg v => cases h; exact .inr (.inl ⟨reg, v, rest, hs, rfl⟩)
    | read reg =>
      obtain ⟨v, k, hv⟩ := hostRead_cases reg (s.popScript rest)
      cases h
      exact .inr (.inr (.inl ⟨reg, rest, v, k, hs, hv⟩))
    | place off bytes => cases h; exact .inr (.inr (.inr (.inl ⟨off, bytes, rest, hs, rfl⟩)))
    | start => exact .inr (.inr (.inr (.inr (.inl ⟨rest, hs, h⟩))))
    | startTogether =>
      simp only [hostStep] at h
      split at h
      · rename_i u hu; exact .inr (.inr (.inr (.inr (.inr (.inl ⟨rest, u, hs, hu, h⟩)))))
      · cases h
      · cases h
    | waitDone =>
      simp only [hostStep] at h
      split at h
      · rename_i hd; cases h
        exact .inr (.inr (.inr (.inr (.inr (.inr (.inl ⟨rest, hs, hd, rfl⟩))))))
      · rename_i hd
        exact .inr (.inr (.inr (.inr (.inr (.inr (.inr (.inl ⟨rest, hs, hd, h⟩)))))))
    | call => exact .inr (.inr (.inr (.inr (.inr (.inr (.inr (.inr (.inl ⟨rest, hs, h⟩))))))))
    | reset =>
      cases h
      exact .inr (.inr (.inr (.inr (.inr (.inr (.inr (.inr (.inr ⟨rest, hs, rfl⟩))))))))

/-- No step answers a refusal. -/
theorem exec_never_refuses (i : Instr) (s : State) (r : Refusal) : exec i s ≠ .refused r := by
  rcases exec_cases i s with ⟨f, _, h⟩ | ⟨_, t, _, h, _⟩ <;> rw [h] <;> simp

theorem coreRun_next (M : Host.Core) {s t : M.State} (k : Nat) (h : M.step s = .next t) :
    M.run (k + 1) s = M.run k t := by simp only [Host.Core.run, h]

theorem coreRun_fault (M : Host.Core) {s : M.State} {f : M.Fault} (k : Nat)
    (h : M.step s = .fault f) : M.run (k + 1) s = .fault f := by simp only [Host.Core.run, h]

/-- One step of a run. -/
theorem run_succ_next {s t : State} (k : Nat) (h : step s = .next t) :
    Host.Core.run core (k + 1) s = Host.Core.run core k t := coreRun_next core k h

theorem run_succ_fault {s : State} {f : Fault} (k : Nat) (h : step s = .fault f) :
    Host.Core.run core (k + 1) s = .fault f := coreRun_fault core k h

/-- A run of CORE's own steps is a run of the command's phases. -/
theorem run_eq_runPhases {s : State} {i : Instr} (hscript : s.script = [])
    (hi : decode s.cmd = .ok i) (hinv : s.phase = .idle ↔ s.status ≠ .busy) (k : Nat) :
    Host.Core.run core k s = outcomeOf (runPhases (engineOf i) k s) := by
  induction k generalizing s with
  | zero => rfl
  | succ k ih =>
    have hstep : step s = coreStep s := by unfold step; rw [hscript]
    by_cases hp : s.phase = .idle
    · have hb := hinv.mp hp
      have hc : coreStep s = .next s := by
        unfold coreStep; split <;> first | rfl | (exfalso; simp_all)
      rw [runPhases_idle _ _ hp]
      rw [run_succ_next k (hstep.trans hc), ih hscript hi hinv, runPhases_idle _ _ hp]
    · have hb : s.status = .busy := by
        by_contra hb; exact hp (hinv.mpr hb)
      have hc : coreStep s = outcomeOf (phaseStep (engineOf i) s) := by
        unfold coreStep; rw [hb]; simp only [hi]
      rw [runPhases_succ _ _ hp]
      cases hps : phaseStep (engineOf i) s with
      | error f => exact run_succ_fault k (by rw [hstep, hc, hps]; rfl)
      | ok t =>
        have hso := phaseStep_sameOperands hps
        have hst := phaseStep_status hps
        rw [run_succ_next k (by rw [hstep, hc, hps]; rfl)]
        show Host.Core.run core k t = outcomeOf (runPhases (engineOf i) k t)
        apply ih (hso.script.trans hscript) (by rw [hso.cmd, hi])
        rcases hst with ⟨_, h1, h2⟩ | ⟨_, _, h1, h2, _⟩
        · simp [h1, h2]
        · rw [h1, hb]; simp; exact fun h => hp (h2 h)

/-- While BUSY with an empty host program a step is one step of the running command (R27, R173). -/
theorem step_busy {s : State} {i : Instr} (hs : s.script = []) (hb : s.status = .busy)
    (hi : decode s.cmd = .ok i) : step s = outcomeOf (phaseStep (engineOf i) s) := by
  unfold step
  rw [hs]
  show coreStep s = _
  unfold coreStep
  rw [hb]
  simp only [hi]

end Sys2Proof.Machine
end

