-- ==== Sys2Proof/Tests/Slice0.lean ====
section
/-! SUPPORT. The model's own tests: ill-formed descriptors are refused, descriptors written bit by bit decode,
one-step tests with the values of spec/95_test_vectors.md, and for every obligation with hypotheses a state
that meets them. -/

open Sys2Proof Sys2Proof.Machine

namespace Sys2Proof.Tests

/-! ### Helpers -/

/-- The named message `IOTA` of 95_test_vectors.md: byte `i` is `i mod 256`. -/
def iota (i : Nat) : Byte := BitVec.ofNat 8 i

/-- The reset state with `IOTA(n)` placed and `LEN = n`. -/
def iotaState (n : Nat) : State :=
  { State.reset with
    len := BitVec.ofNat 64 n
    mem := Memory.place [] 0 ((List.range n).map iota) }

/-- The reset state with given bytes placed and `LEN` their number. -/
def bytesState (bytes : List Byte) : State :=
  { State.reset with
    len := BitVec.ofNat 64 bytes.length
    mem := Memory.place [] 0 bytes }

/-- `(RES_LO, RES_HI)` after a step that answers a next state. -/
def results (o : Host.Outcome State Fault Refusal) : Option (W64 × W64) :=
  match o with
  | .next t => some (t.resLo, t.resHi)
  | .fault _ => none
  | .refused _ => none

/-- `STATUS` after a step that answers a next state. -/
def statusAfter (o : Host.Outcome State Fault Refusal) : Option Status :=
  match o with
  | .next t => some t.status
  | .fault _ => none
  | .refused _ => none

/-- The rolling state after a step that answers a next state. -/
def rollAfter (o : Host.Outcome State Fault Refusal) : Option Rolling :=
  match o with
  | .next t => some t.roll
  | .fault _ => none
  | .refused _ => none

/-! ### Well-formedness and decoding -/

/-- R65: `RSV` must be zero: `0x08` and `0x85` are ill formed, whatever their `OP`. -/
theorem test_wellformed_refuses_reserved_bits :
    cmdWellFormed 0x08#8 = false ∧ cmdWellFormed 0x85#8 = false ∧
      decode 0x85#8 = .error (.reservedBits 0b10000#5) := by decide

/-- R65: `OP` 6 and 7 are ill formed. -/
theorem test_wellformed_refuses_reserved_ops :
    cmdWellFormed 0x06#8 = false ∧ cmdWellFormed 0x07#8 = false ∧
      decode 0x06#8 = .error (.reservedOp 6#3) ∧ decode 0x07#8 = .error (.reservedOp 7#3) := by decide

/-- R60, R61: descriptors written bit by bit, `RSV` then `OP`. -/
theorem test_decode_bit_by_bit :
    decode (0b00000#5 ++ 0b000#3) = .ok .hash32 ∧ decode (0b00000#5 ++ 0b001#3) = .ok .hash64 ∧
    decode (0b00000#5 ++ 0b010#3) = .ok .hash64s ∧ decode (0b00000#5 ++ 0b011#3) = .ok .hash64ss ∧
    decode (0b00000#5 ++ 0b100#3) = .ok .hash128 ∧ decode (0b00000#5 ++ 0b101#3) = .ok .hash128s := by
  decide

/-- The table's numbering, and a reserved descriptor. -/
theorem test_decode_table_word :
    decodeTableWord 8 0x03 = some .hash64ss ∧ decodeTableWord 8 0x06 = none ∧
      decodeTableWord 8 0x0d = none := by decide

/-! ### Primitives (95_test_vectors.md section 2) -/

theorem test_rotations :
    rotr32 0x80000001#32 0 = 0x80000001#32 ∧ rotr32 0x80000001#32 31 = 0x00000003#32 ∧
    rotr32 0xcc9e2d51#32 17 = 0x16a8e64f#32 ∧ rotr64 0x0123456789abcdef#64 8 = 0xef0123456789abcd#64 := by
  decide

theorem test_shiftMix :
    shiftMix 0x0000800000000000#64 = 0x0000800000000001#64 ∧
    shiftMix 0xffffffffffffffff#64 = 0xfffffffffffe0000#64 := by decide

theorem test_hashLen16 :
    hashLen16 0#64 1#64 = 0xf4ff80ec63c103d4#64 ∧ hashLen16 1#64 0#64 = 0xb91445ce692f0ce5#64 ∧
    hashLen16WithMul 1#64 2#64 0x9ae16a3b2f90406f#64 = 0xd5cef07d51b09245#64 := by decide

theorem test_bswap :
    bswap32 0x12345678#32 = 0x78563412#32 ∧ bswap64 0x0123456789abcdef#64 = 0xefcdab8967452301#64 := by
  decide

theorem test_fmix32_mur32 :
    fmix32 0xdeadbeef#32 = 0x0de5c6a9#32 ∧ mur32 1#32 0#32 = 0x26cf0576#32 ∧
    mur32 0xffffffff#32 0xffffffff#32 = 0xb849f5ee#32 := by decide

theorem test_weakHash32 :
    weakHash32 1#64 2#64 3#64 4#64 5#64 6#64 =
      { lo := 0x000000000000000f#64, hi := 0x0000800000b00006#64 } := by decide

/-! ### One command, one step (95_test_vectors.md sections 1.1, 3) -/

/-- Section 3.2: the byte is sign-extended. -/
theorem test_hash32_sign_extends :
    results (exec .hash32 (bytesState [0x80#8])) = some (0x2fc8696b#64, 0#64) := by decide +kernel

/-- Section 3.1: the long path, two block steps. -/
theorem test_hash32_long :
    results (exec .hash32 (iotaState 41)) = some (0x7044f7ca#64, 0#64) := by decide +kernel

/-- Section 3.3: 8 bytes with the default cut. -/
theorem test_hash64_eight_bytes :
    results (exec .hash64 (iotaState 8)) = some (0xcc22c862386de225#64, 0#64) := by decide +kernel

/-- Section 3.3: the long path, one block step. -/
theorem test_hash64_long :
    results (exec .hash64 (iotaState 65)) = some (0xac589c990483dd2e#64, 0#64) := by decide +kernel

/-- Section 1.1: the value XC prints for the empty message. -/
theorem test_hash64s_empty :
    results (exec .hash64s { iotaState 0 with seed0 := 1234567#64 }) =
      some (0x75106db890237a4a#64, 0#64) := by decide +kernel

/-- Section 3.4. -/
theorem test_hash64s_middle :
    results (exec .hash64s { iotaState 33 with seed0 := 1234567#64 }) =
      some (0x2b09580dce4e14fd#64, 0#64) := by decide +kernel

/-- Section 3.8: "abc". -/
theorem test_hash64ss_abc :
    results (exec .hash64ss { bytesState [0x61#8, 0x62#8, 0x63#8] with
      seed0 := 1234567#64, seed1 := 0xc3a5c85c97cb3127#64 }) =
      some (0x04e201137fc3de63#64, 0#64) := by decide +kernel

/-- Section 3.4. -/
theorem test_hash64ss_seventeen :
    results (exec .hash64ss { iotaState 17 with
      seed0 := 1234567#64, seed1 := 0xc3a5c85c97cb3127#64 }) =
      some (0x70f4aca038c74aef#64, 0#64) := by decide +kernel

/-- Section 1.1: the pair XC prints for the empty message. -/
theorem test_hash128_empty :
    results (exec .hash128 (iotaState 0)) =
      some (0x3df09dfc64c09a2b#64, 0x3cb540c392e51e29#64) := by decide +kernel

/-- Section 3.6: the first 16 bytes are the seed. -/
theorem test_hash128_part :
    results (exec .hash128 (iotaState 33)) =
      some (0x000e6231c59d57c9#64, 0xdd7bc7669361e16e#64) := by decide +kernel

/-- Section 3.7: 16 bytes with the cut `CUT128_SHORT_MAX` at its alternative. -/
theorem test_hash128s_cut :
    results (exec .hash128s { iotaState 16 with
      seed0 := 1#64, seed1 := 2#64, cuts := { Cuts.xc with short16 := true } }) =
      some (0xd76fa5d8d82d3071#64, 0xfb3d700edcf0b977#64) := by decide +kernel

/-- Section 3.5: the block-loop path, one tail pass that re-reads consumed bytes; section 3.7: 128 bytes with
the cut `CUT128_FIN_MAX` at its alternative. -/
theorem test_hash128s_loop :
    results (exec .hash128s { iotaState 129 with seed0 := 1#64, seed1 := 2#64 }) =
      some (0x9887ec3dbc358f5e#64, 0x58ac2274b0bf6ef0#64) ∧
    results (exec .hash128s { iotaState 128 with
      seed0 := 1#64, seed1 := 2#64, cuts := { Cuts.xc with loop128 := true } }) =
      some (0xb5a40790dca0465e#64, 0x716154637719918f#64) := by decide +kernel

/-- Section 2: `blockStep` from a small state, as one step of CORE. -/
theorem test_blockStep :
    (rollAfter (step { iotaState 64 with
      cmd := 0x01#8, status := .busy, phase := .longLoop, rem := 64#64
      roll := { x := 1#64, y := 2#64, z := 3#64, v0 := 4#64, v1 := 5#64, w0 := 6#64, w1 := 7#64 } })).map
        (fun r => (r.x, r.y, r.z, r.v0, r.v1)) =
      some (0xd9b0430580000000#64, 0xe52000a35ca4c983#64, 0x4f742a77e61ccebf#64,
        0xd325d46ef534f06f#64, 0xb03a1ec3e06033a3#64) := by decide +kernel

/-! ### The host's protocol (60_exceptions.md, 70_reset_and_hazards.md) -/

/-- R172: a START with `CMD = 0x06` leaves STATUS as it was. -/
theorem test_reserved_start :
    statusAfter (step { State.reset with cmd := 0x06#8, script := [.start] }) = some .idle := by decide

/-- R173: an accepted START. -/
theorem test_start_accepted :
    statusAfter (step { State.reset with script := [.start] }) = some .busy := by decide

/-- The placing of an instruction makes the very next step run it: HASH64 of the empty message. -/
theorem test_withFetchWord :
    results (step (State.reset.withFetchWord 8 0x01)) = some (0x9ae16a3b2f90404f#64, 0#64) := by
  decide +kernel

/-- R23, R192: a result read before the first completion goes on and leaves `RES_LO` as it was; the word read
is open, so nothing is tested of it. -/
theorem test_result_before_done :
    results (step { State.reset with resLo := 5#64, script := [.read .resLo] }) = some (5#64, 0#64) := rfl

/-- R46, R191: a command whose message is not placed stops on its first byte. -/
theorem test_unplaced_message :
    exec .hash32 { State.reset with len := 1#64 } = .fault (.unplaced 101 0) := rfl

/-! ### Witnesses: states that meet the hypotheses of the obligations

One theorem per obligation with hypotheses, named after it, at boundary values of its clauses.  The state
`iotaState n` has `IOTA(n)` placed. -/

theorem iota_len {n : Nat} (h : n < 2 ^ 64) : (iotaState n).len.toNat = n := by
  show (BitVec.ofNat 64 n).toNat = n
  rw [BitVec.toNat_ofNat, Nat.mod_eq_of_lt h]

theorem iota_bytes {n : Nat} (h : n < 2 ^ 64) : (iotaState n).msg.Bytes iota := by
  intro off hoff
  have hoff : off < n := by rw [← iota_len h]; exact hoff
  show Memory.find (Memory.place [] 0 ((List.range n).map iota)) off = some (iota off)
  rw [Memory.find_place, if_pos (by simp; omega)]
  simp [hoff]

theorem iota_placed {n : Nat} (h : n < 2 ^ 64) : (iotaState n).msg.Placed := (iota_bytes h).placed

/-- Every command answers a next state on `IOTA(n)`. -/
theorem iota_exec (i : Instr) {n : Nat} (h : n < 2 ^ 64) : ∃ t, exec i (iotaState n) = .next t := by
  obtain ⟨r, hr⟩ := (commandValue_stops i (iotaState n)).total (iota_placed h)
  obtain ⟨t, ht, _⟩ := exec_of_value hr
  exact ⟨t, ht⟩

theorem decode_encode (i : Instr) : decode (encode i) = .ok i := by cases i <;> rfl

/-- `iotaState n` with a command running in a phase, `POS` and `REM` given. -/
def running (n : Nat) (cmd : Byte) (p : Phase) (pos rem : Nat) : State :=
  { iotaState n with
    cmd := cmd, status := .busy, phase := p, pos := BitVec.ofNat 64 pos, rem := BitVec.ofNat 64 rem }

theorem running_bytes {n : Nat} (h : n < 2 ^ 64) (cmd : Byte) (p : Phase) (pos rem : Nat) :
    (running n cmd p pos rem).msg.Bytes iota := iota_bytes h

/-- `iotaState n` before a START of the command `cmd`. -/
def beforeStart (n : Nat) (cmd : Byte) : State :=
  { iotaState n with cmd := cmd, script := [.start] }

theorem beforeStart_placed {n : Nat} (h : n < 2 ^ 64) (cmd : Byte) : (beforeStart n cmd).msg.Placed :=
  iota_placed h

theorem test_witness_MixersExact : (iotaState 32).msg.Bytes iota ∧ 0 + 32 ≤ (iotaState 32).msg.len :=
  ⟨iota_bytes (by decide), by decide⟩

theorem test_witness_ReadsAreLittleEndian :
    (iotaState 8).msg.Bytes iota ∧ 7 + 1 ≤ (iotaState 8).msg.len ∧ 4 + 4 ≤ (iotaState 8).msg.len ∧
      0 + 8 ≤ (iotaState 8).msg.len := ⟨iota_bytes (by decide), by decide, by decide, by decide⟩

theorem test_witness_ReadPastMessageFaults :
    (iotaState 8).msg.len < 1 + 8 ∧ (iotaState 8).msg.len < 8 + 1 := by decide

theorem test_witness_DecodeEncodeRoundTrip : decode 0x05#8 = .ok .hash128s := rfl

theorem test_witness_RotationsMoveBits : (0 < 32 ∧ 31 < 32) ∧ 0 < 64 ∧ 63 < 64 := by decide

theorem test_witness_BswapReversesBytes : 0 < 4 ∧ 3 < 4 ∧ 0 < 8 ∧ 7 < 8 := by decide

theorem test_witness_ShiftMixKeepsTopBits :
    (0x00007fffffffffff#64).toNat < 2 ^ 47 ∧ 17 ≤ 17 ∧ 63 < 64 := by decide

theorem test_witness_Hash32UpTo4Bytes :
    ∀ n, n ∈ [0, 1, 4] → (iotaState n).msg.Bytes iota ∧ (iotaState n).len.toNat ≤ 4 := by
  intro n h
  have hn : n ≤ 4 := by simp at h; omega
  exact ⟨iota_bytes (by omega), by rw [iota_len (by omega)]; exact hn⟩

theorem test_witness_Hash32From5To12Bytes :
    ∀ n, n ∈ [5, 7, 8, 12] → (iotaState n).msg.Bytes iota ∧ 5 ≤ (iotaState n).len.toNat ∧
      (iotaState n).len.toNat ≤ 12 := by
  intro n h
  have hn : 5 ≤ n ∧ n ≤ 12 := by simp at h; omega
  rw [iota_len (by omega)]
  exact ⟨iota_bytes (by omega), hn⟩

theorem test_witness_Hash32From13To24Bytes :
    ∀ n, n ∈ [13, 24] → (iotaState n).msg.Bytes iota ∧ 13 ≤ (iotaState n).len.toNat ∧
      (iotaState n).len.toNat ≤ 24 := by
  intro n h
  have hn : 13 ≤ n ∧ n ≤ 24 := by simp at h; omega
  rw [iota_len (by omega)]
  exact ⟨iota_bytes (by omega), hn⟩

theorem test_witness_Hash32InitLoadsAccumulators :
    ∃ s : State, s.msg.Bytes iota ∧ 24 < s.len.toNat ∧ s.script = [] ∧ s.status = .busy ∧
      s.cmd = 0x00#8 ∧ s.phase = .init :=
  ⟨running 25 0x00#8 .init 0 0, running_bytes (by decide) _ _ _ _, by decide, rfl, rfl, rfl, rfl⟩

theorem test_witness_Hash32BlockStepUpdatesAccumulators :
    ∃ s : State, s.msg.Bytes iota ∧ s.pos.toNat + 20 ≤ s.len.toNat ∧ s.script = [] ∧
      s.status = .busy ∧ s.cmd = 0x00#8 ∧ s.phase = .longLoop :=
  ⟨running 41 0x00#8 .longLoop 20 21, running_bytes (by decide) _ _ _ _, by decide, rfl, rfl, rfl, rfl⟩

theorem test_witness_Hash32TailFoldsAccumulators :
    ∃ s : State, s.script = [] ∧ s.status = .busy ∧ s.cmd = 0x00#8 ∧ s.phase = .tail ∧
      s.msgChanged = false :=
  ⟨running 25 0x00#8 .tail 20 5, rfl, rfl, rfl, rfl, rfl⟩

theorem test_witness_Hash32LoopCount :
    ∀ n, n ∈ [25, 40, 41] → (beforeStart n 0x00#8).msg.Placed ∧ 24 < (beforeStart n 0x00#8).len.toNat ∧
      (beforeStart n 0x00#8).script = [.start] ∧ (beforeStart n 0x00#8).status ≠ .busy ∧
      (beforeStart n 0x00#8).cmd = 0x00#8 := by
  intro n h
  have hn : 24 < n ∧ n < 2 ^ 64 := by simp at h; omega
  refine ⟨beforeStart_placed hn.2 _, ?_, rfl, by simp [beforeStart, iotaState, State.reset], rfl⟩
  show 24 < (iotaState n).len.toNat
  rw [iota_len hn.2]
  exact hn.1

theorem test_witness_Hash64UpTo16Bytes :
    (∀ n, n ∈ [0, 1, 3, 4, 8, 9, 16] → (iotaState n).msg.Bytes iota ∧ (iotaState n).len.toNat ≤ 16) ∧
    (iotaState 8).cuts.cut64WideMin = 9 ∧ (Cuts.cut64WideMin { Cuts.xc with wide8 := true }) = 8 := by
  refine ⟨fun n h => ?_, rfl, rfl⟩
  have hn : n ≤ 16 := by simp at h; omega
  rw [iota_len (by omega)]
  exact ⟨iota_bytes (by omega), hn⟩

theorem test_witness_Hash64From17To32Bytes :
    ∀ n, n ∈ [17, 32] → (iotaState n).msg.Bytes iota ∧ 17 ≤ (iotaState n).len.toNat ∧
      (iotaState n).len.toNat ≤ 32 := by
  intro n h
  have hn : 17 ≤ n ∧ n ≤ 32 := by simp at h; omega
  rw [iota_len (by omega)]
  exact ⟨iota_bytes (by omega), hn⟩

theorem test_witness_Hash64From33To64Bytes :
    ∀ n, n ∈ [33, 64] → (iotaState n).msg.Bytes iota ∧ 33 ≤ (iotaState n).len.toNat ∧
      (iotaState n).len.toNat ≤ 64 := by
  intro n h
  have hn : 33 ≤ n ∧ n ≤ 64 := by simp at h; omega
  rw [iota_len (by omega)]
  exact ⟨iota_bytes (by omega), hn⟩

theorem test_witness_Hash64InitLoadsRollingState :
    ∀ cmd : Byte, cmd ∈ [0x01#8, 0x02#8, 0x03#8] → ∃ s : State, s.msg.Bytes iota ∧ 64 < s.len.toNat ∧
      s.script = [] ∧ s.status = .busy ∧ s.cmd = cmd ∧ s.phase = .init :=
  fun cmd _ =>
    ⟨running 65 cmd .init 0 0, running_bytes (by decide) _ _ _ _, by decide +revert, rfl, rfl, rfl, rfl⟩

theorem test_witness_BlockStepUpdatesRollingState :
    ∀ cmd : Byte, cmd ∈ [0x01#8, 0x02#8, 0x03#8, 0x04#8, 0x05#8] → ∃ s : State, s.msg.Bytes iota ∧
      s.pos.toNat + 64 ≤ s.len.toNat ∧ s.script = [] ∧ s.status = .busy ∧ s.cmd = cmd ∧
      s.phase = .longLoop :=
  fun cmd _ => ⟨running 145 cmd .longLoop 80 129, running_bytes (by decide) _ _ _ _,
    by show 80 + 64 ≤ 145; decide, rfl, rfl, rfl, rfl⟩

theorem test_witness_Hash64LoopCount :
    ∀ n, n ∈ [65, 128, 129] → ∀ cmd i, (cmd, i) ∈
        [(0x01#8, Instr.hash64), (0x02#8, Instr.hash64s), (0x03#8, Instr.hash64ss)] →
      (beforeStart n cmd).msg.Placed ∧ 64 < (beforeStart n cmd).len.toNat ∧
      (beforeStart n cmd).script = [.start] ∧ (beforeStart n cmd).status ≠ .busy ∧
      decode (beforeStart n cmd).cmd = .ok i := by
  intro n h cmd i hi
  have hn : 64 < n ∧ n < 2 ^ 64 := by simp at h; omega
  refine ⟨beforeStart_placed hn.2 _, ?_, rfl, by simp [beforeStart, iotaState, State.reset], ?_⟩
  · show 64 < (iotaState n).len.toNat
    rw [iota_len hn.2]
    exact hn.1
  · simp at hi
    rcases hi with ⟨rfl, rfl⟩ | ⟨rfl, rfl⟩ | ⟨rfl, rfl⟩
    · exact decode_encode .hash64
    · exact decode_encode .hash64s
    · exact decode_encode .hash64ss

theorem test_witness_Hash64TailFoldsSevenWords :
    ∃ s : State, s.script = [] ∧ s.status = .busy ∧ s.cmd = 0x01#8 ∧ s.phase = .tail ∧
      s.msgChanged = false :=
  ⟨running 65 0x01#8 .tail 64 1, rfl, rfl, rfl, rfl, rfl⟩

theorem test_witness_Hash64sCombinesSeed :
    (iotaState 0).msg.Placed ∧ (iotaState 65).msg.Placed := ⟨iota_placed (by decide), iota_placed (by decide)⟩

theorem test_witness_Hash64ssCombinesSeeds :
    (iotaState 0).msg.Placed ∧ (iotaState 65).msg.Placed := ⟨iota_placed (by decide), iota_placed (by decide)⟩

theorem test_witness_Hash64sIsHash64ssWithK2 :
    (iotaState 0).msg.Placed ∧ (iotaState 65).msg.Placed := ⟨iota_placed (by decide), iota_placed (by decide)⟩

theorem test_witness_Hash128sFinisherShort :
    (∀ n, n ∈ [0, 7, 8, 15] → (iotaState n).msg.Bytes iota ∧
      (iotaState n).len.toNat ≤ (iotaState n).cuts.cut128ShortMax) ∧
    (Cuts.cut128ShortMax { Cuts.xc with short16 := true }) = 16 := by
  refine ⟨fun n h => ?_, rfl⟩
  have hn : n ≤ 15 := by simp at h; omega
  rw [iota_len (by omega)]
  exact ⟨iota_bytes (by omega), hn⟩

theorem test_witness_Hash128sFinisherLong :
    ∀ n, n ∈ [16, 17, 32, 33, 128] → (iotaState n).msg.Bytes iota ∧
      (iotaState n).cuts.cut128ShortMax < (iotaState n).len.toNat ∧
      (iotaState n).len.toNat ≤ (iotaState n).cuts.cut128FinMax := by
  intro n h
  have hn : 15 < n ∧ n ≤ 128 := by simp at h; omega
  rw [iota_len (by omega)]
  exact ⟨iota_bytes (by omega), hn⟩

theorem test_witness_Hash128sInitLoadsRollingState :
    ∃ s : State, s.msg.Bytes iota ∧ s.cuts.cut128FinMax < s.len.toNat ∧ s.script = [] ∧
      s.status = .busy ∧ s.cmd = 0x05#8 ∧ s.phase = .init :=
  ⟨running 129 0x05#8 .init 0 0, running_bytes (by decide) _ _ _ _, by decide, rfl, rfl, rfl, rfl⟩

theorem test_witness_Hash128LoopCount :
    (beforeStart 145 0x04#8).msg.Placed ∧ (beforeStart 129 0x05#8).msg.Placed ∧
    (beforeStart 145 0x04#8).script = [.start] ∧ (beforeStart 129 0x05#8).script = [.start] ∧
    (beforeStart 145 0x04#8).status = .idle ∧ (beforeStart 129 0x05#8).status = .idle ∧
    takesShortPath Cuts.xc .hash128 145 = false ∧ takesShortPath Cuts.xc .hash128s 129 = false ∧
    decode (beforeStart 145 0x04#8).cmd = .ok .hash128 ∧
    decode (beforeStart 129 0x05#8).cmd = .ok .hash128s :=
  ⟨beforeStart_placed (by decide) _, beforeStart_placed (by decide) _, rfl, rfl, rfl, rfl, rfl, rfl, rfl, rfl⟩

theorem test_witness_Hash128sTailScramblesPassesAndFolds :
    ∀ n, n ∈ [128, 129, 160, 255] → ∃ s : State, s.msg.Bytes iota ∧ s.script = [] ∧ s.status = .busy ∧
      s.cmd = 0x05#8 ∧ s.phase = .tail ∧ s.msgChanged = false ∧
      s.pos.toNat + s.rem.toNat = s.len.toNat ∧ s.rem.toNat < 128 ∧ 128 ≤ s.pos.toNat := by
  intro n h
  have hn : 128 ≤ n ∧ n < 256 := by simp at h; omega
  refine ⟨running n 0x05#8 .tail 128 (n - 128), running_bytes (by omega) _ _ _ _, rfl, rfl, rfl, rfl, rfl,
    ?_⟩
  have hl : (running n 0x05#8 .tail 128 (n - 128)).len.toNat = n := iota_len (by omega)
  have hr : (running n 0x05#8 .tail 128 (n - 128)).rem.toNat = n - 128 := by
    show (BitVec.ofNat 64 (n - 128)).toNat = _
    rw [BitVec.toNat_ofNat, Nat.mod_eq_of_lt (by omega)]
  have hp : (running n 0x05#8 .tail 128 (n - 128)).pos.toNat = 128 := rfl
  rw [hl, hr, hp]
  omega

/-- The boundaries of R158: 15 bytes; 16 bytes, whose part is empty; 17 bytes and the part of one byte; each
part with the seeds R158 gives it. -/
theorem test_witness_Hash128IsHash128sOfItsPart :
    (iotaState 15).msg.Bytes iota ∧ (iotaState 15).len.toNat < 16 ∧
    ((iotaState 16).msg.Bytes iota ∧ 16 ≤ (iotaState 16).len.toNat ∧
    ∃ s' : State, s'.len = (iotaState 16).len - 16#64 ∧ s'.cuts = (iotaState 16).cuts ∧
      s'.msg.Bytes (fun off => iota (off + 16)) ∧ s'.seed0 = word64At iota 0 ∧
      s'.seed1 = word64At iota 8 + Rom.k0) ∧
    (iotaState 17).msg.Bytes iota ∧ 16 ≤ (iotaState 17).len.toNat ∧
    ∃ s' : State, s'.len = (iotaState 17).len - 16#64 ∧ s'.cuts = (iotaState 17).cuts ∧
      s'.msg.Bytes (fun off => iota (off + 16)) ∧ s'.seed0 = word64At iota 0 ∧
      s'.seed1 = word64At iota 8 + Rom.k0 := by
  refine ⟨iota_bytes (by decide), by decide,
    ⟨iota_bytes (by decide), by decide,
      { State.reset with seed0 := word64At iota 0, seed1 := word64At iota 8 + Rom.k0 },
      by decide, rfl, fun off hoff => absurd hoff (Nat.not_lt_zero off), rfl, rfl⟩,
    iota_bytes (by decide), by decide,
    { bytesState [iota 16] with seed0 := word64At iota 0, seed1 := word64At iota 8 + Rom.k0 },
    by decide, rfl, ?_, rfl, rfl⟩
  intro off hoff
  have : off = 0 := Nat.lt_one_iff.mp hoff
  subst this
  rfl

theorem test_witness_EveryCommandCompletes :
    (iotaState 0).msg.Placed ∧ (iotaState 300).msg.Placed := ⟨iota_placed (by decide), iota_placed (by decide)⟩

theorem test_witness_NarrowResultsClearHighBits :
    ∀ i : Instr, ∃ t, exec i (iotaState 65) = .next t := fun i => iota_exec i (by decide)

theorem test_witness_CommandsReadInsideMessage :
    exec .hash32 { State.reset with len := 1#64 } = .fault (.unplaced 101 0) := rfl

theorem test_witness_EmptyMessageReadsNothing : State.reset.len = 0#64 := rfl

theorem test_witness_ResultDependsOnlyOnOperands :
    ∃ s s' : State, s ≠ s' ∧ s.msg.Same s'.msg ∧ s.cuts = s'.cuts ∧ s.seed0 = s'.seed0 ∧
      s.seed1 = s'.seed1 ∧ s.msg.Placed :=
  ⟨iotaState 3, { iotaState 3 with resLo := 5#64 }, by decide, ⟨rfl, fun _ _ => rfl⟩, rfl, rfl, rfl,
    iota_placed (by decide)⟩

/-- Each parameter at the two lengths where another one matters. -/
theorem test_witness_CutsMatterOnlyAtTheirLengths :
    (∀ n, n ∈ [8, 16, 128] → (iotaState n).msg.Placed) ∧
      (partOf .hash128s 16).n ≠ 8 ∧ (partOf .hash128s 128).n ≠ 8 ∧ (partOf .hash64 9).n ≠ 8 ∧
      (partOf .hash128s 8).n ≠ 16 ∧ (partOf .hash128s 128).n ≠ 16 ∧
      (partOf .hash128s 8).n ≠ 128 ∧ (partOf .hash128s 16).n ≠ 128 :=
  ⟨fun n h => iota_placed (by simp at h; omega), by decide, by decide, by decide, by decide, by decide,
    by decide, by decide⟩

theorem test_witness_CommandFrame :
    ∀ i : Instr, ∃ t, exec i (iotaState 200) = .next t := fun i => iota_exec i (by decide)

theorem test_witness_StepRunsDecodedInstruction :
    (∀ i : Instr, ∃ s : State, s.script = [.call] ∧ s.status ≠ .busy ∧ decode s.cmd = .ok i) ∧
    ∃ s : State, s.script = [.call] ∧ s.status = .busy :=
  ⟨fun i => ⟨{ State.reset with cmd := encode i, script := [.call] }, rfl, by simp [State.reset],
    decode_encode i⟩, { running 0 0x00#8 .init 0 0 with script := [.call] }, rfl, rfl⟩

theorem test_witness_AcceptedStartSetsBusy :
    ∀ i : Instr, ∃ s : State, s.script = [.start] ∧ s.status ≠ .busy ∧ decode s.cmd = .ok i :=
  fun i => ⟨{ State.reset with cmd := encode i, script := [.start] }, rfl, by simp [State.reset],
    decode_encode i⟩

theorem test_witness_ReservedStartRefused :
    opField 0x06#8 = 6#3 ∧ opField 0x07#8 = 7#3 ∧ rsvField 0x08#8 ≠ 0#5 ∧
    ∀ cmd : Byte, ∃ s : State, s.script = [.start] ∧ s.status ≠ .busy ∧ s.cmd = cmd :=
  ⟨by decide, by decide, by decide, fun cmd =>
    ⟨{ State.reset with cmd := cmd, script := [.start] }, rfl, by simp [State.reset], rfl⟩⟩

theorem test_witness_RunningCommandCannotBeCancelled :
    (∃ s : State, s.script = [.start] ∧ s.status = .busy) ∧
    ∃ s t : State, s.status = .busy ∧ step s = .next t ∧ t.status ≠ .busy :=
  ⟨⟨{ running 0 0x00#8 .init 0 0 with script := [.start] }, rfl, rfl⟩,
    running 0 0x00#8 .shortPath 0 0, _, rfl, rfl, by
      show Status.done ≠ Status.busy
      decide⟩

theorem test_witness_HostWritesReachOperandsOnly :
    ∀ reg : HostReg, (∃ s : State, s.script = [.write reg 7#64] ∧ s.status = .busy) ∧
      ∃ s : State, s.script = [.write reg 7#64] ∧ s.status ≠ .busy :=
  fun reg => ⟨⟨{ running 0 0x00#8 .init 0 0 with script := [.write reg 7#64] }, rfl, rfl⟩,
    { State.reset with script := [.write reg 7#64] }, rfl, by simp [State.reset]⟩

theorem test_witness_HostReadsReturnRegisters :
    ∀ reg : HostReg, (∃ s : State, s.script = [.read reg] ∧ s.status = .done) ∧
      ∃ s : State, s.script = [.read reg] ∧ s.status ≠ .done :=
  fun reg => ⟨⟨{ State.reset with status := .done, script := [.read reg] }, rfl, rfl⟩,
    { State.reset with script := [.read reg] }, rfl, by simp [State.reset]⟩

theorem test_witness_ResetStateIsIdle : ∃ s : State, s.script = [.reset] ∧ s.status = .busy :=
  ⟨{ running 65 0x01#8 .longLoop 0 65 with script := [.reset] }, rfl, rfl⟩

theorem test_witness_ResetAbandonsCommand :
    ∃ s u : State, s.script = [.reset] ∧ s.status = .busy ∧ u.status ≠ .busy ∧ u.script = [] :=
  ⟨{ running 65 0x01#8 .longLoop 0 65 with script := [.reset] }, State.reset, rfl, rfl,
    by simp [State.reset], rfl⟩

/-- One state per event of R25. -/
theorem test_witness_StatusTransitions :
    (∃ s t : State, step s = .next t ∧ t.status ≠ s.status ∧ s.script = [.reset]) ∧
    (∃ s t : State, step s = .next t ∧ t.status ≠ s.status ∧ s.script = [.start]) ∧
    (∃ s t : State, step s = .next t ∧ t.status ≠ s.status ∧ s.script = [.call]) ∧
    (∃ s t : State, step s = .next t ∧ t.status ≠ s.status ∧ s.script = []) := by
  refine ⟨⟨{ running 0 0x00#8 .init 0 0 with script := [.reset] }, _, rfl, ?_, rfl⟩,
    ⟨{ iotaState 0 with script := [.start] }, _, rfl, ?_, rfl⟩, ?_,
    ⟨running 0 0x00#8 .shortPath 0 0, _, rfl, ?_, rfl⟩⟩
  · simp [hostReset, State.reset, running]
  · simp [State.launch, iotaState, State.reset, State.popScript]
  · obtain ⟨r, hr⟩ := (commandValue_stops .hash32 (iotaState 0)).total (iota_placed (by decide))
    obtain ⟨t, ht, he⟩ := exec_of_value hr
    exact ⟨{ iotaState 0 with script := [.call] }, t, ht, by rw [he.status]; decide, rfl⟩
  · show Status.done ≠ Status.busy
    decide

theorem test_witness_ResultsWrittenOnlyAtCompletion :
    ∃ s t : State, step s = .next t ∧ t.resLo ≠ s.resLo :=
  ⟨running 0 0x01#8 .shortPath 0 0, _, rfl, by
    show Rom.k2 ≠ 0#64
    decide⟩

/-- Each of the four registers changed by a host write. -/
theorem test_witness_OperandsChangeOnlyByHostWrite :
    ∀ reg : HostReg, reg ∈ [HostReg.cmd, .len, .seed0, .seed1] → ∃ s t : State, step s = .next t ∧
      (¬ ∃ rest, s.script = .reset :: rest) ∧
      (t.cmd ≠ s.cmd ∨ t.len ≠ s.len ∨ t.seed0 ≠ s.seed0 ∨ t.seed1 ≠ s.seed1) := by
  intro reg h
  refine ⟨{ State.reset with script := [.write reg 7#64] }, _, rfl, by simp, ?_⟩
  simp at h
  rcases h with rfl | rfl | rfl | rfl <;> decide

/-- A step that completes, a step that does not, and no command running. -/
theorem test_witness_CompletionPrecedesStart :
    (∃ s t : State, s.script = [.startTogether] ∧ s.status = .busy ∧
      coreStep { s with script := [] } = .next t ∧ t.status = .done) ∧
    (∃ s t : State, s.script = [.startTogether] ∧ s.status = .busy ∧
      coreStep { s with script := [] } = .next t ∧ t.status = .busy) ∧
    ∃ s : State, s.script = [.startTogether] ∧ s.status ≠ .busy :=
  ⟨⟨{ running 0 0x00#8 .shortPath 0 0 with script := [.startTogether] }, _, rfl, rfl, rfl, rfl⟩,
    ⟨{ running 0 0x00#8 .init 0 0 with script := [.startTogether] }, _, rfl, rfl, rfl, rfl⟩,
    { State.reset with script := [.startTogether] }, rfl, by simp [State.reset]⟩

theorem test_witness_ChangedMessageFreesOnlyTheResult :
    (∃ s : State, s.script = [.place 0 [0xff#8]] ∧ s.status = .busy ∧
      0 < [0xff#8].length ∧ 0 + 0 < s.len.toNat ∧
      Memory.find s.mem (0 + 0) ≠ [0xff#8][0]?) ∧
    (∃ s : State, s.script = [.place 0 [iota 0, 0xff#8]] ∧ s.status = .busy ∧
      ∀ k, k < [iota 0, 0xff#8].length → 0 + k < s.len.toNat →
        Memory.find s.mem (0 + k) = [iota 0, 0xff#8][k]?) ∧
    ∃ s t : State, s.script = [] ∧ s.status = .busy ∧ s.msgChanged = true ∧
      step { s with msgChanged := false } = .next t ∧ t.status = .done :=
  ⟨⟨{ running 1 0x00#8 .init 0 0 with script := [.place 0 [0xff#8]] }, rfl, rfl, by decide, by decide,
      by decide⟩,
    ⟨{ running 1 0x00#8 .init 0 0 with script := [.place 0 [iota 0, 0xff#8]] }, rfl, rfl,
      fun k _ hk => by
        have hk : 0 + k < 1 := hk
        obtain rfl : k = 0 := by omega
        rfl⟩,
    { running 0 0x00#8 .shortPath 0 0 with msgChanged := true }, _, rfl, rfl, rfl, rfl, rfl⟩

theorem test_witness_MessageWrittenOnlyByHost :
    (∃ s t : State, step s = .next t ∧ ¬ ∃ off bytes rest, s.script = .place off bytes :: rest) ∧
    ∃ s : State, s.script = [.place 3 [1#8, 2#8]] :=
  ⟨⟨State.reset, State.reset, rfl, by simp [State.reset]⟩,
    { State.reset with script := [.place 3 [1#8, 2#8]] }, rfl⟩

/-- A short path and a long path for every command. -/
theorem test_witness_BusyUntilLastStep :
    ∀ i : Instr, ∀ n, n ∈ [0, 200] → (beforeStart n (encode i)).msg.Placed ∧
      (beforeStart n (encode i)).script = [.start] ∧ (beforeStart n (encode i)).status ≠ .busy ∧
      decode (beforeStart n (encode i)).cmd = .ok i ∧
      2 ≤ commandSteps Cuts.xc i n := by
  intro i n h
  have hn : n < 2 ^ 64 := by simp at h; omega
  refine ⟨beforeStart_placed hn _, rfl, by simp [beforeStart, iotaState, State.reset], ?_, ?_⟩
  · exact decode_encode i
  · unfold commandSteps
    split <;> omega

theorem test_witness_BigStepEqualsSmallStep :
    ∀ i : Instr, ∀ n, n ∈ [0, 200] → (beforeStart n (encode i)).msg.Placed ∧
      (beforeStart n (encode i)).script = [.start] ∧ (beforeStart n (encode i)).status ≠ .busy ∧
      decode (beforeStart n (encode i)).cmd = .ok i := by
  intro i n h
  have hn : n < 2 ^ 64 := by simp at h; omega
  exact ⟨beforeStart_placed hn _, rfl, by simp [beforeStart, iotaState, State.reset], decode_encode i⟩

theorem iota_wf (n : Nat) : Memory.wf (iotaState n).mem = true := Memory.wf_place [] 0 _ rfl

/-- HASH32 on 25 bytes at its TAIL meets the invariant, with its message placed. -/
theorem running_inv : (running 25 0x00#8 .tail 20 5).Inv := by
  refine ⟨iota_wf 25, by decide, fun _ => ⟨.hash32, rfl, ?_⟩, by simp [running, iotaState, State.reset]⟩
  show takesShortPath Cuts.xc .hash32 25 = false ∧ 20 + 5 = 25 ∧ 1 ≤ 5 ∧ 5 ≤ 20
  decide

theorem test_witness_InvariantKeptByEveryStep :
    ∃ s t : State, s.Inv ∧ s.status = .busy ∧ step s = .next t :=
  ⟨_, _, running_inv, rfl, rfl⟩

theorem test_witness_StepsAreSafe :
    ∃ s : State, s.Inv ∧ s.msg.Placed ∧ s.status = .busy :=
  ⟨running 25 0x00#8 .tail 20 5, running_inv, (running_bytes (by decide) _ _ _ _).placed, rfl⟩

theorem test_witness_StepsReadInsideMessage : ∃ s : State, s.Inv ∧ s.status = .busy :=
  ⟨_, running_inv, rfl⟩

end Sys2Proof.Tests
end

section
/-! Proofs of `HashLen16WithMulExact` (R26, R86, R87) and `ResultDependsOnlyOnOperands` (R21, R62). -/

namespace Sys2Proof.Machine

/-! ### `shiftMix` and `hashLen16WithMul` over the naturals -/

theorem shiftMix_toNat (v : W64) : (shiftMix v).toNat = v.toNat ^^^ (v.toNat / 2 ^ 47) := by
  rw [shiftMix, BitVec.toNat_xor, BitVec.toNat_ushiftRight, Nat.shiftRight_eq_div_pow]

@[simp] theorem shiftMix_zero : shiftMix 0#64 = 0#64 := by decide

/-- The five steps of R86, each product reduced modulo `2 ^ 64`. -/
theorem hashLen16WithMul_toNat (u v mul : W64) :
    let a0 := ((u.toNat ^^^ v.toNat) * mul.toNat) % 2 ^ 64
    let a := a0 ^^^ (a0 / 2 ^ 47)
    let b0 := ((v.toNat ^^^ a) * mul.toNat) % 2 ^ 64
    let b := b0 ^^^ (b0 / 2 ^ 47)
    (hashLen16WithMul u v mul).toNat = (b * mul.toNat) % 2 ^ 64 := by
  simp only [hashLen16WithMul, BitVec.toNat_mul, BitVec.toNat_xor, shiftMix_toNat]

/-! ### The corner cases of R86 -/

theorem hashLen16WithMul_mul_zero (u v : W64) : hashLen16WithMul u v 0#64 = 0#64 :=
  BitVec.mul_zero

theorem hashLen16WithMul_mul_one (u v : W64) :
    hashLen16WithMul u v 1#64 = shiftMix (v ^^^ shiftMix (u ^^^ v)) := by
  simp only [hashLen16WithMul, BitVec.mul_one]

theorem hashLen16WithMul_zero_zero (mul : W64) : hashLen16WithMul 0#64 0#64 mul = 0#64 := by
  simp [hashLen16WithMul]

/-! ### The values of R87 -/

theorem hashLen16_zero_one : hashLen16 0#64 1#64 = 0xf4ff80ec63c103d4#64 := by decide

theorem hashLen16_one_zero : hashLen16 1#64 0#64 = 0xb91445ce692f0ce5#64 := by decide

/-- The two values differ, so the combiner is not symmetric, with `kMul` for example. -/
theorem hashLen16WithMul_not_symmetric :
    ∃ u v mul, hashLen16WithMul u v mul ≠ hashLen16WithMul v u mul := by
  refine ⟨0#64, 1#64, Rom.kMul, ?_⟩
  change hashLen16 0#64 1#64 ≠ hashLen16 1#64 0#64
  rw [hashLen16_zero_one, hashLen16_one_zero]
  decide

/-- Settles O8: the constants by unfolding, the five steps by `hashLen16WithMul_toNat`. -/
theorem hashLen16WithMulExact : Obligations.HashLen16WithMulExact :=
  ⟨⟨rfl, rfl, rfl, rfl, rfl, rfl⟩, hashLen16WithMul_zero_zero _, hashLen16_zero_one,
    hashLen16_one_zero, fun u v mul =>
      ⟨rfl, hashLen16WithMul_toNat u v mul, hashLen16WithMul_mul_zero u v,
        hashLen16WithMul_mul_one u v, hashLen16WithMul_zero_zero mul,
        hashLen16WithMul_not_symmetric⟩⟩

/-! ### The result is a function of the operands -/

/-- On a placed message a command completes with the value of its function (R170, R182). -/
theorem exec_of_placed (i : Instr) {s : State} (h : s.msg.Placed) :
    ∃ r t, commandValue i s = .ok r ∧ exec i s = .next t ∧ CommandEnd s r t := by
  obtain ⟨r, hr⟩ := (commandValue_stops i s).total h
  obtain ⟨t, ht, hend⟩ := exec_of_value hr
  exact ⟨r, t, hr, ht, hend⟩

/-- Settles O38: both runs leave the value of the command's function, which sees only the operands. -/
theorem resultDependsOnlyOnOperands : Obligations.ResultDependsOnlyOnOperands := by
  intro i s s' hmsg hcuts hseed0 hseed1 hplaced
  obtain ⟨r, t, hr, ht, hend⟩ := exec_of_placed i hplaced
  have hr' : commandValue i s' = .ok r := by
    rw [← commandValue_congr i hmsg hcuts hseed0 hseed1, hr]
  obtain ⟨t', ht', hend'⟩ := exec_of_value hr'
  exact ⟨t, t', ht, ht', hend.resLo.trans hend'.resLo.symm, hend.resHi.trans hend'.resHi.symm⟩

end Sys2Proof.Machine
end

section
/-! PROOFS. Reads of the message space (20_memory.md R41, R46). -/

namespace Sys2Proof.Machine

/-! ### The loaded words as sums of their bytes -/

/-- The sum of R41 for 4 bytes. -/
theorem word32At_toNat (b : Nat → Byte) (off : Nat) :
    (word32At b off).toNat =
      (b off).toNat + 2 ^ 8 * (b (off + 1)).toNat + 2 ^ 16 * (b (off + 2)).toNat +
        2 ^ 24 * (b (off + 3)).toNat := by
  simp only [word32At, toNat_append_byte]
  omega

/-- The sum of R41 for 8 bytes. -/
theorem word64At_toNat (b : Nat → Byte) (off : Nat) :
    (word64At b off).toNat =
      (b off).toNat + 2 ^ 8 * (b (off + 1)).toNat + 2 ^ 16 * (b (off + 2)).toNat +
        2 ^ 24 * (b (off + 3)).toNat + 2 ^ 32 * (b (off + 4)).toNat + 2 ^ 40 * (b (off + 5)).toNat +
        2 ^ 48 * (b (off + 6)).toNat + 2 ^ 56 * (b (off + 7)).toNat := by
  simp only [word64At, toNat_append_byte]
  omega

/-! ### Reads inside and past the message -/

/-- Settles O4: each load answers the word made of its bytes, whose value is the sum of R41. -/
theorem readsAreLittleEndian : Obligations.ReadsAreLittleEndian := by
  intro rule m b off hb
  refine ⟨fun h => ?byte, fun h => ?le32, fun h => ?le64⟩
  case byte => exact byteAt_bytes hb rule h
  case le32 => exact ⟨_, le32_bytes hb rule h, word32At_toNat b off⟩
  case le64 => exact ⟨_, le64_bytes hb rule h, word64At_toNat b off⟩

/-- Settles O5: past the length `memRead` takes its fault branch, which looks at no memory. -/
theorem readPastMessageFaults : Obligations.ReadPastMessageFaults := by
  intro rule m off n hpast
  exact memRead_outside hpast

end Sys2Proof.Machine
end

section
/-! PROOFS. The primitive mixing utilities (40_primitives.md R80, R81, R85, R88 to R91). -/

namespace Sys2Proof.Machine

/-! ### Rotation: the two formulas of R80 and R81 are the library's rotation -/

theorem rotr32_eq_rotateRight (v : W32) (s : Fin 32) : rotr32 v s = v.rotateRight s.val := by
  rw [BitVec.rotateRight_def, Nat.mod_eq_of_lt s.isLt, rotr32]
  split
  · simp [*]
  · rfl

theorem rotr64_eq_rotateRight (v : W64) (s : Fin 64) : rotr64 v s = v.rotateRight s.val := by
  rw [BitVec.rotateRight_def, Nat.mod_eq_of_lt s.isLt, rotr64]
  split
  · simp [*]
  · rfl

/-- Bit `i` of a rotation: the bits that fall out at the bottom come in at the top. -/
theorem getLsbD_rotateRight_eq_mod {w r i : Nat} (v : BitVec w) (hr : r < w) (hi : i < w) :
    (v.rotateRight r).getLsbD i = v.getLsbD ((i + r) % w) := by
  rw [BitVec.getLsbD_rotateRight_of_lt hr]
  by_cases hlow : i < w - r
  · rw [Nat.mod_eq_of_lt (by omega), Nat.add_comm]
    simp [hlow]
  · have hwrap : (i + r) % w = i - (w - r) := by
      rw [Nat.mod_eq_sub_mod (by omega), Nat.mod_eq_of_lt (by omega)]
      omega
    simp [hlow, hi, hwrap]

/-- A rotation over the naturals: the high part moved down, plus the low `r` bits moved to the top. -/
theorem toNat_rotateRight_eq_add {w r : Nat} (v : BitVec w) (hr : r < w) :
    (v.rotateRight r).toNat = v.toNat / 2 ^ r + (v.toNat % 2 ^ r) * 2 ^ (w - r) := by
  have hpow : 2 ^ w = 2 ^ r * 2 ^ (w - r) := by
    rw [Nat.mul_comm, Nat.pow_sub_mul_pow 2 hr.le]
  have hlow : v.toNat <<< (w - r) % 2 ^ w = (v.toNat % 2 ^ r) <<< (w - r) := by
    rw [Nat.shiftLeft_eq, Nat.shiftLeft_eq, hpow, Nat.mul_mod_mul_right]
  have hhigh : v.toNat / 2 ^ r < 2 ^ (w - r) := Nat.div_lt_of_lt_mul (hpow ▸ v.isLt)
  rw [BitVec.toNat_rotateRight, Nat.mod_eq_of_lt hr, hlow, Nat.shiftRight_eq_div_pow, Nat.lor_comm,
    ← Nat.shiftLeft_add_eq_or_of_lt hhigh, Nat.shiftLeft_eq, Nat.add_comm]

theorem rotr32_toNat (v : W32) (s : Fin 32) :
    (rotr32 v s).toNat = v.toNat / 2 ^ s.val + (v.toNat % 2 ^ s.val) * 2 ^ (32 - s.val) := by
  rw [rotr32_eq_rotateRight, toNat_rotateRight_eq_add v s.isLt]

theorem rotr64_toNat (v : W64) (s : Fin 64) :
    (rotr64 v s).toNat = v.toNat / 2 ^ s.val + (v.toNat % 2 ^ s.val) * 2 ^ (64 - s.val) := by
  rw [rotr64_eq_rotateRight, toNat_rotateRight_eq_add v s.isLt]

/-- Settles O6: both rotations are the library's, whose bits move cyclically; amount 0 is a branch of
its own. -/
theorem rotationsMoveBits : Obligations.RotationsMoveBits := by
  refine ⟨fun v s => ⟨fun i hi => ?_, rfl⟩, fun v s => ⟨fun i hi => ?_, rfl⟩⟩
  · rw [rotr32_eq_rotateRight, getLsbD_rotateRight_eq_mod v s.isLt hi]
  · rw [rotr64_eq_rotateRight, getLsbD_rotateRight_eq_mod v s.isLt hi]

/-! ### `shiftMix` bit by bit -/

/-- From bit 17 on the shifted word is past the top of `v`. -/
theorem shiftMix_getLsbD_high (v : W64) {i : Nat} (hi : 17 ≤ i) :
    (shiftMix v).getLsbD i = v.getLsbD i := by
  have hout : v.getLsbD (47 + i) = false := BitVec.getLsbD_of_ge v _ (by omega)
  rw [shiftMix, BitVec.getLsbD_xor, BitVec.getLsbD_ushiftRight, hout, Bool.xor_false]

theorem shiftMix_of_lt (v : W64) (h : v.toNat < 2 ^ 47) : shiftMix v = v := by
  apply BitVec.eq_of_toNat_eq
  rw [shiftMix_toNat, Nat.div_eq_of_lt h, Nat.xor_zero]

/-- Settles O7: below `2 ^ 47` and from bit 17 on the shifted word adds nothing. -/
theorem shiftMixKeepsTopBits : Obligations.ShiftMixKeepsTopBits :=
  fun v => ⟨shiftMix_toNat v, fun _ hi _ => shiftMix_getLsbD_high v hi, shiftMix_of_lt v⟩

/-! ### Byte reversal -/

theorem extractLsb'_append_byte_zero {w : Nat} (x : BitVec w) (y : Byte) :
    (x ++ y).extractLsb' 0 8 = y :=
  BitVec.extractLsb'_append_eq_right

theorem extractLsb'_append_byte_add {w : Nat} (x : BitVec w) (y : Byte) (n : Nat) :
    (x ++ y).extractLsb' (n + 8) 8 = x.extractLsb' n 8 := by
  rw [BitVec.extractLsb'_append_eq_of_le (by omega), Nat.add_sub_cancel]

theorem bswap32_byte (v : W32) {j : Nat} (hj : j < 4) :
    (bswap32 v).extractLsb' (8 * j) 8 = v.extractLsb' (8 * (3 - j)) 8 := by
  match j, hj with
  | 0, _ | 1, _ | 2, _ | 3, _ =>
    simp [bswap32, extractLsb'_append_byte_zero, extractLsb'_append_byte_add]

theorem bswap64_byte (v : W64) {j : Nat} (hj : j < 8) :
    (bswap64 v).extractLsb' (8 * j) 8 = v.extractLsb' (8 * (7 - j)) 8 := by
  match j, hj with
  | 0, _ | 1, _ | 2, _ | 3, _ | 4, _ | 5, _ | 6, _ | 7, _ =>
    simp [bswap64, extractLsb'_append_byte_zero, extractLsb'_append_byte_add]

/-- Settles O9: the bytes of `bswap` are peeled off from the lowest up. -/
theorem bswapReversesBytes : Obligations.BswapReversesBytes :=
  ⟨fun v _ hj => bswap32_byte v hj, fun v _ hj => bswap64_byte v hj⟩

/-! ### The mixers over the naturals -/

theorem toNat_add_add {w : Nat} (x y z : BitVec w) :
    (x + y + z).toNat = (x.toNat + y.toNat + z.toNat) % 2 ^ w := by
  rw [BitVec.toNat_add, BitVec.toNat_add, Nat.mod_add_mod]

theorem xorShift_toNat {w : Nat} (v : BitVec w) (k : Nat) :
    (v ^^^ (v >>> k)).toNat = v.toNat ^^^ (v.toNat / 2 ^ k) := by
  rw [BitVec.toNat_xor, BitVec.toNat_ushiftRight, Nat.shiftRight_eq_div_pow]

/-- The five steps of R89; each line with a shift is `xorShift_toNat`. -/
theorem fmix32_toNat (h : W32) :
    let a := h.toNat ^^^ (h.toNat / 2 ^ 16)
    let b := (a * 0x85ebca6b) % 2 ^ 32
    let c := ((b ^^^ (b / 2 ^ 13)) * 0xc2b2ae35) % 2 ^ 32
    (fmix32 h).toNat = c ^^^ (c / 2 ^ 16) := by
  intro a b c
  have ha : (h ^^^ (h >>> 16)).toNat = a := xorShift_toNat h 16
  rw [fmix32, xorShift_toNat, BitVec.toNat_mul, xorShift_toNat, BitVec.toNat_mul, ha]
  rfl

/-- R90, the two rotations as in `rotr32_toNat`. -/
theorem mur32_toNat (a h : W32) :
    let rot := fun (v s : Nat) => v / 2 ^ s + (v % 2 ^ s) * 2 ^ (32 - s)
    let p := (rot ((a.toNat * 0xcc9e2d51) % 2 ^ 32) 17 * 0x1b873593) % 2 ^ 32
    (mur32 a h).toNat = (rot (h.toNat ^^^ p) 19 * 5 + 0xe6546b64) % 2 ^ 32 := by
  intro rot p
  have hrot (v : W32) (s : Fin 32) : (rotr32 v s).toNat = rot v.toNat s.val := rotr32_toNat v s
  have hp : (rotr32 (a * Rom.c1) 17 * Rom.c2).toNat = p := by
    rw [BitVec.toNat_mul, hrot, BitVec.toNat_mul]
    rfl
  rw [mur32, BitVec.toNat_add, BitVec.toNat_mul, Nat.mod_add_mod, hrot, BitVec.toNat_xor, hp]
  rfl

/-- R91, the two rotations as in `rotr64_toNat`. -/
theorem weakHash32_toNat (w x y z a b : W64) :
    let rot := fun (v s : Nat) => v / 2 ^ s + (v % 2 ^ s) * 2 ^ (64 - s)
    let a0 := (a.toNat + w.toNat) % 2 ^ 64
    let b0 := rot ((b.toNat + a0 + z.toNat) % 2 ^ 64) 21
    let a1 := (a0 + x.toNat + y.toNat) % 2 ^ 64
    let b1 := (b0 + rot a1 44) % 2 ^ 64
    (weakHash32 w x y z a b).lo.toNat = (a1 + z.toNat) % 2 ^ 64 ∧
    (weakHash32 w x y z a b).hi.toNat = (b1 + a0) % 2 ^ 64 := by
  intro rot a0 b0 a1 b1
  have hrot (v : W64) (s : Fin 64) : (rotr64 v s).toNat = rot v.toNat s.val := rotr64_toNat v s
  have ha0 : (a + w).toNat = a0 := BitVec.toNat_add ..
  have hb0 : (rotr64 (b + (a + w) + z) 21).toNat = b0 := by
    rw [hrot, toNat_add_add, ha0]
    rfl
  have ha1 : (a + w + x + y).toNat = a1 := by rw [toNat_add_add, ha0]
  have hb1 : (rotr64 (b + (a + w) + z) 21 + rotr64 (a + w + x + y) 44).toNat = b1 := by
    rw [BitVec.toNat_add, hb0, hrot, ha1]
    rfl
  constructor
  · rw [weakHash32, BitVec.toNat_add, ha1]
  · rw [weakHash32, BitVec.toNat_add, hb1, ha0]

/-- Settles O10: the three mixers over the naturals, their corner cases, and the loads of
`weakHash32At`. -/
theorem mixersExact : Obligations.MixersExact :=
  ⟨fmix32_toNat, by decide, mur32_toNat, by decide, weakHash32_toNat, by decide,
    fun rule _ _ _ x y hb h => weakHash32At_bytes hb rule h x y⟩

end Sys2Proof.Machine
end

section
/-! PROOFS. One block step of the 64- and 128-bit long paths (R92, R125, R154). -/

namespace Sys2Proof.Machine

/-- The rolling state after the block at `p` of a message with the bytes `b`: the lines of R92. -/
def rollingAfterBlock (b : Nat → Byte) (p : Nat) (r : Rolling) : Rolling :=
  let weak := fun (q : Nat) (a c : W64) =>
    weakHash32 (word64At b q) (word64At b (q + 8)) (word64At b (q + 16)) (word64At b (q + 24)) a c
  let x := (rotr64 (r.x + r.y + r.v0 + word64At b (p + 8)) 37 * Rom.k1) ^^^ r.w1
  let y := rotr64 (r.y + r.v1 + word64At b (p + 48)) 42 * Rom.k1 + r.v0 + word64At b (p + 40)
  let z := rotr64 (r.z + r.w0) 33 * Rom.k1
  let v := weak p (r.v1 * Rom.k1) (x + r.w0)
  let w := weak (p + 32) (z + r.w1) (y + word64At b (p + 16))
  { x := z, y := y, z := x, v0 := v.lo, v1 := v.hi, w0 := w.lo, w1 := w.hi }

theorem blockStep_bytes {m : Msg} {b : Nat → Byte} (hb : m.Bytes b) (rule : Nat) {p : Nat}
    (h : p + 64 ≤ m.len) (r : Rolling) :
    blockStep rule m p r = .ok (rollingAfterBlock b p r) := by
  rw [blockStep, le64_bytes hb rule (by omega), le64_bytes hb rule (by omega),
    le64_bytes hb rule (by omega), le64_bytes hb rule (by omega)]
  simp only [weakHash32At_bytes hb rule (show p + 32 ≤ m.len by omega),
    weakHash32At_bytes hb rule (show p + 32 + 32 ≤ m.len by omega)]
  rfl

/-- The 128-bit loop stores the rolling state of `blockStep` as every other 64-bit engine does. -/
theorem long128Block_of_blockStep {base : Nat} {s : State} {r : Rolling}
    (h : blockStep 154 s.msg s.pos.toNat s.roll = .ok r) :
    long128Block base s = .ok (s.setLong64 r (afterBlock.after128 base s).1
      (afterBlock.after128 base s).2.1 (afterBlock.after128 base s).2.2) := by
  unfold long128Block afterBlock.after128
  rw [h]
  cases hpair : endsPair128 base (s.pos + 64#64).toNat
  case true | false =>
    simp only [hpair]
    rfl

/-- A LONG_LOOP step of a 64- or 128-bit command is a `blockStep` at `POS`. -/
theorem block_of_blockStep {i : Instr} (hi : i ≠ .hash32) {s : State} {r : Rolling}
    (h : ∀ rule, blockStep rule s.msg s.pos.toNat s.roll = .ok r) :
    (engineOf i).block s =
      .ok (s.setLong64 r (afterBlock i s).1 (afterBlock i s).2.1 (afterBlock i s).2.2) := by
  have block64 : long64Block s = .ok (s.setLong64 r (s.pos + 64#64) (s.rem - 64#64)
      (phaseAfterBlock64 (s.rem - 64#64).toNat)) := by
    rw [long64Block, h]
    rfl
  cases i
  case hash32 => contradiction
  case hash64 | hash64s | hash64ss => exact block64
  case hash128 | hash128s => exact long128Block_of_blockStep (h 154)

theorem afterBlock_pos {i : Instr} (hi : i ≠ .hash32) (s : State) :
    (afterBlock i s).1 = s.pos + 64#64 := by
  cases i
  case hash32 => contradiction
  case hash64 | hash64s | hash64ss => rfl
  case hash128 | hash128s =>
    simp only [afterBlock, afterBlock.after128]
    split <;> rfl

/-- The 64-bit commands, told by their descriptor, lower `REM` by 64 (R125). -/
theorem afterBlock_rem_of_encode {i : Instr}
    (hi : encode i = 0x01#8 ∨ encode i = 0x02#8 ∨ encode i = 0x03#8) (s : State) :
    (afterBlock i s).2.1 = s.rem - 64#64 := by
  cases i
  case hash64 | hash64s | hash64ss => rfl
  case hash32 | hash128 | hash128s => exact absurd hi (by decide)

/-- The five descriptors of the 64- and 128-bit commands (R61). -/
theorem exists_encode_of_wide {cmd : Byte}
    (h : cmd = 0x01#8 ∨ cmd = 0x02#8 ∨ cmd = 0x03#8 ∨ cmd = 0x04#8 ∨ cmd = 0x05#8) :
    ∃ i : Instr, i ≠ .hash32 ∧ cmd = encode i ∧ decode cmd = .ok i := by
  rcases h with rfl | rfl | rfl | rfl | rfl
  · exact ⟨.hash64, by decide, rfl, rfl⟩
  · exact ⟨.hash64s, by decide, rfl, rfl⟩
  · exact ⟨.hash64ss, by decide, rfl, rfl⟩
  · exact ⟨.hash128, by decide, rfl, rfl⟩
  · exact ⟨.hash128s, by decide, rfl, rfl⟩

/-- Settles O22: the step is the `blockStep` of the decoded command, stored by `setLong64`. -/
theorem blockStepUpdatesRollingState : Obligations.BlockStepUpdatesRollingState := by
  intro s b hb hpos hscript hbusy hcmd hphase
  obtain ⟨i, hi, henc, hdec⟩ := exists_encode_of_wide hcmd
  have hblock := block_of_blockStep hi fun rule => blockStep_bytes hb rule hpos s.roll
  have hstep := step_busy hscript hbusy hdec
  rw [phaseStep_block _ hphase, hblock] at hstep
  exact ⟨_, hstep, rfl, afterBlock_pos hi s, fun hc => afterBlock_rem_of_encode (henc ▸ hc) s, rfl⟩

end Sys2Proof.Machine
end

section
/-! PROOFS. HASH32 (41_hash32.md R100 to R107). -/

namespace Sys2Proof.Machine

/-! ### The short paths -/

theorem hash32Short_upTo4 {m : Msg} (h : m.len ≤ 4) : hash32Short m = hash32_0to4 m := by
  rw [hash32Short, if_pos h]

theorem hash32Short_from5To12 {m : Msg} (hlow : 5 ≤ m.len) (hhigh : m.len ≤ 12) :
    hash32Short m = hash32_5to12 m := by
  rw [hash32Short, if_neg (by omega), if_pos hhigh]

theorem hash32Short_from13 {m : Msg} (h : 13 ≤ m.len) : hash32Short m = hash32_13to24 m := by
  rw [hash32Short, if_neg (by omega), if_neg (by omega)]

/-- HASH32 on 24 bytes or fewer leaves the value of SHORT_PATH (R67, R100). -/
theorem exec_hash32_of_short {s : State} {v : W32} (hlen : s.len.toNat ≤ 24)
    (hv : hash32Short s.msg = .ok v) :
    ∃ t, exec .hash32 s = .next t ∧ t.resLo = v.setWidth 64 ∧ t.resHi = 0#64 ∧
      t.status = .done := by
  have hshort : short32 s.msg.len = true := decide_eq_true hlen
  have hvalue : commandValue .hash32 s = .ok (place32 v) := by
    rw [commandValue, hash32, if_pos hshort, hv]
    rfl
  obtain ⟨t, ht, hend⟩ := exec_of_value hvalue
  exact ⟨t, ht, hend.resLo, hend.resHi, hend.status⟩

/-- One round of the byte loop of R101 on `b i`. -/
def foldByte32 (b : Nat → Byte) (p : W32 × W32) (i : Nat) : W32 × W32 :=
  let x := p.1 * Rom.c1 + (b i).signExtend 32
  (x, p.2 ^^^ x)

theorem hash32Bytes_bytes {m : Msg} {b : Nat → Byte} (hb : m.Bytes b) (k : Nat) {i : Nat}
    (h : i + k ≤ m.len) (x c : W32) :
    hash32Bytes m k i x c = .ok ((List.range' i k).foldl (foldByte32 b) (x, c)) := by
  induction k generalizing i x c with
  | zero => rfl
  | succ k ih =>
    rw [hash32Bytes, byteAt_bytes hb 101 (by omega)]
    exact ih (by omega) _ _

theorem hash32_0to4_bytes {m : Msg} {b : Nat → Byte} (hb : m.Bytes b) :
    let bc := (List.range m.len).foldl (foldByte32 b) (0#32, 9#32)
    hash32_0to4 m = .ok (fmix32 (mur32 bc.1 (mur32 (trunc32 m.len) bc.2))) := by
  rw [hash32_0to4, hash32Bytes_bytes hb _ (by omega), List.range_eq_range']
  rfl

/-- Settles O11: the byte loop is a fold over the offsets, by `hash32_0to4_bytes`. -/
theorem hash32UpTo4Bytes : Obligations.Hash32UpTo4Bytes := by
  intro s b hb hlen bc
  have hv := (hash32Short_upTo4 hlen).trans (hash32_0to4_bytes hb)
  rw [State.msg_len, trunc32_len] at hv
  exact exec_hash32_of_short (by omega) hv

/-- R102: `(LEN >> 1) & 4` is 0 for `LEN` 5 to 7 and 4 for `LEN` 8 to 12. -/
theorem half_and_four {n : Nat} (hlow : 5 ≤ n) (hhigh : n ≤ 12) :
    (n >>> 1) &&& 4 = if n < 8 then 0 else 4 := by
  interval_cases n <;> rfl

theorem hash32_5to12_bytes {m : Msg} {b : Nat → Byte} (hb : m.Bytes b) (hlow : 5 ≤ m.len)
    (hhigh : m.len ≤ 12) :
    let l := trunc32 m.len
    hash32_5to12 m = .ok (fmix32 (mur32 (9#32 + word32At b (if m.len < 8 then 0 else 4))
      (mur32 (l * 5#32 + word32At b (m.len - 4)) (mur32 (l + word32At b 0) (l * 5#32))))) := by
  have hthird := and4_add_le hlow hhigh
  rw [hash32_5to12, le32_bytes hb 102 (by omega), le32_bytes hb 102 (by omega),
    le32_bytes hb 102 hthird, half_and_four hlow hhigh]
  rfl

/-- Settles O12: the loads of `hash32_5to12_bytes`, the third at the offset of `half_and_four`. -/
theorem hash32From5To12Bytes : Obligations.Hash32From5To12Bytes := by
  intro s b hb hlow hhigh n l d a e c
  have hv := (hash32Short_from5To12 hlow hhigh).trans (hash32_5to12_bytes hb hlow hhigh)
  rw [State.msg_len, trunc32_len] at hv
  exact exec_hash32_of_short (by omega) hv

theorem hash32_13to24_bytes {m : Msg} {b : Nat → Byte} (hb : m.Bytes b) (hlow : 13 ≤ m.len) :
    hash32_13to24 m = .ok (fmix32 (mur32 (word32At b (m.len - 4)) (mur32 (word32At b 0)
      (mur32 (word32At b (m.len / 2)) (mur32 (word32At b (m.len - 8)) (mur32 (word32At b 4)
        (mur32 (word32At b (m.len / 2 - 4)) (trunc32 m.len)))))))) := by
  rw [hash32_13to24, Nat.shiftRight_one, le32_bytes hb 103 (by omega),
    le32_bytes hb 103 (by omega), le32_bytes hb 103 (by omega), le32_bytes hb 103 (by omega),
    le32_bytes hb 103 (by omega), le32_bytes hb 103 (by omega)]
  rfl

/-- Settles O13: the six words of `hash32_13to24_bytes`, folded in the order of R103. -/
theorem hash32From13To24Bytes : Obligations.Hash32From13To24Bytes := by
  intro s b hb hlow hhigh n h0 h1 h2 h3 h4 h5
  have hv := (hash32Short_from13 hlow).trans (hash32_13to24_bytes hb hlow)
  rw [State.msg_len, trunc32_len] at hv
  exact exec_hash32_of_short hhigh hv

/-! ### The steps of the long path -/

/-- A running HASH32 steps as its engine does. -/
theorem step_hash32 {s : State} (hscript : s.script = []) (hbusy : s.status = .busy)
    (hcmd : s.cmd = 0x00#8) : step s = outcomeOf (phaseStep engineHash32 s) :=
  step_busy hscript hbusy (i := .hash32) (by rw [hcmd]; rfl)

/-- The accumulators after INIT on `n` bytes, `l` the length as a word: the lines of R104. -/
def acc32AfterInit (b : Nat → Byte) (n : Nat) (l : W32) : Acc32 :=
  let h := rotMul5 (l ^^^ pre32 (word32At b (n - 4))) 19
  let g := rotMul5 (Rom.c1 * l ^^^ pre32 (word32At b (n - 8))) 19
  { h := rotMul5 (h ^^^ pre32 (word32At b (n - 16))) 19
    g := rotMul5 (g ^^^ pre32 (word32At b (n - 12))) 19
    f := rotMul5 (Rom.c1 * l + pre32 (word32At b (n - 20))) 19 }

theorem hash32Init_bytes {m : Msg} {b : Nat → Byte} (hb : m.Bytes b) (h : 24 < m.len) :
    hash32Init m = .ok (acc32AfterInit b m.len (trunc32 m.len)) := by
  rw [hash32Init, le32_bytes hb 104 (by omega), le32_bytes hb 104 (by omega),
    le32_bytes hb 104 (by omega), le32_bytes hb 104 (by omega), le32_bytes hb 104 (by omega)]
  rfl

/-- Settles O14: INIT takes the long path and stores the accumulators of `hash32Init_bytes`. -/
theorem hash32InitLoadsAccumulators : Obligations.Hash32InitLoadsAccumulators := by
  intro s b hb hlen hscript hbusy hcmd hphase
  have hinit : engineHash32.init s = .ok (s.setLong32
      (acc32AfterInit b s.len.toNat (s.len.setWidth 32)) 0#64 s.len .longLoop) := by
    simp only [engineHash32, hash32Init_bytes hb hlen, State.msg_len, trunc32_len]
    rfl
  have hlong : engineHash32.isShort s = false := decide_eq_false (Nat.not_le.mpr hlen)
  have hstep := step_hash32 hscript hbusy hcmd
  rw [phaseStep_init _ hphase, hlong, hinit] at hstep
  exact ⟨_, hstep, rfl⟩

/-- The accumulators after the block at `p`: the lines of R105. -/
def acc32AfterBlock (b : Nat → Byte) (p : Nat) (acc : Acc32) : Acc32 :=
  let b0 := pre32 (word32At b p)
  let b1 := word32At b (p + 4)
  let b2 := pre32 (word32At b (p + 8))
  let b3 := pre32 (word32At b (p + 12))
  let b4 := word32At b (p + 16)
  let h := rotMul5 (rotMul5 (acc.h ^^^ b0) 18 ^^^ (b3 + b1)) 19
  { f := bswap32 (rotMul5 (acc.g + b2) 18 ^^^ b4) * 5#32
    h := rotr32 (acc.f + b1) 19 * Rom.c1 + b0
    g := bswap32 (h + b4 * 5#32) }

theorem hash32Block_bytes {m : Msg} {b : Nat → Byte} (hb : m.Bytes b) {p : Nat}
    (h : p + 20 ≤ m.len) (acc : Acc32) :
    hash32Block m p acc = .ok (acc32AfterBlock b p acc) := by
  rw [hash32Block, le32_bytes hb 105 (by omega), le32_bytes hb 105 (by omega),
    le32_bytes hb 105 (by omega), le32_bytes hb 105 (by omega), le32_bytes hb 105 (by omega)]
  rfl

/-- Settles O15: the block step stores the accumulators of `hash32Block_bytes`. -/
theorem hash32BlockStepUpdatesAccumulators : Obligations.Hash32BlockStepUpdatesAccumulators := by
  intro s b hb hpos hscript hbusy hcmd hphase
  have hblock : engineHash32.block s = .ok (s.setLong32 (acc32AfterBlock b s.pos.toNat s.acc)
      (s.pos + 20#64) (s.rem - 20#64)
      (phaseAfterBlock32 s.len.toNat (s.pos + 20#64).toNat)) := by
    simp only [engineHash32, hash32Block_bytes hb hpos]
    rfl
  have hstep := step_hash32 hscript hbusy hcmd
  rw [phaseStep_block _ hphase, hblock] at hstep
  exact ⟨_, hstep, rfl, rfl, rfl⟩

/-- Settles O16: on an unchanged message TAIL finishes with the fold of the accumulators. -/
theorem hash32TailFoldsAccumulators : Obligations.Hash32TailFoldsAccumulators := by
  intro s hscript hbusy hcmd hphase hmsg
  have hstep : step s = .next (s.complete (place32 (hash32Tail s.acc))) := by
    rw [step_hash32 hscript hbusy hcmd, phaseStep_tail _ hphase]
    rfl
  rw [State.complete_of_unchanged _ s hmsg] at hstep
  refine ⟨_, hstep, rfl, rfl, ?_⟩
  -- `finish` clears the mark of R48, which was clear already
  rw [State.finish, State.dropWork, ← hmsg]

/-! ### The block count -/

/-- A START, the whole of the host's program, is accepted, and the run goes on as the phases of the
command (R173). -/
theorem run_start_eq_runPhases {s : State} {i : Instr} (hscript : s.script = [.start])
    (hidle : s.status ≠ .busy) (hi : decode s.cmd = .ok i) (k : Nat) :
    Host.Core.run core (k + 1) s =
      outcomeOf (runPhases (engineOf i) k (s.popScript []).launch) := by
  have hstep : step s = .next (s.popScript []).launch := by
    rw [step, hscript]
    exact onStart_accepts acceptStart hidle hi
  exact (run_succ_next k hstep).trans
    (run_eq_runPhases (s := (s.popScript []).launch) rfl hi (by simp) k)

/-- INIT and the block steps of HASH32 on a placed message, up to the count of R106. -/
theorem run32_of_placed {s : State} (hplaced : s.msg.Placed) (hlen : 24 < s.len.toNat) {k : Nat}
    (hk : k ≤ blocks32 s.len.toNat) :
    ∃ acc, runPhases engineHash32 (k + 1) s.launch = .ok (loopState32 s.launch k acc) := by
  have hin : 0 + 20 * k ≤ s.msg.len := by
    rw [State.msg_len]
    unfold blocks32 at hk
    omega
  obtain ⟨a, ha⟩ := (hash32Init_stops hlen).total hplaced
  obtain ⟨a', ha'⟩ := (hash32Blocks_stops k a hin).total hplaced
  refine ⟨a', ?_⟩
  rw [run32 s hlen k hk, ha]
  show (hash32Blocks s.msg k 0 a).bind _ = _
  rw [ha']
  rfl

/-- Settles O17: the START, then INIT and `k` block steps by `run32_of_placed`, which also gives
`POS` and PHASE. -/
theorem hash32LoopCount : Obligations.Hash32LoopCount := by
  intro s hplaced hlen hscript hidle hcmd
  refine ⟨by omega, fun k hk => ?_⟩
  have hlt := s.len.isLt
  have hdec : decode s.cmd = .ok .hash32 := by rw [hcmd]; rfl
  obtain ⟨acc, hrun⟩ := run32_of_placed (s := s.popScript []) hplaced hlen hk
  have hpos : (loopState32 (s.popScript []).launch k acc).pos.toNat = 20 * k :=
    word64_toNat (by omega)
  refine ⟨_, ?_, hpos, by omega, rfl⟩
  rw [show 2 + k = k + 1 + 1 by omega, run_start_eq_runPhases hscript hidle hdec]
  exact congrArg outcomeOf hrun

end Sys2Proof.Machine
end

section
/-! PROOFS. HASH64, HASH64S and HASH64SS (42_hash64.md R120 to R129). -/

namespace Sys2Proof.Machine

/-! ### The short paths -/

theorem lenMul_len (s : State) : lenMul s.len.toNat = Rom.k2 + s.len * 2#64 := by
  rw [lenMul, word64_len]

theorem commandValue_hash64 {s : State} {h : W64} (hv : hash64 s.cuts s.msg = .ok h) :
    commandValue .hash64 s = .ok (place64 h) := by
  rw [commandValue, hv]
  rfl

/-- HASH64 on 64 bytes or fewer leaves the value of SHORT_PATH (R67, R120). -/
theorem exec_hash64_of_short {s : State} {v : W64} (hlen : s.len.toNat ≤ 64)
    (hv : hash64Short s.cuts s.msg = .ok v) :
    ∃ t, exec .hash64 s = .next t ∧ t.resHi = 0#64 ∧ t.status = .done ∧ t.resLo = v := by
  have hshort : short64 s.msg.len = true := decide_eq_true hlen
  have hhash : hash64 s.cuts s.msg = .ok v := by rw [hash64, if_pos hshort, hv]
  obtain ⟨t, ht, hend⟩ := exec_of_value (commandValue_hash64 hhash)
  exact ⟨t, ht, hend.resHi, hend.status, hend.resLo⟩

theorem hash64Short_upTo16 {cuts : Cuts} {m : Msg} (h : m.len ≤ 16) :
    hash64Short cuts m = hash64_0to16 cuts m 0 m.len := by
  rw [hash64Short, if_pos h]

theorem hash64Short_from17To32 {cuts : Cuts} {m : Msg} (hlow : 17 ≤ m.len) (hhigh : m.len ≤ 32) :
    hash64Short cuts m = hash64_17to32 m := by
  rw [hash64Short, if_neg (by omega), if_pos hhigh]

theorem hash64Short_from33 {cuts : Cuts} {m : Msg} (h : 33 ≤ m.len) :
    hash64Short cuts m = hash64_33to64 m := by
  rw [hash64Short, if_neg (by omega), if_neg (by omega)]

/-- The value of R121 on the `n` bytes of `b` from `base` on, sub-case by sub-case. -/
def value64Upto16 (cuts : Cuts) (b : Nat → Byte) (base n : Nat) : W64 :=
  let mul := lenMul n
  if cuts.cut64WideMin ≤ n then
    let a := word64At b base + Rom.k2
    let e := word64At b (base + n - 8)
    hashLen16WithMul (rotr64 e 37 * mul + a) ((rotr64 a 25 + e) * mul) mul
  else if 4 ≤ n then
    hashLen16WithMul (word64 n + (zext64 (word32At b base) <<< 3))
      (zext64 (word32At b (base + n - 4))) mul
  else if 0 < n then
    let y := zext32 (b base) + (zext32 (b (base + n / 2)) <<< 8)
    let z := trunc32 n + (zext32 (b (base + n - 1)) <<< 2)
    shiftMix ((zext64 y * Rom.k2) ^^^ (zext64 z * Rom.k0)) * Rom.k2
  else Rom.k2

theorem eight_le_cut64WideMin (cuts : Cuts) : 8 ≤ cuts.cut64WideMin := by
  unfold Cuts.cut64WideMin
  split <;> omega

theorem hash64_0to16_bytes {m : Msg} {b : Nat → Byte} (hb : m.Bytes b) (cuts : Cuts) {base n : Nat}
    (h : base + n ≤ m.len) : hash64_0to16 cuts m base n = .ok (value64Upto16 cuts b base n) := by
  have hcut := eight_le_cut64WideMin cuts
  unfold hash64_0to16 value64Upto16
  by_cases hwide : cuts.cut64WideMin ≤ n
  · rw [if_pos hwide, if_pos hwide, le64_bytes hb 121 (by omega), le64_bytes hb 121 (by omega)]
    rfl
  rw [if_neg hwide, if_neg hwide]
  by_cases hfour : 4 ≤ n
  · rw [if_pos hfour, if_pos hfour, le32_bytes hb 121 (by omega), le32_bytes hb 121 (by omega)]
    rfl
  rw [if_neg hfour, if_neg hfour]
  by_cases hone : 0 < n
  · rw [if_pos hone, if_pos hone, Nat.shiftRight_one, byteAt_bytes hb 121 (by omega),
      byteAt_bytes hb 121 (by omega), byteAt_bytes hb 121 (by omega)]
    rfl
  rw [if_neg hone, if_neg hone]

/-- Settles O18: the four sub-cases of `hash64_0to16_bytes` on the whole message. -/
theorem hash64UpTo16Bytes : Obligations.Hash64UpTo16Bytes := by
  intro s b hb hlen
  have hv := (hash64Short_upTo16 (cuts := s.cuts) hlen).trans
    (hash64_0to16_bytes hb s.cuts (by omega))
  simp only [State.msg_len, value64Upto16, Nat.zero_add, lenMul_len, word64_len,
    trunc32_len] at hv
  exact exec_hash64_of_short (by omega) hv

/-- The value of R122 on the `n` bytes of `b`. -/
def value64From17To32 (b : Nat → Byte) (n : Nat) : W64 :=
  let mul := lenMul n
  let a := word64At b 0 * Rom.k1
  let e := word64At b 8
  let c := word64At b (n - 8) * mul
  let d := word64At b (n - 16) * Rom.k2
  hashLen16WithMul (rotr64 (a + e) 43 + rotr64 c 30 + d) (a + rotr64 (e + Rom.k2) 18 + c) mul

theorem hash64_17to32_bytes {m : Msg} {b : Nat → Byte} (hb : m.Bytes b) (hlow : 17 ≤ m.len) :
    hash64_17to32 m = .ok (value64From17To32 b m.len) := by
  rw [hash64_17to32, le64_bytes hb 122 (by omega), le64_bytes hb 122 (by omega),
    le64_bytes hb 122 (by omega), le64_bytes hb 122 (by omega)]
  rfl

/-- Settles O19: the four loads of `hash64_17to32_bytes`. -/
theorem hash64From17To32Bytes : Obligations.Hash64From17To32Bytes := by
  intro s b hb hlow hhigh
  have hv := (hash64Short_from17To32 (cuts := s.cuts) hlow hhigh).trans (hash64_17to32_bytes hb hlow)
  rw [State.msg_len, value64From17To32, lenMul_len] at hv
  exact exec_hash64_of_short (by omega) hv

/-- The value of R123 on the `n` bytes of `b`. -/
def value64From33To64 (b : Nat → Byte) (n : Nat) : W64 :=
  let mul := lenMul n
  let a := word64At b 0 * Rom.k2
  let e1 := word64At b 8
  let c := word64At b (n - 24)
  let d := word64At b (n - 32)
  let e := word64At b 16 * Rom.k2
  let f := word64At b 24 * 9#64
  let g := word64At b (n - 8)
  let h := word64At b (n - 16) * mul
  let u := rotr64 (a + g) 43 + (rotr64 e1 30 + c) * 9#64
  let v := ((a + g) ^^^ d) + f + 1#64
  let w := bswap64 ((u + v) * mul) + h
  let x := rotr64 (e + f) 42 + c
  let y := (bswap64 ((v + w) * mul) + g) * mul
  let z := e + f + c
  let a' := bswap64 ((x + z) * mul + y) + e1
  shiftMix ((z + a') * mul + d + h) * mul + x

theorem hash64_33to64_bytes {m : Msg} {b : Nat → Byte} (hb : m.Bytes b) (hlow : 33 ≤ m.len) :
    hash64_33to64 m = .ok (value64From33To64 b m.len) := by
  rw [hash64_33to64, le64_bytes hb 123 (by omega), le64_bytes hb 123 (by omega),
    le64_bytes hb 123 (by omega), le64_bytes hb 123 (by omega), le64_bytes hb 123 (by omega),
    le64_bytes hb 123 (by omega), le64_bytes hb 123 (by omega), le64_bytes hb 123 (by omega)]
  rfl

/-- Settles O20: the eight loads of `hash64_33to64_bytes`. -/
theorem hash64From33To64Bytes : Obligations.Hash64From33To64Bytes := by
  intro s b hb hlow hhigh
  have hv := (hash64Short_from33 (cuts := s.cuts) hlow).trans (hash64_33to64_bytes hb hlow)
  rw [State.msg_len, value64From33To64, lenMul_len] at hv
  exact exec_hash64_of_short hhigh hv

/-! ### The steps of the long path -/

section

variable {i : Instr} (hi : i = .hash64 ∨ i = .hash64s ∨ i = .hash64ss)

include hi

theorem engineOf_init64 : (engineOf i).init = long64Init := by
  rcases hi with rfl | rfl | rfl <;> rfl

theorem engineOf_block64 : (engineOf i).block = long64Block := by
  rcases hi with rfl | rfl | rfl <;> rfl

theorem engineOf_isShort64 (s : State) : (engineOf i).isShort s = short64 s.len.toNat := by
  rcases hi with rfl | rfl | rfl <;> rfl

end

/-- The three descriptors of the 64-bit commands (R61). -/
theorem exists_decode_of_64 {cmd : Byte} (h : cmd = 0x01#8 ∨ cmd = 0x02#8 ∨ cmd = 0x03#8) :
    ∃ i : Instr, (i = .hash64 ∨ i = .hash64s ∨ i = .hash64ss) ∧ decode cmd = .ok i := by
  rcases h with rfl | rfl | rfl
  · exact ⟨.hash64, by decide, rfl⟩
  · exact ⟨.hash64s, by decide, rfl⟩
  · exact ⟨.hash64ss, by decide, rfl⟩

/-- The rolling state after INIT on the `n` bytes of `b`: the lines of R124. -/
def rollingAfterInit64 (b : Nat → Byte) (n : Nat) : Rolling :=
  let weak := fun (p : Nat) (a c : W64) =>
    weakHash32 (word64At b p) (word64At b (p + 8)) (word64At b (p + 16)) (word64At b (p + 24)) a c
  let x := word64At b (n - 40)
  let y := word64At b (n - 16) + word64At b (n - 56)
  let z := hashLen16 (word64At b (n - 48) + word64 n) (word64At b (n - 24))
  let v := weak (n - 64) (word64 n) z
  let w := weak (n - 32) (y + Rom.k1) x
  { x := x * Rom.k1 + word64At b 0, y := y, z := z, v0 := v.lo, v1 := v.hi, w0 := w.lo, w1 := w.hi }

theorem hash64Init_bytes {m : Msg} {b : Nat → Byte} (hb : m.Bytes b) (h : 64 < m.len) :
    hash64Init m = .ok (rollingAfterInit64 b m.len) := by
  rw [hash64Init, le64_bytes hb 124 (by omega), le64_bytes hb 124 (by omega),
    le64_bytes hb 124 (by omega), le64_bytes hb 124 (by omega), le64_bytes hb 124 (by omega),
    le64_bytes hb 124 (by omega)]
  simp only [weakHash32At_bytes hb 124 (show m.len - 64 + 32 ≤ m.len by omega),
    weakHash32At_bytes hb 124 (show m.len - 32 + 32 ≤ m.len by omega)]
  rfl

/-- Settles O21: INIT takes the long path and stores the rolling state of `hash64Init_bytes`. -/
theorem hash64InitLoadsRollingState : Obligations.Hash64InitLoadsRollingState := by
  intro s b hb hlen hscript hbusy hcmd hphase
  obtain ⟨i, hi, hdec⟩ := exists_decode_of_64 hcmd
  have hlong : (engineOf i).isShort s = false := by
    rw [engineOf_isShort64 hi]
    exact decide_eq_false (Nat.not_le.mpr hlen)
  have hinit : long64Init s =
      .ok (s.setLong64 (rollingAfterInit64 b s.len.toNat) 0#64 s.len .longLoop) := by
    rw [long64Init, hash64Init_bytes hb hlen]
    rfl
  rw [step_busy hscript hbusy hdec, phaseStep_init _ hphase, hlong, engineOf_init64 hi]
  simp only [hinit, rollingAfterInit64, word64_len]
  rfl

/-- Settles O24: on an unchanged message TAIL finishes with the fold of the rolling state. -/
theorem hash64TailFoldsSevenWords : Obligations.Hash64TailFoldsSevenWords := by
  intro s hscript hbusy hcmd hphase hmsg
  have hdec : decode s.cmd = .ok .hash64 := by rw [hcmd]; rfl
  have hstep : step s = .next (s.complete (place64 (hash64Fold s.roll))) := by
    rw [step_busy hscript hbusy hdec, phaseStep_tail _ hphase]
    rfl
  rw [State.complete_of_unchanged _ s hmsg] at hstep
  refine ⟨_, hstep, rfl, rfl, ?_⟩
  -- `finish` clears the mark of R48, which was clear already
  rw [State.finish, State.dropWork, ← hmsg]

/-! ### The block count -/

/-- INIT and the block steps of a 64-bit command on a placed message, up to the count of R126. -/
theorem run64_of_placed {i : Instr} (hi : i = .hash64 ∨ i = .hash64s ∨ i = .hash64ss) {s : State}
    (hplaced : s.msg.Placed) (hlen : 64 < s.len.toNat) {k : Nat} (hk : k ≤ blocks64 s.len.toNat) :
    ∃ r, runPhases (engineOf i) (k + 1) s.launch = .ok (loopState64 s.launch k r) := by
  have hin : 0 + 64 * k ≤ s.msg.len := by
    rw [State.msg_len]
    unfold blocks64 at hk
    omega
  obtain ⟨r, hr⟩ := (hash64Init_stops hlen).total hplaced
  obtain ⟨r', hr'⟩ := (blockSteps_stops 125 k r hin).total hplaced
  refine ⟨r', ?_⟩
  rw [run64 _ (engineOf_isShort64 hi) (engineOf_init64 hi) (engineOf_block64 hi) s hlen k hk, hr]
  show (blockSteps 125 s.msg k 0 r).bind _ = _
  rw [hr']
  rfl

/-- `floor((LEN - 1) / 64)` counts the block steps taken while `REM > 64` (R126). -/
theorem lt_blocks64_iff {len k : Nat} : k < (len - 1) / 64 ↔ 64 < len - 64 * k := by omega

/-- Settles O23: the START, then INIT and `k` block steps by `run64_of_placed`, which also gives
`POS`, `REM` and PHASE. -/
theorem hash64LoopCount : Obligations.Hash64LoopCount := by
  intro s i hi hplaced hlen hscript hidle hdec
  refine ⟨by omega, fun k hk => ?_⟩
  have hlt := s.len.isLt
  obtain ⟨r, hrun⟩ := run64_of_placed hi (s := s.popScript []) hplaced hlen hk
  have hpos : (loopState64 (s.popScript []).launch k r).pos.toNat = 64 * k :=
    word64_toNat (by omega)
  have hrem : (loopState64 (s.popScript []).launch k r).rem.toNat = s.len.toNat - 64 * k :=
    word64_toNat (by omega)
  have hphase : (loopState64 (s.popScript []).launch k r).phase =
      if 64 < s.len.toNat - 64 * k then .longLoop else .tail :=
    if_congr lt_blocks64_iff rfl rfl
  have hstart : Host.Core.run core (2 + k) s =
      .next (loopState64 (s.popScript []).launch k r) := by
    rw [show 2 + k = k + 1 + 1 by omega, run_start_eq_runPhases hscript hidle hdec]
    exact congrArg outcomeOf hrun
  refine ⟨_, hstart, hpos, hrem, ?_⟩
  rw [hrem]
  exact ⟨hphase, by omega, lt_blocks64_iff.mp⟩

/-! ### The seeded commands -/

/-- On a placed message HASH64 leaves `h`, and a 64-bit command whose function combines the seeds
with `h` by `g` leaves `g h` (R12, R128, R129). -/
theorem exec_seeded_of_placed {i : Instr} {s : State} (hplaced : s.msg.Placed) (g : W64 → W64)
    (hg : ∀ h, hash64 s.cuts s.msg = .ok h → commandValue i s = .ok (place64 (g h))) :
    ∃ u t, exec .hash64 s = .next u ∧ exec i s = .next t ∧ t.resLo = g u.resLo ∧ t.resHi = 0#64 ∧
      t.status = .done := by
  obtain ⟨h, hv⟩ := (hash64_stops s.cuts s.msg).total hplaced
  obtain ⟨u, hu, huEnd⟩ := exec_of_value (commandValue_hash64 hv)
  obtain ⟨t, ht, htEnd⟩ := exec_of_value (hg h hv)
  exact ⟨u, t, hu, ht, htEnd.resLo.trans (congrArg g huEnd.resLo.symm), htEnd.resHi, htEnd.status⟩

theorem commandValue_hash64s {s : State} {h : W64} (hv : hash64 s.cuts s.msg = .ok h) :
    commandValue .hash64s s = .ok (place64 (seedOne s.seed0 h)) := by
  rw [commandValue, hv]
  rfl

theorem commandValue_hash64ss {s : State} {h : W64} (hv : hash64 s.cuts s.msg = .ok h) :
    commandValue .hash64ss s = .ok (place64 (seedTwo s.seed0 s.seed1 h)) := by
  rw [commandValue, hv]
  rfl

/-- Settles O25: both functions are total on a placed message and share the value of `hash64`. -/
theorem hash64sCombinesSeed : Obligations.Hash64sCombinesSeed :=
  fun s hplaced => exec_seeded_of_placed hplaced (seedOne s.seed0) fun _ => commandValue_hash64s

/-- Settles O26: both functions are total on a placed message and share the value of `hash64`. -/
theorem hash64ssCombinesSeeds : Obligations.Hash64ssCombinesSeeds :=
  fun s hplaced =>
    exec_seeded_of_placed hplaced (seedTwo s.seed0 s.seed1) fun _ => commandValue_hash64ss

end Sys2Proof.Machine
end

section
/-! PROOFS. HASH128S and HASH128 (43_hash128.md R150 to R158). -/

namespace Sys2Proof.Machine

/-! ### The bytes of a part -/

/-- The bytes of a part that starts at the message offset `base`. -/
def bytesFrom (b : Nat → Byte) (base : Nat) : Nat → Byte := fun off => b (base + off)

@[simp] theorem bytesFrom_zero (b : Nat → Byte) : bytesFrom b 0 = b :=
  funext fun off => congrArg b (Nat.zero_add off)

theorem le64_bytesFrom {m : Msg} {b : Nat → Byte} (hb : m.Bytes b) (rule : Nat) {base off : Nat}
    (h : base + off + 8 ≤ m.len) :
    le64 rule m (base + off) = .ok (word64At (bytesFrom b base) off) :=
  le64_bytes hb rule h

/-- The value of R121 sees a part through the bytes of the part. -/
theorem value64Upto16_bytesFrom (cuts : Cuts) (b : Nat → Byte) (base n : Nat) :
    value64Upto16 cuts b base n = value64Upto16 cuts (bytesFrom b base) 0 n := by
  have hcut := eight_le_cut64WideMin cuts
  unfold value64Upto16
  simp only [Nat.zero_add]
  by_cases hwide : cuts.cut64WideMin ≤ n
  · rw [if_pos hwide, if_pos hwide, Nat.add_sub_assoc (show 8 ≤ n by omega)]
    rfl
  rw [if_neg hwide, if_neg hwide]
  by_cases hfour : 4 ≤ n
  · rw [if_pos hfour, if_pos hfour, Nat.add_sub_assoc hfour]
    rfl
  rw [if_neg hfour, if_neg hfour]
  by_cases hone : 0 < n
  · rw [if_pos hone, if_pos hone, Nat.add_sub_assoc (show 1 ≤ n from hone)]
    rfl
  rw [if_neg hone, if_neg hone]

/-! ### The values of the two paths -/

/-- The pair of R151 on the `n` bytes of `b`. -/
def valueFinisherShort (cuts : Cuts) (b : Nat → Byte) (n : Nat) (seeds : Pair) : Pair :=
  let a := shiftMix (seeds.lo * Rom.k1) * Rom.k1
  let c := seeds.hi * Rom.k1 + value64Upto16 cuts b 0 n
  let d := shiftMix (a + (if 8 ≤ n then word64At b 0 else c))
  finisherEnd a seeds.hi c d

/-- The body of R152 on chunk `j`; the words are `((a, b), (c, d))`. -/
def finisherRound (b : Nat → Byte) (q : (W64 × W64) × (W64 × W64)) (j : Nat) :
    (W64 × W64) × (W64 × W64) :=
  let a := (q.1.1 ^^^ (shiftMix (word64At b (16 * j) * Rom.k1) * Rom.k1)) * Rom.k1
  let c := (q.2.1 ^^^ (shiftMix (word64At b (16 * j + 8) * Rom.k1) * Rom.k1)) * Rom.k1
  ((a, q.1.2 ^^^ a), (c, q.2.2 ^^^ c))

/-- The common ending on the words `((a, b), (c, d))`. -/
def finisherEndOf (q : (W64 × W64) × (W64 × W64)) : Pair :=
  finisherEnd q.1.1 q.1.2 q.2.1 q.2.2

/-- The pair of R152 on the `n` bytes of `b`. -/
def valueFinisherLong (b : Nat → Byte) (n : Nat) (seeds : Pair) : Pair :=
  let c := hashLen16 (word64At b (n - 8) + Rom.k1) seeds.lo
  let d := hashLen16 (seeds.hi + word64 n) (c + word64At b (n - 16))
  finisherEndOf ((List.range (finisherChunks n)).foldl (finisherRound b)
    ((seeds.lo + d, seeds.hi), (c, d)))

/-- The rolling state after INIT on the `n` bytes of `b`: the lines of R153. -/
def rollingAfterInit128 (b : Nat → Byte) (n : Nat) (seeds : Pair) : Rolling :=
  let z := word64 n * Rom.k1
  let v0 := rotr64 (seeds.hi ^^^ Rom.k1) 49 * Rom.k1 + word64At b 0
  { x := seeds.lo, y := seeds.hi, z := z, v0 := v0
    v1 := rotr64 v0 42 * Rom.k1 + word64At b 8
    w0 := rotr64 (seeds.hi + z) 35 * Rom.k1 + seeds.lo
    w1 := rotr64 (seeds.lo + word64At b 88) 53 * Rom.k1 }

/-- The rolling state after the backward pass on the 32 bytes at `q`: the lines of R156. -/
def rollingAfterTailPass (b : Nat → Byte) (q : Nat) (r : Rolling) : Rolling :=
  let w0 := r.w0 + word64At b (q + 16)
  let z := r.z + r.w1 + word64At b q
  let v := weakHash32 (word64At b q) (word64At b (q + 8)) (word64At b (q + 16))
    (word64At b (q + 24)) (r.v0 + z) r.v1
  { x := r.x * Rom.k0 + w0, y := rotr64 (r.x + r.y) 42 * Rom.k0 + r.v1, z := z
    v0 := v.lo * Rom.k0, v1 := v.hi, w0 := w0, w1 := r.w1 + r.v0 }

/-- Pass `j` of R156, backwards from the end of the `n` bytes of `b`. -/
def tailRound (b : Nat → Byte) (n : Nat) (r : Rolling) (j : Nat) : Rolling :=
  rollingAfterTailPass b (n - 32 * (j + 1)) r

/-- The pair of R155, R156 and R157 on the `n` bytes of `b`, the last `rem` of them not consumed. -/
def valueTail128 (b : Nat → Byte) (n rem : Nat) (r : Rolling) : Pair :=
  hash128Fold ((List.range (tailPasses rem)).foldl (tailRound b n) (hash128Scramble r))

/-- The pair of `hash128_with_seed` on the `n` bytes of `b` (R150). -/
def value128 (cuts : Cuts) (b : Nat → Byte) (n : Nat) (seeds : Pair) : Pair :=
  if short128 cuts n then
    if n ≤ cuts.cut128ShortMax then valueFinisherShort cuts b n seeds
    else valueFinisherLong b n seeds
  else valueTail128 b n (n % 128)
    ((List.range (2 * pairs128 n)).foldl (fun r j => rollingAfterBlock b (64 * j) r)
      (rollingAfterInit128 b n seeds))

theorem fifteen_le_cut128ShortMax (cuts : Cuts) : 15 ≤ cuts.cut128ShortMax := by
  unfold Cuts.cut128ShortMax
  split <;> omega

theorem cut128ShortMax_le (cuts : Cuts) : cuts.cut128ShortMax ≤ 16 := by
  unfold Cuts.cut128ShortMax
  split <;> omega

theorem oneTwentySeven_le_cut128FinMax (cuts : Cuts) : 127 ≤ cuts.cut128FinMax := by
  unfold Cuts.cut128FinMax
  split <;> omega

theorem value128_short {cuts : Cuts} {n : Nat} (h : n ≤ cuts.cut128ShortMax) (b : Nat → Byte)
    (seeds : Pair) : value128 cuts b n seeds = valueFinisherShort cuts b n seeds := by
  have hfin : n ≤ cuts.cut128FinMax := by
    have hcut := cut128ShortMax_le cuts
    have hcut' := oneTwentySeven_le_cut128FinMax cuts
    omega
  have hshort : short128 cuts n = true := decide_eq_true hfin
  rw [value128, if_pos hshort, if_pos h]

theorem value128_long {cuts : Cuts} {n : Nat} (hlow : cuts.cut128ShortMax < n)
    (hhigh : n ≤ cuts.cut128FinMax) (b : Nat → Byte) (seeds : Pair) :
    value128 cuts b n seeds = valueFinisherLong b n seeds := by
  have hshort : short128 cuts n = true := decide_eq_true hhigh
  rw [value128, if_pos hshort, if_neg (Nat.not_le.mpr hlow)]

/-! ### The engine functions on a part with known bytes -/

theorem hash128TailPass_bytes {m : Msg} {b : Nat → Byte} (hb : m.Bytes b) {q : Nat}
    (h : q + 32 ≤ m.len) (r : Rolling) :
    hash128TailPass m q r = .ok (rollingAfterTailPass b q r) := by
  rw [hash128TailPass, le64_bytes hb 156 (by omega), le64_bytes hb 156 (by omega)]
  simp only [weakHash32At_bytes hb 156 h]
  rfl

section

variable {m : Msg} {b : Nat → Byte} (hb : m.Bytes b) {p : Part} (hp : p.base + p.n ≤ m.len)

include hb hp

theorem finisherShort_bytes (cuts : Cuts) (seeds : Pair) :
    finisherShort cuts m p seeds =
      .ok (valueFinisherShort cuts (bytesFrom b p.base) p.n seeds) := by
  rw [finisherShort, hash64_0to16_bytes hb cuts hp, value64Upto16_bytesFrom, valueFinisherShort]
  by_cases hload : 8 ≤ p.n
  · simp only [hload, if_true, le64_bytes hb 151 (show p.base + 8 ≤ m.len by omega)]
    rfl
  · simp only [hload, if_false]
    rfl

theorem finisherChunkLoop_bytes (k : Nat) {j : Nat} (h : 16 * (j + k) ≤ p.n)
    (q : (W64 × W64) × (W64 × W64)) :
    finisherChunkLoop m k (p.base + 16 * j) q.1.1 q.1.2 q.2.1 q.2.2 =
      .ok (finisherEndOf ((List.range' j k).foldl (finisherRound (bytesFrom b p.base)) q)) := by
  induction k generalizing j q with
  | zero => rfl
  | succ k ih =>
    rw [finisherChunkLoop, le64_bytesFrom hb 152 (by omega), Nat.add_assoc p.base,
      le64_bytesFrom hb 152 (by omega)]
    exact ih (j := j + 1) (by omega) (finisherRound (bytesFrom b p.base) q j)

theorem finisherLong_bytes (hn : 16 ≤ p.n) (seeds : Pair) :
    finisherLong m p seeds = .ok (valueFinisherLong (bytesFrom b p.base) p.n seeds) := by
  have hchunks : 16 * (0 + finisherChunks p.n) ≤ p.n := by
    unfold finisherChunks
    omega
  rw [finisherLong, Nat.add_sub_assoc (show 8 ≤ p.n by omega), Nat.add_sub_assoc hn,
    le64_bytesFrom hb 152 (by omega), le64_bytesFrom hb 152 (by omega), valueFinisherLong,
    List.range_eq_range']
  exact finisherChunkLoop_bytes hb hp _ hchunks ((_, _), (_, _))

theorem hash128Init_bytes (hn : 128 ≤ p.n) (seeds : Pair) :
    hash128Init m p seeds = .ok (rollingAfterInit128 (bytesFrom b p.base) p.n seeds) := by
  rw [hash128Init, le64_bytes hb 153 (by omega), le64_bytes hb 153 (by omega),
    le64_bytes hb 153 (by omega)]
  rfl

theorem blockSteps_bytes (rule k : Nat) {j : Nat} (h : 64 * (j + k) ≤ p.n) (r : Rolling) :
    blockSteps rule m k (p.base + 64 * j) r =
      .ok ((List.range' j k).foldl
        (fun r j => rollingAfterBlock (bytesFrom b p.base) (64 * j) r) r) := by
  induction k generalizing j r with
  | zero => rfl
  | succ k ih =>
    rw [blockSteps, blockStep_bytes hb rule (by omega)]
    exact ih (j := j + 1) (by omega) _

theorem hash128TailLoop_bytes (k : Nat) {j : Nat} (h : 32 * (j + k) ≤ p.n) (r : Rolling) :
    hash128TailLoop m (p.base + p.n) k (32 * j) r =
      .ok ((List.range' j k).foldl (tailRound (bytesFrom b p.base) p.n) r) := by
  induction k generalizing j r with
  | zero => rfl
  | succ k ih =>
    rw [hash128TailLoop, Nat.add_sub_assoc (show 32 * j + 32 ≤ p.n by omega),
      hash128TailPass_bytes hb (by omega)]
    exact ih (j := j + 1) (by omega) (tailRound (bytesFrom b p.base) p.n r j)

theorem hash128Tail_bytes {rem : Nat} (hrem : rem < 128) (hn : 128 ≤ p.n) (r : Rolling) :
    hash128Tail m (p.base + p.n) rem r =
      .ok (valueTail128 (bytesFrom b p.base) p.n rem r) := by
  have hpasses : 32 * (0 + tailPasses rem) ≤ p.n := by
    unfold tailPasses
    omega
  have hloop := hash128TailLoop_bytes hb hp _ hpasses (hash128Scramble r)
  rw [Nat.mul_zero, ← List.range_eq_range'] at hloop
  rw [hash128Tail, hloop]
  rfl

theorem hash128Long_bytes (hn : 128 ≤ p.n) (seeds : Pair) :
    hash128Long m p seeds = .ok (valueTail128 (bytesFrom b p.base) p.n (p.n % 128)
      ((List.range (2 * pairs128 p.n)).foldl
        (fun r j => rollingAfterBlock (bytesFrom b p.base) (64 * j) r)
        (rollingAfterInit128 (bytesFrom b p.base) p.n seeds))) := by
  have hblocks : 64 * (0 + 2 * pairs128 p.n) ≤ p.n := by
    unfold pairs128
    omega
  have hloop := blockSteps_bytes hb hp 154 _ hblocks
    (rollingAfterInit128 (bytesFrom b p.base) p.n seeds)
  rw [Nat.mul_zero, Nat.add_zero, ← List.range_eq_range'] at hloop
  rw [hash128Long_bind, hash128Init_bytes hb hp hn]
  show (blockSteps 154 m _ _ _).bind _ = _
  rw [hloop]
  exact hash128Tail_bytes hb hp (Nat.mod_lt _ (by decide)) hn _

theorem hash128WithSeed_bytes (cuts : Cuts) (seeds : Pair) :
    hash128WithSeed cuts m p seeds =
      .ok (value128 cuts (bytesFrom b p.base) p.n seeds) := by
  rw [hash128WithSeed, value128]
  cases hpath : short128 cuts p.n
  case false => exact hash128Long_bytes hb hp (short128_false hpath) seeds
  case true =>
    rw [if_pos rfl, if_pos rfl, finisher]
    by_cases hshort : p.n ≤ cuts.cut128ShortMax
    · rw [if_pos hshort, if_pos hshort, finisherShort_bytes hb hp]
    · have hcut := fifteen_le_cut128ShortMax cuts
      rw [if_neg hshort, if_neg hshort, finisherLong_bytes hb hp (by omega)]

end

/-! ### The commands -/

theorem exec_hash128s_of_bytes {s : State} {b : Nat → Byte} (hb : s.msg.Bytes b) :
    ∃ t, exec .hash128s s = .next t ∧
      CommandEnd s (value128 s.cuts b s.len.toNat (seedsOperand s)) t := by
  have hv := hash128WithSeed_bytes hb (p := partWhole s.len.toNat) (Nat.zero_add _).le s.cuts
    (seedsOperand s)
  rw [show (partWhole s.len.toNat).base = 0 from rfl, bytesFrom_zero] at hv
  exact exec_of_value hv

theorem exec_hash128_of_seeds {s : State} {b : Nat → Byte} (hb : s.msg.Bytes b) {seeds : Pair}
    (hseeds : seedsUnseeded s.msg = .ok seeds) :
    ∃ t, exec .hash128 s = .next t ∧
      CommandEnd s (value128 s.cuts (bytesFrom b (partUnseeded s.len.toNat).base)
        (partUnseeded s.len.toNat).n seeds) t := by
  have hv := hash128WithSeed_bytes hb (partUnseeded_total s.len.toNat).le s.cuts seeds
  refine exec_of_value ?_
  rw [commandValue, hash128, hseeds]
  exact hv

theorem exec_hash64_upTo16 {s : State} {b : Nat → Byte} (hb : s.msg.Bytes b)
    (hlen : s.len.toNat ≤ 16) :
    ∃ u, exec .hash64 s = .next u ∧ u.resLo = value64Upto16 s.cuts b 0 s.len.toNat := by
  have hv := (hash64Short_upTo16 (cuts := s.cuts) hlen).trans
    (hash64_0to16_bytes hb s.cuts (Nat.zero_add _).le)
  obtain ⟨u, hu, -, -, hlo⟩ := exec_hash64_of_short (by omega) hv
  exact ⟨u, hu, hlo⟩

/-- Settles O28: HASH64 and the finisher's short branch share the value of `hash64_0to16`. -/
theorem hash128sFinisherShort : Obligations.Hash128sFinisherShort := by
  intro s b hb hlen
  obtain ⟨u, hu, hlo⟩ := exec_hash64_upTo16 hb (hlen.trans (cut128ShortMax_le _))
  obtain ⟨t, ht, hend⟩ := exec_hash128s_of_bytes hb
  rw [value128_short hlen] at hend
  refine ⟨u, t, hu, ht, ?_, hend.status⟩
  rw [hlo]
  exact ⟨hend.resLo, hend.resHi⟩

/-- R152: above 15 bytes the two forms of the chunk count agree. -/
theorem finisherChunks_eq {n : Nat} (h : 15 < n) : finisherChunks n = max 1 ((n - 1) / 16) := by
  rw [finisherChunks, show n - 16 + 15 = n - 1 by omega]

/-- Settles O29: the value of R152, its chunk loop a fold over the chunk numbers. -/
theorem hash128sFinisherLong : Obligations.Hash128sFinisherLong := by
  intro s b hb hlow hhigh
  have hcut := fifteen_le_cut128ShortMax s.cuts
  obtain ⟨t, ht, hend⟩ := exec_hash128s_of_bytes hb
  rw [value128_long hlow hhigh, valueFinisherLong, finisherChunks_eq (by omega), word64_len] at hend
  exact ⟨t, ht, hend.resLo, hend.resHi, hend.status⟩

/-- A running HASH128S steps as its engine does. -/
theorem step_hash128s {s : State} (hscript : s.script = []) (hbusy : s.status = .busy)
    (hcmd : s.cmd = 0x05#8) : step s = outcomeOf (phaseStep engineHash128S s) :=
  step_busy hscript hbusy (i := .hash128s) (by rw [hcmd]; rfl)

/-- Settles O30: INIT takes the long path and stores the rolling state of `hash128Init_bytes`. -/
theorem hash128sInitLoadsRollingState : Obligations.Hash128sInitLoadsRollingState := by
  intro s b hb hlen hscript hbusy hcmd hphase
  have hlong : engineHash128S.isShort s = false := decide_eq_false (Nat.not_le.mpr hlen)
  have hroll := hash128Init_bytes hb (p := partWhole s.len.toNat) (Nat.zero_add _).le
    (short128_false hlong) (seedsOperand s)
  have hinit : engineHash128S.init s = .ok (s.setLong64
      (rollingAfterInit128 (bytesFrom b 0) s.len.toNat (seedsOperand s)) 0#64
      (word64 s.len.toNat) .longLoop) := by
    simp only [engineHash128S, long128Init, hroll]
    rfl
  rw [step_hash128s hscript hbusy hcmd, phaseStep_init _ hphase, hlong]
  simp only [hinit, rollingAfterInit128, bytesFrom_zero, word64_len]
  rfl

/-- Settles O32: on an unchanged message TAIL finishes with the pair of `hash128Tail_bytes`. -/
theorem hash128sTailScramblesPassesAndFolds :
    Obligations.Hash128sTailScramblesPassesAndFolds := by
  intro s b hb hscript hbusy hcmd hphase hmsg hend hrem hpos
  have hpart := hash128Tail_bytes hb (p := partWhole s.len.toNat) (Nat.zero_add _).le hrem
    (show 128 ≤ s.len.toNat by omega) s.roll
  have htail : engineHash128S.tail s = .ok (valueTail128 b s.len.toNat s.rem.toNat s.roll) := by
    simpa only [engineHash128S, long128Tail, hend, partWhole, Nat.zero_add, bytesFrom_zero]
      using hpart
  have hstep : step s = .next (s.complete (valueTail128 b s.len.toNat s.rem.toNat s.roll)) := by
    rw [step_hash128s hscript hbusy hcmd, phaseStep_tail _ hphase, htail]
    rfl
  rw [State.complete_of_unchanged _ s hmsg] at hstep
  refine ⟨_, hstep, rfl, rfl, ?_⟩
  -- `finish` clears the mark of R48, which was clear already
  rw [State.finish, State.dropWork, ← hmsg]

/-! ### The seed pair of HASH128 -/

theorem seedsUnseeded_of_lt {m : Msg} (h : m.len < 16) :
    seedsUnseeded m = .ok { lo := Rom.k0, hi := Rom.k1 } := by
  rw [seedsUnseeded, if_neg (Nat.not_le.mpr h)]

theorem seedsUnseeded_bytes {m : Msg} {b : Nat → Byte} (hb : m.Bytes b) (h : 16 ≤ m.len) :
    seedsUnseeded m = .ok { lo := word64At b 0, hi := word64At b 8 + Rom.k0 } := by
  rw [seedsUnseeded, if_pos h, le64_bytes hb 158 (by omega), le64_bytes hb 158 (by omega)]
  rfl

theorem partUnseeded_of_lt {n : Nat} (h : n < 16) : partUnseeded n = partWhole n :=
  if_neg (Nat.not_le.mpr h)

theorem partUnseeded_of_le {n : Nat} (h : 16 ≤ n) :
    partUnseeded n = { base := 16, n := n - 16 } :=
  if_pos h

/-- Settles O33: both commands leave `value128` of the same bytes, length and seed pair. -/
theorem hash128IsHash128sOfItsPart : Obligations.Hash128IsHash128sOfItsPart := by
  intro s b hb
  refine ⟨fun hlen => ?whole, fun hlen s' hlen' hcuts hb' hseed0 hseed1 => ?rest⟩
  case whole =>
    obtain ⟨t, ht, htEnd⟩ := exec_hash128_of_seeds hb (seedsUnseeded_of_lt hlen)
    obtain ⟨u, hu, huEnd⟩ :=
      exec_hash128s_of_bytes (s := { s with seed0 := Rom.k0, seed1 := Rom.k1 }) hb
    rw [partUnseeded_of_lt hlen, show (partWhole s.len.toNat).base = 0 from rfl,
      bytesFrom_zero] at htEnd
    exact ⟨t, u, ht, hu, htEnd.resLo.trans huEnd.resLo.symm, htEnd.resHi.trans huEnd.resHi.symm,
      htEnd.status⟩
  case rest =>
    have hn : s'.len.toNat = s.len.toNat - 16 := by
      rw [hlen', BitVec.toNat_sub_of_le hlen]
      rfl
    have hbytes : (fun off => b (off + 16)) = bytesFrom b 16 :=
      funext fun off => congrArg b (Nat.add_comm off 16)
    obtain ⟨t, ht, htEnd⟩ := exec_hash128_of_seeds hb (seedsUnseeded_bytes hb hlen)
    obtain ⟨u, hu, huEnd⟩ := exec_hash128s_of_bytes hb'
    rw [partUnseeded_of_le hlen] at htEnd
    rw [hn, hcuts, hbytes, seedsOperand, hseed0, hseed1] at huEnd
    exact ⟨t, u, ht, hu, htEnd.resLo.trans huEnd.resLo.symm, htEnd.resHi.trans huEnd.resHi.symm,
      htEnd.status⟩

end Sys2Proof.Machine
end

section
/-! PROOFS. A running command cannot be cancelled (60_exceptions.md R181). -/

namespace Sys2Proof.Machine

/-! ### START and CORE's own step, seen from `STATUS` -/

/-- A START while BUSY is ignored, whatever an accepted one would do (R181). -/
theorem onStart_of_busy (accept : Instr → State → Host.Outcome State Fault Refusal) {s : State}
    (hbusy : s.status = .busy) : onStart accept s = .next s := by
  rcases onStart_cases (rfl : onStart accept s = _) with ⟨_, h⟩ | ⟨hidle, _⟩ | ⟨hidle, _⟩
  · exact h
  · exact absurd hbusy hidle
  · exact absurd hbusy hidle

/-- A START sets BUSY or leaves `STATUS` alone (R172, R173, R181). -/
theorem onStart_acceptStart_status {s t : State} (h : onStart acceptStart s = .next t) :
    t.status = .busy ∨ t.status = s.status := by
  rcases onStart_cases h with ⟨_, hs⟩ | ⟨_, _, hs⟩ | ⟨_, _, _, hs⟩
  · cases hs; exact .inr rfl
  · cases hs; exact .inr (State.refuse_status s)
  · cases hs; exact .inl (State.launch_status s)

/-- CORE's own step ends BUSY only in a terminal phase (R27, R173). -/
theorem coreStep_busy_or_done {s t : State} (hbusy : s.status = .busy) (h : coreStep s = .next t) :
    t.status = .busy ∨ ((s.phase = .shortPath ∨ s.phase = .tail) ∧ t.status = .done) := by
  rcases coreStep_cases h with ⟨rfl, _⟩ | ⟨_, i, _, hphase⟩
  · exact .inl hbusy
  · rcases phaseStep_status hphase with ⟨hterminal, hdone, _⟩ | ⟨_, _, hstatus, _⟩
    · exact .inr ⟨hterminal, hdone⟩
    · exact .inl (hstatus.trans hbusy)

/-! ### The end of a running command -/

/-- A step from a BUSY state stays BUSY, resets, or is a terminal phase of the command (R181).  With
`startTogether` CORE's step comes first, and a START after a terminal phase sets BUSY again (R175). -/
theorem step_busy_cases {s t : State} (hbusy : s.status = .busy) (h : step s = .next t) :
    t.status = .busy ∨
    ((∃ rest, s.script = .reset :: rest) ∧ t.status = .idle) ∨
    ((s.phase = .shortPath ∨ s.phase = .tail) ∧ t.status = .done) := by
  rcases step_cases h with ⟨_, hcore⟩ | ⟨rest, _, hcore⟩ | ⟨reg, v, rest, _, rfl⟩ |
    ⟨reg, rest, v, k, _, rfl⟩ | ⟨off, bytes, rest, _, rfl⟩ | ⟨rest, _, hstart⟩ |
    ⟨rest, u, _, hcore, hstart⟩ | ⟨rest, _, hdone, _⟩ | ⟨rest, _, _, hcore⟩ |
    ⟨rest, _, hcall⟩ | ⟨rest, hreset, rfl⟩
  · exact (coreStep_busy_or_done hbusy hcore).imp_right .inr
  · exact (coreStep_busy_or_done (s := s.popScript rest) hbusy hcore).imp_right .inr
  · exact .inl (by simp [hbusy])
  · exact .inl hbusy
  · exact .inl hbusy
  · rw [onStart_of_busy acceptStart (s := s.popScript rest) hbusy] at hstart
    cases hstart
    exact .inl hbusy
  · rcases onStart_acceptStart_status hstart with htbusy | hsame
    · exact .inl htbusy
    · rw [hsame]
      exact (coreStep_busy_or_done (s := s.popScript rest) hbusy hcore).imp_right .inr
  · rw [hbusy] at hdone
    cases hdone
  · exact (coreStep_busy_or_done hbusy hcore).imp_right .inr
  · rw [onStart_of_busy exec (s := s.popScript rest) hbusy] at hcall
    cases hcall
    exact .inl hbusy
  · exact .inr (.inl ⟨⟨rest, hreset⟩, rfl⟩)

/-- Settles O44: the START by `onStart_of_busy`, the end of BUSY by `step_busy_cases`. -/
theorem runningCommandCannotBeCancelled : Obligations.RunningCommandCannotBeCancelled := by
  refine ⟨fun s rest hscript hbusy => ?_, fun s t hbusy hstep hend => ?_⟩
  · rw [step, hscript]
    exact onStart_of_busy acceptStart (s := s.popScript rest) hbusy
  · exact (step_busy_cases hbusy hstep).resolve_left hend

end Sys2Proof.Machine
end

section
/-! PROOFS. The invariant of the machine and safe steps (10_state.md section 4, 20_memory.md section 4,
60_exceptions.md sections 1 and 2). -/

namespace Sys2Proof.Machine

/-! ### The paths and the part of a command -/

theorem takesShortPath_hash32_eq_false {c : Cuts} {len : Nat} :
    takesShortPath c .hash32 len = false ↔ 24 < len := by
  simp [takesShortPath, short32]

theorem takesShortPath_64_eq_false {i : Instr} (hi : i = .hash64 ∨ i = .hash64s ∨ i = .hash64ss)
    {c : Cuts} {len : Nat} : takesShortPath c i len = false ↔ 64 < len := by
  rcases hi with rfl | rfl | rfl <;> simp [takesShortPath, short64]

/-- On the block-loop path the part of a 128-bit command has 128 bytes or more (R150). -/
theorem partOf_n_of_takesShortPath_eq_false {i : Instr} (hi : i = .hash128 ∨ i = .hash128s)
    {c : Cuts} {len : Nat} (h : takesShortPath c i len = false) : 128 ≤ (partOf i len).n := by
  rcases hi with rfl | rfl <;> exact short128_false h

/-- The part of every command ends where the message ends (R27, R158). -/
theorem partOf_total (i : Instr) (len : Nat) : (partOf i len).base + (partOf i len).n = len := by
  cases i
  case hash128 => exact partUnseeded_total len
  case hash32 | hash64 | hash64s | hash64ss | hash128s => exact Nat.zero_add len

theorem word64_part_toNat (i : Instr) (s : State) :
    (word64 (partOf i s.len.toNat).base).toNat = (partOf i s.len.toNat).base ∧
    (word64 (partOf i s.len.toNat).n).toNat = (partOf i s.len.toNat).n := by
  have hlen := s.len.isLt
  have htotal := partOf_total i s.len.toNat
  exact ⟨word64_toNat (by omega), word64_toNat (by omega)⟩

/-! ### Where a running command stands -/

/-- `POS` and `REM` before a LONG_LOOP step, as `RunningInv` has them, one bound per engine. -/
def LoopStands (i : Instr) (len pos rem : Nat) : Prop :=
  match i with
  | .hash32 => pos % 20 = 0 ∧ pos + rem = len ∧ 20 < rem
  | .hash64 | .hash64s | .hash64ss => pos % 64 = 0 ∧ pos + rem = len ∧ 64 < rem
  | .hash128 | .hash128s =>
    (partOf i len).base ≤ pos ∧ 128 ≤ rem ∧
    (((pos - (partOf i len).base) % 128 = 0 ∧ pos + rem = len) ∨
      ((pos - (partOf i len).base) % 128 = 64 ∧ pos + rem = len + 64))

/-- `POS` and `REM` before TAIL, as `RunningInv` has them. -/
def TailStands (i : Instr) (len pos rem : Nat) : Prop :=
  pos + rem = len ∧
  match i with
  | .hash32 => 1 ≤ rem ∧ rem ≤ 20
  | .hash64 | .hash64s | .hash64ss => 1 ≤ rem ∧ rem ≤ 64
  | .hash128 | .hash128s => (partOf i len).base + 128 ≤ pos ∧ rem < 128

/-- `POS`, `REM` and `PHASE` inside or after the loop of a long path. -/
def LongStands (i : Instr) (len pos rem : Nat) (p : Phase) : Prop :=
  (p = .longLoop ∧ LoopStands i len pos rem) ∨ (p = .tail ∧ TailStands i len pos rem)

theorem not_runningInv_of_idle {i : Instr} {s : State} (h : s.phase = .idle) : ¬ RunningInv i s := by
  simp [RunningInv, h]

theorem runningInv_of_init {i : Instr} {s : State} (h : s.phase = .init) : RunningInv i s := by
  simp [RunningInv, h]

theorem runningInv_shortPath_iff {i : Instr} {s : State} (h : s.phase = .shortPath) :
    RunningInv i s ↔ takesShortPath s.cuts i s.len.toNat = true ∧
      s.pos.toNat = (partOf i s.len.toNat).base ∧ s.rem.toNat = (partOf i s.len.toNat).n := by
  simp only [RunningInv, h]

theorem runningInv_longLoop_iff {i : Instr} {s : State} (h : s.phase = .longLoop) :
    RunningInv i s ↔ takesShortPath s.cuts i s.len.toNat = false ∧
      LoopStands i s.len.toNat s.pos.toNat s.rem.toNat := by
  cases i <;> simp only [RunningInv, h, LoopStands, RunningInv.Loop128, partOf]

theorem runningInv_tail_iff {i : Instr} {s : State} (h : s.phase = .tail) :
    RunningInv i s ↔ takesShortPath s.cuts i s.len.toNat = false ∧
      TailStands i s.len.toNat s.pos.toNat s.rem.toNat := by
  cases i <;> simp only [RunningInv, h, TailStands, RunningInv.Tail128, partOf]

theorem runningInv_of_longStands {i : Instr} {s : State}
    (hlong : takesShortPath s.cuts i s.len.toNat = false)
    (h : LongStands i s.len.toNat s.pos.toNat s.rem.toNat s.phase) : RunningInv i s := by
  rcases h with ⟨hphase, hloop⟩ | ⟨hphase, htail⟩
  · exact (runningInv_longLoop_iff hphase).mpr ⟨hlong, hloop⟩
  · exact (runningInv_tail_iff hphase).mpr ⟨hlong, htail⟩

/-! ### INIT and the block steps move `POS` and `REM` as their rules say -/

/-- INIT puts a command that takes the long path at the start of its loop (R104, R124, R153). -/
theorem loopStands_part {i : Instr} {c : Cuts} {len : Nat} (hlong : takesShortPath c i len = false) :
    LoopStands i len (partOf i len).base (partOf i len).n := by
  have htotal := partOf_total i len
  cases i
  case hash32 =>
    have hlen := takesShortPath_hash32_eq_false.mp hlong
    exact ⟨rfl, htotal, by simp only [partOf, partWhole]; omega⟩
  case hash64 | hash64s | hash64ss =>
    have hlen := (takesShortPath_64_eq_false (by simp)).mp hlong
    exact ⟨rfl, htotal, hlen⟩
  case hash128 | hash128s =>
    have hn := partOf_n_of_takesShortPath_eq_false (by simp) hlong
    exact ⟨le_refl _, hn, .inl ⟨by simp, htotal⟩⟩

theorem longStands_block32 {len pos rem : Nat} (h : LoopStands .hash32 len pos rem) :
    LongStands .hash32 len (pos + 20) (rem - 20) (phaseAfterBlock32 len (pos + 20)) := by
  simp only [LoopStands] at h
  unfold phaseAfterBlock32 blocks32
  split
  · exact .inl ⟨rfl, by simp only [LoopStands]; omega⟩
  · exact .inr ⟨rfl, by simp only [TailStands]; omega⟩

theorem longStands_block64 {i : Instr} (hi : i = .hash64 ∨ i = .hash64s ∨ i = .hash64ss)
    {len pos rem : Nat} (h : LoopStands i len pos rem) :
    LongStands i len (pos + 64) (rem - 64) (phaseAfterBlock64 (rem - 64)) := by
  obtain ⟨hmod, hsum, hrem⟩ : pos % 64 = 0 ∧ pos + rem = len ∧ 64 < rem := by
    rcases hi with rfl | rfl | rfl <;> exact h
  unfold phaseAfterBlock64
  split
  · have hloop : (pos + 64) % 64 = 0 ∧ pos + 64 + (rem - 64) = len ∧ 64 < rem - 64 := by omega
    exact .inl ⟨rfl, by rcases hi with rfl | rfl | rfl <;> exact hloop⟩
  · have htail : pos + 64 + (rem - 64) = len ∧ 1 ≤ rem - 64 ∧ rem - 64 ≤ 64 := by omega
    exact .inr ⟨rfl, by rcases hi with rfl | rfl | rfl <;> exact htail⟩

/-- The first block of a pair leaves `REM` as it was; the second lowers it by 128 (R154). -/
theorem longStands_block128 {i : Instr} (hi : i = .hash128 ∨ i = .hash128s) {len pos rem : Nat}
    (h : LoopStands i len pos rem) :
    (endsPair128 (partOf i len).base (pos + 64) = false ∧ LoopStands i len (pos + 64) rem) ∨
    (endsPair128 (partOf i len).base (pos + 64) = true ∧
      LongStands i len (pos + 64) (rem - 128) (phaseAfterPair128 (rem - 128))) := by
  unfold phaseAfterPair128 LongStands
  rcases hi with rfl | rfl
  all_goals
    simp only [LoopStands, TailStands, endsPair128, decide_eq_true_eq, decide_eq_false_iff_not] at h ⊢
    obtain ⟨hbase, hrem, ⟨hmod, hsum⟩ | ⟨hmod, hsum⟩⟩ := h
    · exact .inl (by omega)
    · refine .inr ⟨by omega, ?_⟩
      split
      · exact .inr ⟨rfl, by omega⟩
      · exact .inl ⟨rfl, by omega⟩

/-- `LEN` bounds `POS`, so the block step's addition does not wrap. -/
theorem toNat_add_of_le {x d len : W64} (h : x.toNat + d.toNat ≤ len.toNat) :
    (x + d).toNat = x.toNat + d.toNat :=
  BitVec.toNat_add_of_lt (h.trans_lt len.isLt)

theorem longStands_afterBlock {i : Instr} {s : State}
    (h : LoopStands i s.len.toNat s.pos.toNat s.rem.toNat) :
    LongStands i s.len.toNat (afterBlock i s).1.toNat (afterBlock i s).2.1.toNat
      (afterBlock i s).2.2 := by
  cases i
  case hash32 =>
    have ⟨hmod, hsum, hrem⟩ := h
    have hpos : (s.pos + 20#64).toNat = s.pos.toNat + 20 := toNat_add_of_le (len := s.len) (by
      show _ + 20 ≤ _
      omega)
    have hrem' : (s.rem - 20#64).toNat = s.rem.toNat - 20 := BitVec.toNat_sub_of_le hrem.le
    simp only [afterBlock, hpos, hrem']
    exact longStands_block32 h
  case hash64 | hash64s | hash64ss =>
    have ⟨hmod, hsum, hrem⟩ := h
    have hpos : (s.pos + 64#64).toNat = s.pos.toNat + 64 := toNat_add_of_le (len := s.len) (by
      show _ + 64 ≤ _
      omega)
    have hrem' : (s.rem - 64#64).toNat = s.rem.toNat - 64 := BitVec.toNat_sub_of_le hrem.le
    simp only [afterBlock, hpos, hrem']
    exact longStands_block64 (by simp) h
  case hash128 | hash128s =>
    have ⟨hbase, hrem, hstand⟩ := h
    have hpos : (s.pos + 64#64).toNat = s.pos.toNat + 64 := toNat_add_of_le (len := s.len) (by
      show _ + 64 ≤ _
      omega)
    have hrem' : (s.rem - 128#64).toNat = s.rem.toNat - 128 := BitVec.toNat_sub_of_le hrem
    rcases longStands_block128 (by simp) h with ⟨hpair, hloop⟩ | ⟨hpair, hlong⟩
    all_goals
      simp only [partOf] at hpair
      simp only [afterBlock, afterBlock.after128, hpos, hrem', hpair, if_true, Bool.false_eq_true,
        if_false]
    · exact .inl ⟨rfl, hloop⟩
    · exact hlong

/-! ### Every step of a running command keeps `RunningInv` or completes -/

theorem SetsLong.runningInv {i : Instr} {s t : State} {pos rem : W64} {p : Phase}
    (hset : SetsLong i s pos rem p t) (hlong : takesShortPath s.cuts i s.len.toNat = false)
    (h : LongStands i s.len.toNat pos.toNat rem.toNat p) : RunningInv i t := by
  obtain ⟨hpos, hrem⟩ := hset.pos_rem
  apply runningInv_of_longStands
  · rwa [hset.sameOperands.cuts, hset.sameOperands.len]
  · rwa [hset.sameOperands.len, hpos, hrem, hset.phase]

/-- A step of a running command leaves it running where its rules say, with the mark of R48 as it was,
or completes it. -/
theorem RunningInv.phaseStep {i : Instr} {s t : State} (h : RunningInv i s)
    (hstep : phaseStep (engineOf i) s = .ok t) :
    (RunningInv i t ∧ t.phase ≠ .idle ∧ t.status = s.status ∧ t.msgChanged = s.msgChanged) ∨
    ∃ r, t = s.complete r := by
  obtain ⟨hp, rfl⟩ | ⟨hp, hshort, rfl⟩ | ⟨hp, hlong, hset⟩ | ⟨hp, r, _, rfl⟩ | ⟨hp, hset⟩ |
    ⟨hp, r, _, rfl⟩ := phaseStep_cases hstep
  · exact absurd h (not_runningInv_of_idle hp)
  · obtain ⟨hbase, hn⟩ := word64_part_toNat i s
    exact .inl ⟨(runningInv_shortPath_iff rfl).mpr ⟨hshort, hbase, hn⟩, by simp, rfl, rfl⟩
  · obtain ⟨hbase, hn⟩ := word64_part_toNat i s
    obtain ⟨_, _, hmark, _⟩ := hset.results
    refine .inl ⟨hset.runningInv hlong ?_, by simp [hset.phase], hset.status, hmark⟩
    rw [hbase, hn]
    exact .inl ⟨rfl, loopStands_part hlong⟩
  · exact .inr ⟨r, rfl⟩
  · obtain ⟨hlong, hloop⟩ := (runningInv_longLoop_iff hp).mp h
    obtain ⟨_, _, hmark, _⟩ := hset.results
    refine .inl ⟨hset.runningInv hlong (longStands_afterBlock hloop), ?_, hset.status, hmark⟩
    rw [hset.phase]
    rcases afterBlock_phase i s with h' | h' <;> simp [h']
  · exact .inr ⟨r, rfl⟩

/-! ### CORE's own step -/

/-- While BUSY it is a step of the running command (R27, R173). -/
theorem coreStep_of_busy {i : Instr} {s : State} (hbusy : s.status = .busy)
    (hi : decode s.cmd = .ok i) : coreStep s = outcomeOf (phaseStep (engineOf i) s) := by
  simp only [coreStep, hbusy, hi]

/-- A CORE that is not BUSY does nothing by itself (R190). -/
theorem coreStep_of_not_busy {s : State} (h : s.status ≠ .busy) : coreStep s = .next s := by
  cases hs : s.status
  case busy => contradiction
  case idle | done => simp only [coreStep, hs]

/-! ### The invariant, action by action -/

theorem State.Inv.of_not_busy {s : State} (hmem : Memory.wf s.mem = true) (hphase : s.phase = .idle)
    (hstatus : s.status ≠ .busy) (hmark : s.msgChanged = false) : s.Inv :=
  ⟨hmem, by simp [hphase, hstatus], fun h => absurd h hstatus, by simp [hmark]⟩

theorem State.Inv.of_busy {i : Instr} {s : State} (hmem : Memory.wf s.mem = true)
    (hphase : s.phase ≠ .idle) (hstatus : s.status = .busy) (hi : decode s.cmd = .ok i)
    (hrun : RunningInv i s) : s.Inv :=
  ⟨hmem, by simp [hphase, hstatus], fun _ => ⟨i, hi, hrun⟩, fun _ => hstatus⟩

theorem State.Inv.wf {s : State} (h : s.Inv) : Memory.wf s.mem = true := h.1

theorem State.Inv.running {s : State} (h : s.Inv) (hbusy : s.status = .busy) :
    ∃ i, decode s.cmd = .ok i ∧ RunningInv i s ∧ s.phase ≠ .idle := by
  obtain ⟨_, hphase, hrun, _⟩ := h
  obtain ⟨i, hi, hr⟩ := hrun hbusy
  exact ⟨i, hi, hr, fun hp => hphase.mp hp hbusy⟩

theorem State.Inv.not_running {s : State} (h : s.Inv) (hstatus : s.status ≠ .busy) :
    s.phase = .idle ∧ s.msgChanged = false := by
  obtain ⟨_, hphase, _, hmark⟩ := h
  exact ⟨hphase.mpr hstatus, by simpa [hstatus] using hmark⟩

/-- A decoded command is the only one running. -/
theorem State.Inv.runningInv {i : Instr} {s : State} (h : s.Inv) (hbusy : s.status = .busy)
    (hi : decode s.cmd = .ok i) : RunningInv i s := by
  obtain ⟨j, hj, hrun, _⟩ := h.running hbusy
  rw [hi] at hj
  cases hj
  exact hrun

theorem State.Inv.popScript {s : State} (h : s.Inv) (rest : List HostMove) : (s.popScript rest).Inv := h

theorem State.Inv.coreStep {s t : State} (h : s.Inv) (hstep : coreStep s = .next t) : t.Inv := by
  rcases coreStep_cases hstep with ⟨rfl, _⟩ | ⟨hbusy, i, hi, hphase⟩
  · exact h
  · have hsame := phaseStep_sameOperands hphase
    rcases (h.runningInv hbusy hi).phaseStep hphase with ⟨hrun, hp, hstatus, _⟩ | ⟨r, rfl⟩
    · exact .of_busy (by rw [hsame.mem]; exact h.wf) hp (hstatus.trans hbusy)
        (by rw [hsame.cmd, hi]) hrun
    · exact .of_not_busy (by simpa using h.wf) (by simp) (by simp) (by simp)

theorem State.Inv.launch {i : Instr} {s : State} (h : s.Inv) (hi : decode s.cmd = .ok i) :
    s.launch.Inv :=
  .of_busy h.wf (by simp) rfl hi (runningInv_of_init rfl)

theorem State.Inv.exec {i : Instr} {s t : State} (h : s.Inv) (hexec : exec i s = .next t) : t.Inv := by
  obtain ⟨r, _, hend⟩ := exec_next hexec
  exact .of_not_busy (by rw [hend.same.mem]; exact h.wf) hend.phase (by simp [hend.status])
    hend.msgChanged

/-- A START keeps the invariant where an accepted one does. -/
theorem State.Inv.onStart {accept : Instr → State → Host.Outcome State Fault Refusal} {s t : State}
    (h : s.Inv) (haccept : ∀ i, decode s.cmd = .ok i → accept i s = .next t → t.Inv)
    (hstart : onStart accept s = .next t) : t.Inv := by
  rcases onStart_cases hstart with ⟨_, hs⟩ | ⟨_, _, hs⟩ | ⟨_, i, hi, hs⟩
  · cases hs; exact h
  · cases hs; exact h
  · exact haccept i hi hs.symm

theorem State.Inv.acceptStart {s t : State} (h : s.Inv)
    (hstart : Machine.onStart acceptStart s = .next t) : t.Inv :=
  h.onStart (fun _ hi hs => by cases hs; exact h.launch hi) hstart

theorem State.Inv.hostWrite {s : State} (h : s.Inv) (reg : HostReg) (v : W64) :
    (hostWrite reg v s).Inv := by
  by_cases hbusy : s.status = .busy
  · rwa [hostWrite_of_busy reg v s hbusy]
  · obtain ⟨hphase, hmark⟩ := h.not_running hbusy
    exact .of_not_busy (by simpa using h.wf) (by simpa using hphase) (by simpa using hbusy)
      (by simpa using hmark)

theorem State.Inv.hostPlace {s : State} (h : s.Inv) (off : Nat) (bytes : List Byte) :
    (hostPlace off bytes s).Inv := by
  by_cases hbusy : s.status = .busy
  · obtain ⟨i, hi, hrun, hp⟩ := h.running hbusy
    exact .of_busy (Memory.wf_place _ _ _ h.wf) hp hbusy hi hrun
  · obtain ⟨hphase, hmark⟩ := h.not_running hbusy
    exact .of_not_busy (Memory.wf_place _ _ _ h.wf) hphase hbusy
      (by simp [Machine.hostPlace, hmark, hbusy])

theorem State.Inv.hostReset {s : State} (h : s.Inv) : (hostReset s).Inv :=
  .of_not_busy h.wf rfl (by simp) rfl

/-- Settles O57: nothing runs and nothing is placed. -/
theorem invariantHoldsAtReset : Obligations.InvariantHoldsAtReset :=
  .of_not_busy Memory.wf_reset rfl (by simp) rfl

/-- Settles O58: each alternative of `step_cases` by the lemma about its action. -/
theorem invariantKeptByEveryStep : Obligations.InvariantKeptByEveryStep := by
  intro s t h hstep
  rcases step_cases hstep with ⟨_, hcore⟩ | ⟨rest, _, hcore⟩ | ⟨reg, v, rest, _, rfl⟩ |
    ⟨reg, rest, v, k, _, rfl⟩ | ⟨off, bytes, rest, _, rfl⟩ | ⟨rest, _, hstart⟩ |
    ⟨rest, u, _, hcore, hstart⟩ | ⟨rest, _, _, rfl⟩ | ⟨rest, _, _, hcore⟩ |
    ⟨rest, _, hcall⟩ | ⟨rest, _, rfl⟩
  · exact h.coreStep hcore
  · exact (h.popScript rest).coreStep hcore
  · exact (h.popScript rest).hostWrite reg v
  · exact h
  · exact (h.popScript rest).hostPlace off bytes
  · exact (h.popScript rest).acceptStart hstart
  · exact ((h.popScript rest).coreStep hcore).acceptStart hstart
  · exact h.popScript rest
  · exact h.coreStep hcore
  · exact (h.popScript rest).onStart (fun _ _ hexec => (h.popScript rest).exec hexec) hcall
  · exact (h.popScript rest).hostReset

/-! ### With the invariant a step stops only on an unplaced byte of the message -/

/-- A step of a running command stops, if at all, on a byte of the message that is not placed: `POS`
and `REM` keep each block inside the message (R44). -/
theorem RunningInv.phaseStep_stops {i : Instr} {s : State} (h : RunningInv i s) :
    StopsUnplaced s.msg (Machine.phaseStep (engineOf i) s) := by
  have hpart := (partOf_total i s.len.toNat).le
  cases hp : s.phase
  case idle => exact absurd h (not_runningInv_of_idle hp)
  case init =>
    rw [phaseStep_init _ hp, isShort_eq]
    refine .ite (fun _ => .ok _) fun hlong => ?_
    rw [Bool.not_eq_true] at hlong
    cases i
    case hash32 =>
      exact .bind (hash32Init_stops (takesShortPath_hash32_eq_false.mp hlong)) fun _ => .ok _
    case hash64 | hash64s | hash64ss =>
      exact .bind (hash64Init_stops ((takesShortPath_64_eq_false (by simp)).mp hlong)) fun _ => .ok _
    case hash128 =>
      exact .bind (seedsUnseeded_stops _) fun sd =>
        .bind (hash128Init_stops sd hpart (short128_false hlong)) fun _ => .ok _
    case hash128s => exact .bind (hash128Init_stops _ hpart (short128_false hlong)) fun _ => .ok _
  case shortPath =>
    rw [phaseStep_short _ hp]
    refine .bind ?_ fun _ => .ok _
    cases i
    case hash32 => exact .bind (hash32Short_stops _) fun _ => .ok _
    case hash64 | hash64s | hash64ss => exact .bind (hash64Short_stops _ _) fun _ => .ok _
    case hash128 => exact .bind (seedsUnseeded_stops _) fun sd => finisher_stops _ sd hpart
    case hash128s => exact finisher_stops _ _ hpart
  case longLoop =>
    obtain ⟨_, hloop⟩ := (runningInv_longLoop_iff hp).mp h
    rw [phaseStep_block _ hp]
    cases i
    case hash32 =>
      obtain ⟨_, hsum, hrem⟩ := hloop
      exact .bind (hash32Block_stops _ (by rw [State.msg_len]; omega)) fun _ => .ok _
    case hash64 | hash64s | hash64ss =>
      obtain ⟨_, hsum, hrem⟩ := hloop
      exact .bind (blockStep_stops _ _ (by rw [State.msg_len]; omega)) fun _ => .ok _
    case hash128 | hash128s =>
      obtain ⟨_, hrem, hstand⟩ := hloop
      refine .bind (blockStep_stops _ _ (by rw [State.msg_len]; omega)) fun _ => ?_
      exact .ite (fun _ => .ok _) fun _ => .ok _
  case tail =>
    obtain ⟨_, hsum, htail⟩ := (runningInv_tail_iff hp).mp h
    rw [phaseStep_tail _ hp]
    refine .bind ?_ fun _ => .ok _
    cases i
    case hash32 | hash64 | hash64s | hash64ss => exact .ok _
    case hash128 | hash128s =>
      obtain ⟨hpos, hrem⟩ := htail
      exact hash128Tail_stops _ (by rw [State.msg_len]; omega) (by omega)

/-- The outcome is a next state or a stop on a byte of the message `m` that is not placed. -/
def NextOrUnplaced (m : Msg) (o : Host.Outcome State Fault Refusal) : Prop :=
  (∃ t, o = .next t) ∨
    ∃ rule a, o = .fault (.unplaced rule a) ∧ a < m.len ∧ Memory.find m.mem a = none

theorem NextOrUnplaced.next {m : Msg} (t : State) : NextOrUnplaced m (.next t) := .inl ⟨t, rfl⟩

theorem StopsUnplaced.outcomeOf {m : Msg} {e : Except Fault State} (h : StopsUnplaced m e) :
    NextOrUnplaced m (outcomeOf e) := by
  cases e with
  | ok t => exact .next t
  | error f =>
    obtain ⟨rule, a, rfl, ha, hnone⟩ := h f rfl
    exact .inr ⟨rule, a, rfl, ha, hnone⟩

theorem NextOrUnplaced.exec (i : Instr) (s : State) : NextOrUnplaced s.msg (exec i s) := by
  rcases exec_cases i s with ⟨f, hv, hexec⟩ | ⟨r, t, _, hexec, _⟩
  · obtain ⟨rule, a, rfl, ha, hnone⟩ := commandValue_stops i s f hv
    exact .inr ⟨rule, a, hexec, ha, hnone⟩
  · exact .inl ⟨t, hexec⟩

theorem NextOrUnplaced.onStart {m : Msg}
    {accept : Instr → State → Host.Outcome State Fault Refusal} {s : State}
    (haccept : ∀ i, NextOrUnplaced m (accept i s)) : NextOrUnplaced m (onStart accept s) := by
  rcases onStart_cases (rfl : Machine.onStart accept s = _) with ⟨_, h⟩ | ⟨_, _, h⟩ | ⟨_, i, _, h⟩
  · exact .inl ⟨_, h⟩
  · exact .inl ⟨_, h⟩
  · rw [h]; exact haccept i

theorem State.Inv.coreStep_stops {s : State} (h : s.Inv) :
    NextOrUnplaced s.msg (Machine.coreStep s) := by
  by_cases hbusy : s.status = .busy
  · obtain ⟨i, hi, hrun, _⟩ := h.running hbusy
    rw [coreStep_of_busy hbusy hi]
    exact hrun.phaseStep_stops.outcomeOf
  · exact .inl ⟨s, coreStep_of_not_busy hbusy⟩

theorem State.Inv.step_stops {s : State} (h : s.Inv) : NextOrUnplaced s.msg (step s) := by
  cases hscript : s.script with
  | nil => rw [step, hscript]; exact h.coreStep_stops
  | cons move rest =>
    have hpop := (h.popScript rest).coreStep_stops
    rw [step, hscript]
    cases move with
    | idle => exact hpop
    | write reg v => exact .next _
    | read reg => exact .next _
    | place off bytes => exact .next _
    | start => exact .onStart fun _ => .next _
    | startTogether =>
      rcases hpop with ⟨t, ht⟩ | ⟨rule, a, hf, ha⟩
      · simp only [hostStep, ht]
        exact .onStart fun _ => .next _
      · exact .inr ⟨rule, a, by simp only [hostStep, hf], ha⟩
    | waitDone =>
      simp only [hostStep]
      split
      · exact .next _
      · exact h.coreStep_stops
    | call => exact .onStart fun i => .exec i (s.popScript rest)
    | reset => exact .next _

/-- Settles O59: on a placed message `State.Inv.step_stops` leaves the next state only. -/
theorem stepsAreSafe : Obligations.StepsAreSafe := by
  intro s h hplaced
  rcases h.step_stops with hnext | ⟨rule, a, _, ha, hnone⟩
  · exact hnext
  · have hbyte := hplaced a ha
    rw [hnone] at hbyte
    cases hbyte

/-- Settles O60: the one fault `State.Inv.step_stops` leaves is another. -/
theorem stepsReadInsideMessage : Obligations.StepsReadInsideMessage := by
  intro s rule off n h hfault
  rcases h.step_stops with ⟨t, ht⟩ | ⟨rule', a, hunplaced, _⟩
  · rw [hfault] at ht
    cases ht
  · rw [hfault] at hunplaced
    cases hunplaced

end Sys2Proof.Machine
end

section
/-! PROOFS. The six commands as functions: completion, results, frame, reads (R21, R44, R45, R67, R69, R170,
R196). -/

namespace Sys2Proof.Machine

/-- Settles O34: `exec_of_placed`, the value being the command's function. -/
theorem everyCommandCompletes : Obligations.EveryCommandCompletes := by
  intro i s hplaced
  obtain ⟨r, t, hr, ht, hend⟩ := exec_of_placed i hplaced
  exact ⟨r, t, hr, ht, hend.resLo, hend.resHi, hend.status, hend.phase⟩

/-- R69: the two seeded 64-bit functions agree where `SEED0` of HASH64SS is `k2`. -/
theorem commandValue_hash64s_eq_hash64ss (s : State) :
    commandValue .hash64s s =
      commandValue .hash64ss { s with seed0 := Rom.k2, seed1 := s.seed0 } := rfl

/-- Settles O27: both commands leave the value of one function. -/
theorem hash64sIsHash64ssWithK2 : Obligations.Hash64sIsHash64ssWithK2 := by
  intro s hplaced
  obtain ⟨r, t, hr, ht, hend⟩ := exec_of_placed .hash64s hplaced
  rw [commandValue_hash64s_eq_hash64ss] at hr
  obtain ⟨u, hu, hend'⟩ := exec_of_value hr
  exact ⟨t, u, ht, hu, hend.resLo.trans hend'.resLo.symm, hend.resHi.trans hend'.resHi.symm⟩

/-- The value of HASH32 is a zero-extended 32-bit word (R67). -/
theorem commandValue_hash32_ok {s : State} {r : Pair} (h : commandValue .hash32 s = .ok r) :
    ∃ v, r = place32 v := by
  obtain ⟨v, _, hv⟩ := bind_ok h
  cases hv
  exact ⟨v, rfl⟩

/-- The value of a 64-bit command is one word (R67). -/
theorem commandValue_64_ok {i : Instr} (hi : i = .hash64 ∨ i = .hash64s ∨ i = .hash64ss) {s : State}
    {r : Pair} (h : commandValue i s = .ok r) : ∃ v, r = place64 v := by
  rcases hi with rfl | rfl | rfl
  all_goals
    obtain ⟨_, _, hv⟩ := bind_ok h
    cases hv
    exact ⟨_, rfl⟩

theorem zext64_toNat_lt (v : W32) : (zext64 v).toNat < 2 ^ 32 := by
  have hv := v.isLt
  have hzext : (zext64 v).toNat = v.toNat := BitVec.toNat_setWidth_of_le (by decide)
  omega

/-- Settles O35: the result words are those of `place32` and `place64`. -/
theorem narrowResultsClearHighBits : Obligations.NarrowResultsClearHighBits := by
  intro i s t hexec
  obtain ⟨r, hr, hend⟩ := exec_next hexec
  rw [hend.resLo, hend.resHi]
  refine ⟨?_, fun hi => ?_⟩
  · rintro rfl
    obtain ⟨v, rfl⟩ := commandValue_hash32_ok hr
    exact ⟨zext64_toNat_lt v, rfl⟩
  · obtain ⟨v, rfl⟩ := commandValue_64_ok hi hr
    rfl

/-- Settles O36: `exec` stops where the command's function does. -/
theorem commandsReadInsideMessage : Obligations.CommandsReadInsideMessage := by
  intro i s f hexec
  rcases NextOrUnplaced.exec i s with ⟨t, ht⟩ | ⟨rule, a, hf, ha, hnone⟩
  · rw [hexec] at ht
    cases ht
  · rw [hexec] at hf
    cases hf
    exact ⟨rule, a, rfl, ha, hnone⟩

/-- A message of no bytes is placed in every memory (R45). -/
theorem placed_of_len_zero {m : Msg} (h : m.len = 0) : m.Placed :=
  fun off hoff => absurd hoff (by omega)

/-- Settles O37: the memory of an empty message is none of the operands. -/
theorem emptyMessageReadsNothing : Obligations.EmptyMessageReadsNothing := by
  intro i s m hlen
  have hempty : s.msg.len = 0 := by rw [State.msg_len, hlen]; rfl
  have hsame : s.msg.Same ({ s with mem := m } : State).msg :=
    ⟨rfl, fun off hoff => absurd hoff (by omega)⟩
  obtain ⟨t, u, ht, hu, hlo, hhi⟩ := resultDependsOnlyOnOperands i s { s with mem := m } hsame rfl
    (fun _ => rfl) (fun _ => rfl) (placed_of_len_zero hempty)
  obtain ⟨_, _, hend⟩ := exec_next ht
  exact ⟨t, u, ht, hu, hlo, hhi, hend.status⟩

/-- Settles O40: the frame is part of what `exec_next` says of every completed command. -/
theorem commandFrame : Obligations.CommandFrame := by
  intro i s t hexec
  obtain ⟨r, _, ⟨hsame, _, _, hstatus, hphase, hmark⟩⟩ := exec_next hexec
  obtain ⟨hcmd, hlen, hseed0, hseed1, hmem, hscript, hdata, hrefusals, hcuts⟩ := hsame
  exact ⟨hcmd, hlen, hseed0, hseed1, hscript, hdata, hrefusals, hcuts, fun off => by rw [hmem], hmem,
    hstatus, hphase, hmark⟩

end Sys2Proof.Machine
end

section
/-! PROOFS. The open cut parameters matter at their one length only (00_scope.md R8). -/

namespace Sys2Proof.Machine

/-! ### Where no result changes -/

theorem cut64WideMin_le_iff {c c' : Cuts} {n : Nat} (h : n = 8 → c.wide8 = c'.wide8) :
    c.cut64WideMin ≤ n ↔ c'.cut64WideMin ≤ n := by
  by_cases hn : n = 8
  · rw [Cuts.cut64WideMin, Cuts.cut64WideMin, h hn]
  · unfold Cuts.cut64WideMin
    split <;> split <;> omega

theorem le_cut128ShortMax_iff {c c' : Cuts} {n : Nat} (h : n = 16 → c.short16 = c'.short16) :
    n ≤ c.cut128ShortMax ↔ n ≤ c'.cut128ShortMax := by
  by_cases hn : n = 16
  · rw [Cuts.cut128ShortMax, Cuts.cut128ShortMax, h hn]
  · unfold Cuts.cut128ShortMax
    split <;> split <;> omega

theorem short128_congr_cuts {c c' : Cuts} {n : Nat} (h : n = 128 → c.loop128 = c'.loop128) :
    short128 c n = short128 c' n := by
  unfold short128 Cuts.cut128FinMax
  by_cases hn : n = 128
  · rw [h hn]
  · rw [decide_eq_decide]
    split <;> split <;> omega

theorem hash64_0to16_congr_cuts {c c' : Cuts} {n : Nat} (h : n = 8 → c.wide8 = c'.wide8) (m : Msg)
    (base : Nat) : hash64_0to16 c m base n = hash64_0to16 c' m base n := by
  simp only [hash64_0to16, cut64WideMin_le_iff h]

theorem hash64_congr_cuts {c c' : Cuts} {m : Msg} (h : m.len = 8 → c.wide8 = c'.wide8) :
    hash64 c m = hash64 c' m := by
  simp only [hash64, hash64Short, hash64_0to16_congr_cuts h]

theorem hash128WithSeed_congr_cuts {c c' : Cuts} {p : Part} (hwide : p.n = 8 → c.wide8 = c'.wide8)
    (hshort : p.n = 16 → c.short16 = c'.short16) (hloop : p.n = 128 → c.loop128 = c'.loop128)
    (m : Msg) (seeds : Pair) : hash128WithSeed c m p seeds = hash128WithSeed c' m p seeds := by
  simp only [hash128WithSeed, short128_congr_cuts hloop, finisher, le_cut128ShortMax_iff hshort,
    finisherShort, hash64_0to16_congr_cuts hwide]

/-- Two settings that agree on each parameter the command uses at `n` bytes of its part. -/
structure Cuts.AgreeFor (i : Instr) (n : Nat) (c c' : Cuts) : Prop where
  wide : i ≠ .hash32 → n = 8 → c.wide8 = c'.wide8
  short : i = .hash128 ∨ i = .hash128s → n = 16 → c.short16 = c'.short16
  loop : i = .hash128 ∨ i = .hash128s → n = 128 → c.loop128 = c'.loop128

/-- The function of a command sees a parameter only where the command uses it. -/
theorem commandValue_congr_cuts {i : Instr} {s : State} {c : Cuts}
    (h : Cuts.AgreeFor i (partOf i s.len.toNat).n s.cuts c) :
    commandValue i { s with cuts := c } = commandValue i s := by
  obtain ⟨hwide, hshort, hloop⟩ := h
  cases i
  case hash32 => rfl
  case hash64 | hash64s | hash64ss =>
    have hhash : hash64 s.cuts s.msg = hash64 c s.msg := hash64_congr_cuts (hwide (by simp))
    simp only [commandValue, hhash]
    rfl
  case hash128 | hash128s =>
    have hhash := hash128WithSeed_congr_cuts (hwide (by simp)) (hshort (by simp)) (hloop (by simp)) s.msg
    simp only [commandValue, hash128]
    simp only [partOf] at hhash
    simp only [State.msg_len, hhash]
    rfl

/-- Both settings give the same results on a placed message. -/
theorem exec_congr_cuts {i : Instr} {s : State} {c : Cuts} (hplaced : s.msg.Placed)
    (h : Cuts.AgreeFor i (partOf i s.len.toNat).n s.cuts c) :
    ∃ t u, exec i s = .next t ∧ exec i { s with cuts := c } = .next u ∧
      t.resLo = u.resLo ∧ t.resHi = u.resHi := by
  obtain ⟨r, t, hr, ht, hend⟩ := exec_of_placed i hplaced
  obtain ⟨u, hu, hend'⟩ := exec_of_value ((commandValue_congr_cuts h).trans hr)
  exact ⟨t, u, ht, hu, hend.resLo.trans hend'.resLo.symm, hend.resHi.trans hend'.resHi.symm⟩

/-! ### Where some result changes -/

/-- A state after reset with a message of `n` zero bytes. -/
def zerosState (n : Nat) : State :=
  { State.reset with len := word64 n, mem := Memory.place [] 0 (List.replicate n 0#8) }

theorem zerosState_placed (n : Nat) : (zerosState n).msg.Placed := by
  intro off hoff
  have hn : off < n := hoff.trans_le (Nat.mod_le _ _)
  show (Memory.find (Memory.place [] 0 (List.replicate n 0#8)) off).isSome = true
  rw [Memory.find_place, if_pos (by simpa using hn)]
  simpa using hn

/-- The two settings give different values, so the two runs leave different results. -/
theorem exec_differs {i : Instr} {s : State} {c c' : Cuts} (hplaced : s.msg.Placed)
    (h : commandValue i { s with cuts := c } ≠ commandValue i { s with cuts := c' }) :
    ∃ t u, exec i { s with cuts := c } = .next t ∧ exec i { s with cuts := c' } = .next u ∧
      (t.resLo ≠ u.resLo ∨ t.resHi ≠ u.resHi) := by
  obtain ⟨r, t, hr, ht, hend⟩ := exec_of_placed i (s := { s with cuts := c }) hplaced
  obtain ⟨r', u, hr', hu, hend'⟩ := exec_of_placed i (s := { s with cuts := c' }) hplaced
  refine ⟨t, u, ht, hu, ?_⟩
  rw [hend.resLo, hend.resHi, hend'.resLo, hend'.resHi, ← not_and_or]
  rintro ⟨hlo, hhi⟩
  have hpair : r = r' := by
    cases r
    cases r'
    exact congrArg₂ Pair.mk hlo hhi
  exact h (by rw [hr, hr', hpair])

/-- At 8 zero bytes the two values of `CUT64_WIDE_MIN` give two values of every command but HASH32. -/
theorem wide8_changes_value {i : Instr} (hi : i ≠ .hash32) :
    commandValue i { zerosState 8 with cuts := Cuts.xc } ≠
      commandValue i { zerosState 8 with cuts := { Cuts.xc with wide8 := true } } := by
  cases i
  case hash32 => contradiction
  case hash64 | hash64s | hash64ss | hash128 | hash128s => decide +kernel

/-- The length of a message whose part, for a 128-bit command, has `n` bytes, 16 or more (R158). -/
def lengthOfPart (i : Instr) (n : Nat) : Nat := if i = .hash128 then 16 + n else n

/-- At a part of 16 zero bytes `CUT128_SHORT_MAX` decides which branch of the finisher runs. -/
theorem short16_changes_value {i : Instr} (hi : i = .hash128 ∨ i = .hash128s) :
    commandValue i { zerosState (lengthOfPart i 16) with cuts := Cuts.xc } ≠
      commandValue i { zerosState (lengthOfPart i 16) with cuts := { Cuts.xc with short16 := true } } := by
  rcases hi with rfl | rfl <;> decide +kernel

/-- At a part of 128 zero bytes `CUT128_FIN_MAX` decides between the finisher and the block loop. -/
theorem loop128_changes_value {i : Instr} (hi : i = .hash128 ∨ i = .hash128s) :
    commandValue i { zerosState (lengthOfPart i 128) with cuts := Cuts.xc } ≠
      commandValue i { zerosState (lengthOfPart i 128) with cuts := { Cuts.xc with loop128 := true } } := by
  rcases hi with rfl | rfl <;> decide +kernel

/-- Settles O39: the differences on zero bytes, the agreement by `exec_congr_cuts`. -/
theorem cutsMatterOnlyAtTheirLengths : Obligations.CutsMatterOnlyAtTheirLengths := by
  refine ⟨⟨rfl, rfl, rfl⟩, fun c => ⟨rfl, rfl, rfl⟩, ⟨fun i hi => ?wide, fun i hi => ⟨?short, ?loop⟩⟩,
    fun i s x hplaced => ⟨fun h => ?keepWide, fun h => ?keepShort, fun h => ?keepLoop⟩⟩
  case wide =>
    refine ⟨zerosState 8, zerosState_placed 8, ?_,
      exec_differs (zerosState_placed 8) (wide8_changes_value hi)⟩
    cases i <;> rfl
  case short =>
    refine ⟨zerosState (lengthOfPart i 16), zerosState_placed _, ?_,
      exec_differs (zerosState_placed _) (short16_changes_value hi)⟩
    rcases hi with rfl | rfl <;> rfl
  case loop =>
    refine ⟨zerosState (lengthOfPart i 128), zerosState_placed _, ?_,
      exec_differs (zerosState_placed _) (loop128_changes_value hi)⟩
    rcases hi with rfl | rfl <;> rfl
  case keepWide =>
    exact exec_congr_cuts hplaced
      ⟨fun hi hn => absurd hn (h.resolve_left hi), fun _ _ => rfl, fun _ _ => rfl⟩
  case keepShort =>
    exact exec_congr_cuts hplaced ⟨fun _ _ => rfl,
      fun hi hn => h.elim (absurd hi ∘ not_or.mpr) (absurd hn), fun _ _ => rfl⟩
  case keepLoop =>
    exact exec_congr_cuts hplaced ⟨fun _ _ => rfl, fun _ _ => rfl,
      fun hi hn => h.elim (absurd hi ∘ not_or.mpr) (absurd hn)⟩

end Sys2Proof.Machine
end

section
/-! PROOFS. The phases of a command, step by step, from an accepted START (R27, R154, R195, R197). -/

namespace Sys2Proof.Machine

/-! ### INIT and the block steps of the 128-bit commands -/

theorem engineOf_init128 {i : Instr} (hi : i = .hash128 ∨ i = .hash128s) {s : State}
    (hplaced : s.msg.Placed) : ∃ seeds, (engineOf i).init s =
      long128Init (partOf i s.len.toNat) seeds s := by
  rcases hi with rfl | rfl
  · obtain ⟨seeds, hseeds⟩ := (seedsUnseeded_stops s.msg).total hplaced
    refine ⟨seeds, ?_⟩
    show (seedsUnseeded s.msg).bind _ = _
    rw [hseeds]
    rfl
  · exact ⟨seedsOperand s, rfl⟩

theorem engineOf_block128 {i : Instr} (hi : i = .hash128 ∨ i = .hash128s) (s : State) :
    (engineOf i).block s = long128Block (partOf i s.len.toNat).base s := by
  rcases hi with rfl | rfl <;> rfl

/-- INIT and the block steps of a 128-bit command on a placed message, up to the count of R154. -/
theorem run128_of_placed {i : Instr} (hi : i = .hash128 ∨ i = .hash128s) {s : State}
    (hplaced : s.msg.Placed) (hlong : takesShortPath s.cuts i s.len.toNat = false) {k : Nat}
    (hk : k ≤ 2 * pairs128 (partOf i s.len.toNat).n) :
    ∃ r, runPhases (engineOf i) (k + 1) s.launch =
      .ok (loopState128 (partOf i s.len.toNat) s.launch k r) := by
  have hn := partOf_n_of_takesShortPath_eq_false hi hlong
  have htotal := partOf_total i s.len.toNat
  have hin : (partOf i s.len.toNat).base + 64 * k ≤ s.msg.len := by
    rw [State.msg_len]
    unfold pairs128 at hk
    omega
  obtain ⟨seeds, hinit⟩ := engineOf_init128 hi (s := s.launch) hplaced
  obtain ⟨r, hr⟩ := (hash128Init_stops seeds htotal.le hn).total hplaced
  obtain ⟨r', hr'⟩ := (blockSteps_stops 154 k r hin).total hplaced
  refine ⟨r', ?_⟩
  rw [run128 (engineOf i) (partOf i s.len.toNat) (.ok seeds) s ((isShort_eq i s.launch).trans hlong)
    hinit (fun _ _ => engineOf_block128 hi _) htotal hn k hk]
  show (hash128Init s.msg _ seeds).bind _ = _
  rw [hr]
  show (blockSteps 154 s.msg k _ r).bind _ = _
  rw [hr']
  rfl

/-- Settles O31: the START, then INIT and `k` block steps by `run128_of_placed`, which also gives
`POS`, `REM` and PHASE. -/
theorem hash128LoopCount : Obligations.Hash128LoopCount := by
  intro s i hi hplaced hlong hscript hidle hdec
  have hn := partOf_n_of_takesShortPath_eq_false hi hlong
  have htotal := partOf_total i s.len.toNat
  have hlt := s.len.isLt
  refine ⟨by omega, fun k hk => ?_⟩
  obtain ⟨r, hrun⟩ := run128_of_placed hi (s := s.popScript []) hplaced hlong hk
  have hpos : (loopState128 (partOf i s.len.toNat) (s.popScript []).launch k r).pos.toNat =
      (partOf i s.len.toNat).base + 64 * k := word64_toNat (by omega)
  have hrem : (loopState128 (partOf i s.len.toNat) (s.popScript []).launch k r).rem.toNat =
      (partOf i s.len.toNat).n - 128 * (k / 2) := word64_toNat (by omega)
  refine ⟨_, ?_, hpos, hrem, rfl, by omega⟩
  rw [show 2 + k = k + 1 + 1 by omega, run_start_eq_runPhases hscript hidle hdec]
  exact congrArg outcomeOf hrun

/-! ### BUSY until the last step -/

/-- What holds of a running command after INIT and `k` block steps, or after INIT on the short path:
it is BUSY, INIT has set `POS` and `REM` from its part, and `POS` is inside the message (R27). -/
structure BusyAfterInit (i : Instr) (s : State) (k : Nat) (t : State) : Prop where
  status : t.status = .busy
  start : k = 0 → t.pos.toNat = (partOf i s.len.toNat).base ∧ t.rem.toNat = (partOf i s.len.toNat).n
  pos_le : t.pos.toNat ≤ s.len.toNat

/-- On the short path a command is BUSY after INIT (log entry 20). -/
theorem runShort_busy {i : Instr} {s : State} (hshort : takesShortPath s.cuts i s.len.toNat = true) :
    ∃ t, runPhases (engineOf i) 1 s.launch = .ok t ∧ BusyAfterInit i s 0 t := by
  obtain ⟨hbase, hn⟩ := word64_part_toNat i s
  have htotal := partOf_total i s.len.toNat
  refine ⟨s.launch.enterShort (partOf i s.len.toNat), ?_, rfl, fun _ => ⟨hbase, hn⟩, ?_⟩
  · have hisShort : (engineOf i).isShort s.launch = true := (isShort_eq i s.launch).trans hshort
    rw [runPhases_succ _ _ (by simp), phaseStep_init _ rfl, if_pos hisShort, part_eq]
    rfl
  · rw [State.enterShort_pos, hbase]
    omega

theorem runLong32_busy {s : State} (hplaced : s.msg.Placed) (hlen : 24 < s.len.toNat) {k : Nat}
    (hk : k ≤ (s.len.toNat - 1) / 20) :
    ∃ t, runPhases engineHash32 (k + 1) s.launch = .ok t ∧ BusyAfterInit .hash32 s k t := by
  have hlt := s.len.isLt
  obtain ⟨a, hrun⟩ := run32_of_placed hplaced hlen hk
  have hpos : (loopState32 s.launch k a).pos.toNat = 20 * k := word64_toNat (by omega)
  refine ⟨_, hrun, rfl, ?_, by omega⟩
  rintro rfl
  exact word64_part_toNat .hash32 s

theorem runLong64_busy {i : Instr} (hi : i = .hash64 ∨ i = .hash64s ∨ i = .hash64ss) {s : State}
    (hplaced : s.msg.Placed) (hlen : 64 < s.len.toNat) {k : Nat} (hk : k ≤ (s.len.toNat - 1) / 64) :
    ∃ t, runPhases (engineOf i) (k + 1) s.launch = .ok t ∧ BusyAfterInit i s k t := by
  have hlt := s.len.isLt
  obtain ⟨r, hrun⟩ := run64_of_placed hi hplaced hlen hk
  have hpos : (loopState64 s.launch k r).pos.toNat = 64 * k := word64_toNat (by omega)
  have hpart : partOf i s.len.toNat = partWhole s.len.toNat := by rcases hi with rfl | rfl | rfl <;> rfl
  refine ⟨_, hrun, rfl, ?_, by omega⟩
  rintro rfl
  rw [hpart]
  exact word64_part_toNat .hash64 s

theorem runLong128_busy {i : Instr} (hi : i = .hash128 ∨ i = .hash128s) {s : State}
    (hplaced : s.msg.Placed) (hlong : takesShortPath s.cuts i s.len.toNat = false) {k : Nat}
    (hk : k ≤ 2 * ((partOf i s.len.toNat).n / 128)) :
    ∃ t, runPhases (engineOf i) (k + 1) s.launch = .ok t ∧ BusyAfterInit i s k t := by
  have hlt := s.len.isLt
  have htotal := partOf_total i s.len.toNat
  obtain ⟨r, hrun⟩ := run128_of_placed hi hplaced hlong hk
  have hpos : (loopState128 (partOf i s.len.toNat) s.launch k r).pos.toNat =
      (partOf i s.len.toNat).base + 64 * k := word64_toNat (by omega)
  refine ⟨_, hrun, rfl, ?_, by omega⟩
  rintro rfl
  exact word64_part_toNat i s

/-- On a long path a command is BUSY after INIT and after each block step. -/
theorem runLong_busy {i : Instr} {s : State} (hplaced : s.msg.Placed)
    (hlong : takesShortPath s.cuts i s.len.toNat = false) {k : Nat}
    (hk : k ≤ loopSteps i s.len.toNat) :
    ∃ t, runPhases (engineOf i) (k + 1) s.launch = .ok t ∧ BusyAfterInit i s k t := by
  cases i
  case hash32 => exact runLong32_busy hplaced (takesShortPath_hash32_eq_false.mp hlong) hk
  case hash64 | hash64s | hash64ss =>
    exact runLong64_busy (by simp) hplaced ((takesShortPath_64_eq_false (by simp)).mp hlong) hk
  case hash128 | hash128s => exact runLong128_busy (by simp) hplaced hlong hk

/-- After INIT and each further step but the last a command is BUSY (R195). -/
theorem run_busy {i : Instr} {s : State} (hplaced : s.msg.Placed) {k : Nat}
    (hk : k + 2 ≤ commandSteps s.cuts i s.len.toNat) :
    ∃ t, runPhases (engineOf i) (k + 1) s.launch = .ok t ∧ BusyAfterInit i s k t := by
  unfold commandSteps at hk
  cases hpath : takesShortPath s.cuts i s.len.toNat with
  | true =>
    rw [hpath, if_pos rfl] at hk
    obtain rfl : k = 0 := by omega
    exact runShort_busy hpath
  | false =>
    rw [hpath, if_neg Bool.false_ne_true] at hk
    exact runLong_busy hplaced hpath (by omega)

/-- Settles O55: the START, then `run_busy`. -/
theorem busyUntilLastStep : Obligations.BusyUntilLastStep := by
  intro i s hplaced hscript hidle hdec k hlow hhigh
  obtain ⟨j, rfl⟩ : ∃ j, k = j + 1 := ⟨k - 1, by omega⟩
  rw [run_start_eq_runPhases hscript hidle hdec]
  cases j with
  | zero => exact ⟨(s.popScript []).launch, rfl, rfl, by omega, by omega⟩
  | succ j =>
    obtain ⟨t, hrun, hstatus, hstart, hpos⟩ := run_busy (s := s.popScript []) hplaced hhigh
    exact ⟨t, congrArg outcomeOf hrun, hstatus, fun h => hstart (by omega), fun _ => hpos⟩

/-! ### Big step and small step -/

/-- The host's program is none of a command's operands (R21). -/
theorem commandValue_popScript (i : Instr) (s : State) (rest : List HostMove) :
    commandValue i (s.popScript rest) = commandValue i s := by
  cases i <;> rfl

/-- As many phases as R195 counts end a command on a placed message where `exec` ends it. -/
theorem runPhases_commandSteps {i : Instr} {s : State} (hplaced : s.msg.Placed) :
    ∃ r t, commandValue i s = .ok r ∧
      runPhases (engineOf i) (commandSteps s.cuts i s.len.toNat) s.launch = .ok t ∧
      exec i s = .next t ∧ CommandEnd s r t := by
  obtain ⟨r, hr⟩ := (commandValue_stops i s).total hplaced
  have hrun := command_run i s
  rw [hr] at hrun
  obtain ⟨t, ht, hend⟩ := hrun
  obtain ⟨d, hd⟩ := Nat.exists_eq_add_of_le (commandSteps_le s.cuts i s.len.toNat)
  refine ⟨r, t, hr, ht, ?_, hend⟩
  rw [exec_eq_runCommand, runCommand, hd, runPhases_add, ht]
  exact congrArg outcomeOf (runPhases_idle _ d hend.phase)

/-- Settles O56: the START, then `runPhases_commandSteps`. -/
theorem bigStepEqualsSmallStep : Obligations.BigStepEqualsSmallStep := by
  intro i s hplaced hscript hidle hdec
  obtain ⟨r, t, hr, hrun, hexec, hend⟩ := runPhases_commandSteps (i := i) (s := s.popScript []) hplaced
  rw [commandValue_popScript] at hr
  refine ⟨r, t, hr, ?_, hexec, hend.resLo, hend.resHi, hend.status, hend.phase⟩
  rw [run_start_eq_runPhases hscript hidle hdec]
  exact congrArg outcomeOf hrun

end Sys2Proof.Machine
end

section
/-! PROOFS. The decoder and the encoder (30_encoding.md R60, R61, R65). -/

namespace Sys2Proof.Machine

/-- Settles O1: the decoder on the six words of the table. -/
theorem decodeMapMatchesTable : Obligations.DecodeMapMatchesTable :=
  ⟨rfl, rfl, rfl, rfl, rfl, rfl, rfl, rfl, rfl, rfl, rfl, rfl⟩

theorem decode_encode (i : Instr) : decode (encode i) = .ok i := by
  cases i <;> rfl

theorem cmdWellFormed_encode (i : Instr) : cmdWellFormed (encode i) = true := by
  cases i <;> decide

/-- A descriptor is `RSV` in front of `OP` (R60). -/
theorem rsvField_append_opField (b : Byte) : rsvField b ++ opField b = b :=
  BitVec.extractLsb'_append_extractLsb'_eq_extractLsb' (by decide) |>.trans (by simp)

/-- The opcodes 0 to 5 are the low bits of the six descriptors (R61). -/
theorem encode_of_decodeOp {op : BitVec 3} {i : Instr} (h : decodeOp op = .ok i) :
    encode i = 0#5 ++ op := by
  revert h
  cases i <;> decide +revert

/-- The opcode map rejects 6 and 7 only (R65). -/
theorem decodeOp_isError_iff (op : BitVec 3) :
    (∃ r, decodeOp op = .error r) ↔ op = 6#3 ∨ op = 7#3 := by
  have hbool : (decodeOp op).isOk = false ↔ op = 6#3 ∨ op = 7#3 := by decide +revert
  rw [← hbool]
  cases decodeOp op <;> simp [Except.isOk, Except.toBool]

/-- Settles O2: a decoded descriptor has `RSV` zero, so it is its `OP`. -/
theorem decodeEncodeRoundTrip : Obligations.DecodeEncodeRoundTrip := by
  refine ⟨fun i => ⟨decode_encode i, cmdWellFormed_encode i⟩, fun b i h => ?_⟩
  unfold decode at h
  split at h
  · rename_i hrsv
    rw [encode_of_decodeOp h, ← hrsv, rsvField_append_opField]
  · cases h

/-- R65, in the decoder's terms. -/
theorem decode_isError_iff (b : Byte) :
    (∃ r, decode b = .error r) ↔ opField b = 6#3 ∨ opField b = 7#3 ∨ rsvField b ≠ 0#5 := by
  unfold decode
  by_cases hrsv : rsvField b = 0#5
  · rw [if_pos hrsv, decodeOp_isError_iff]
    simp [hrsv]
  · rw [if_neg hrsv]
    simp [hrsv]

/-- Settles O3: `decode_isError_iff`. -/
theorem reservedDescriptorsRejected : Obligations.ReservedDescriptorsRejected := decode_isError_iff

end Sys2Proof.Machine
end

section
/-! PROOFS. Launch, completion and the host's accesses (10_state.md section 2, 60_exceptions.md sections 2 to
4, 70_reset_and_hazards.md sections 1 and 3). -/

namespace Sys2Proof.Machine

/-- A step takes the head of the host's program (R173). -/
theorem step_cons {s : State} {move : HostMove} {rest : List HostMove} (h : s.script = move :: rest) :
    step s = hostStep move rest s := by
  rw [step, h]

theorem step_nil {s : State} (h : s.script = []) : step s = coreStep s := by
  rw [step, h]

theorem onStart_refuses (accept : Instr → State → Host.Outcome State Fault Refusal) {s : State}
    {r : Reject} (hs : s.status ≠ .busy) (hr : decode s.cmd = .error r) :
    onStart accept s = .next s.refuse := by
  rcases onStart_cases (rfl : onStart accept s = _) with ⟨h, _⟩ | ⟨_, _, h⟩ | ⟨_, i, hi, _⟩
  · exact absurd h hs
  · exact h
  · rw [hr] at hi
    cases hi

/-- Settles O41: the call is a START whose accepted command is `exec`. -/
theorem stepRunsDecodedInstruction : Obligations.StepRunsDecodedInstruction := by
  intro s rest hscript
  rw [step_cons hscript]
  exact ⟨fun i hidle hi => onStart_accepts exec (s := s.popScript rest) hidle hi,
    fun hbusy => onStart_of_busy exec (s := s.popScript rest) hbusy⟩

/-- Settles O42: an accepted START is `State.launch`. -/
theorem acceptedStartSetsBusy : Obligations.AcceptedStartSetsBusy := by
  intro s rest i hscript hidle hi
  rw [step_cons hscript]
  exact onStart_accepts acceptStart (s := s.popScript rest) hidle hi

/-- Settles O43: a reserved descriptor does not decode, so the START is refused. -/
theorem reservedStartRefused : Obligations.ReservedStartRefused := by
  intro s move rest hmove hscript hidle hreserved
  obtain ⟨r, hr⟩ := (decode_isError_iff s.cmd).mpr hreserved
  rw [step_cons hscript]
  rcases hmove with rfl | rfl
  · exact onStart_refuses acceptStart (s := s.popScript rest) hidle hr
  · exact onStart_refuses exec (s := s.popScript rest) hidle hr

/-- Settles O45: while not BUSY `hostWrite` is a write of the named register. -/
theorem hostWritesReachOperandsOnly : Obligations.HostWritesReachOperandsOnly := by
  intro s reg v rest hscript
  rw [step_cons hscript]
  refine ⟨fun hbusy => ?_, fun hidle => ?_⟩
  · exact congrArg _ (hostWrite_of_busy reg v (s.popScript rest) hbusy)
  · rw [hostStep]
    unfold hostWrite
    split
    · rename_i hbusy
      exact absurd hbusy hidle
    · cases reg <;> rfl

theorem readResult_of_done (v : W64) {s : State} (h : s.status = .done) :
    readResult v s = s.deliver v := by
  simp only [readResult, h]

/-- A result read before DONE returns a free value (R192). -/
theorem readResult_of_not_done (v : W64) {s : State} (h : s.status ≠ .done) :
    readResult v s = { s with hostData := Config.freeWord s.free, free := s.free + 1 } := by
  unfold readResult
  split
  · contradiction
  · rfl

/-- A read of `RES_LO` or `RES_HI` before DONE: the whole next state (R23, R192). -/
theorem step_read_result_of_not_done {s : State} {reg : HostReg} {rest : List HostMove}
    (hscript : s.script = .read reg :: rest) (hreg : reg = .resLo ∨ reg = .resHi)
    (h : s.status ≠ .done) :
    step s = .next { s with
      script := rest, hostData := Config.freeWord s.free, free := s.free + 1 } := by
  rw [step_cons hscript]
  rcases hreg with rfl | rfl
  · exact congrArg _ (readResult_of_not_done _ (s := s.popScript rest) h)
  · exact congrArg _ (readResult_of_not_done _ (s := s.popScript rest) h)

/-- Settles O46: one alternative per register. -/
theorem hostReadsReturnRegisters : Obligations.HostReadsReturnRegisters := by
  intro s reg rest hscript
  refine ⟨?_, ?_, ?_, ?_, ?_, ?_, ?_, fun hreg => step_read_result_of_not_done hscript hreg⟩
  all_goals
    rintro rfl
    rw [step_cons hscript]
  case refine_1 | refine_2 | refine_3 | refine_4 => rfl
  case refine_5 =>
    show Host.Outcome.next { s with script := rest, hostData := s.status.code.zeroExtend 64 } = _
    cases s.status <;> rfl
  case refine_6 | refine_7 =>
    intro hdone
    exact congrArg _ (readResult_of_done _ (s := s.popScript rest) hdone)

/-- Settles O47: the reset input leaves IDLE, and a CORE not BUSY stays as it is. -/
theorem resetAbandonsCommand : Obligations.ResetAbandonsCommand := by
  intro s rest hscript
  exact ⟨_, step_cons hscript, rfl, rfl, rfl, rfl, fun u hidle hempty =>
    (step_nil hempty).trans (coreStep_of_not_busy hidle)⟩

/-- Settles O48: what R35 gives for reset, and the reset input. -/
theorem resetStateIsIdle : Obligations.ResetStateIsIdle :=
  ⟨rfl, rfl, rfl, fun _ _ hscript => ⟨_, step_cons hscript, rfl, rfl, rfl⟩⟩

/-! ### A START together with a step of CORE (R175) -/

/-- CORE's own step changes no operand (R20, R22, R196). -/
theorem coreStep_sameOperands {s t : State} (h : coreStep s = .next t) : SameOperands s t := by
  rcases coreStep_cases h with ⟨rfl, _⟩ | ⟨_, i, _, hphase⟩
  · exact .rfl
  · exact phaseStep_sameOperands hphase

/-- A step that completes a command leaves its legal descriptor in `CMD`. -/
theorem coreStep_done_decodes {s t : State} (hbusy : s.status = .busy) (h : coreStep s = .next t)
    (hdone : t.status = .done) : ∃ i, decode t.cmd = .ok i := by
  rcases coreStep_cases h with ⟨rfl, _⟩ | ⟨_, i, hi, hphase⟩
  · rw [hbusy] at hdone
    cases hdone
  · exact ⟨i, by rw [(phaseStep_sameOperands hphase).cmd, hi]⟩

theorem step_startTogether {s t : State} {rest : List HostMove}
    (hscript : s.script = .startTogether :: rest) (h : coreStep (s.popScript rest) = .next t) :
    step s = onStart acceptStart t := by
  rw [step_cons hscript]
  simp only [hostStep, h]

/-- Settles O52: CORE's step by `step_startTogether`, then the START on the state it leaves. -/
theorem completionPrecedesStart : Obligations.CompletionPrecedesStart := by
  intro s rest hscript
  refine ⟨fun t hbusy hcore => ⟨fun hdone => ⟨?_, ?_⟩, fun hbusy' => ?_⟩, fun hidle => ?_⟩
  · obtain ⟨i, hi⟩ := coreStep_done_decodes (s := s.popScript rest) hbusy hcore hdone
    rw [step_startTogether hscript hcore]
    exact onStart_accepts acceptStart (by simp [hdone]) hi
  · rintro u r rest' rfl hr
    exact step_read_result_of_not_done rfl hr (by simp)
  · rw [step_startTogether hscript hcore, onStart_of_busy acceptStart hbusy']
  · have hcore : coreStep (s.popScript rest) = .next (s.popScript rest) := coreStep_of_not_busy hidle
    rw [step_startTogether hscript hcore]
    rfl

/-! ### A changed message (R48) -/

/-- The state with the mark of R48 clear. -/
def State.unmark (s : State) : State := { s with msgChanged := false }

/-- The state with its two result words drawn freely (R48, log entry 3). -/
def State.freeResults (t : State) : State :=
  { t with
    resLo := Config.freeWord t.free, resHi := Config.freeWord (t.free + 1), free := t.free + 2 }

/-- The mark is none of the inputs of a terminal phase. -/
theorem short_unmark (i : Instr) (s : State) : (engineOf i).short s.unmark = (engineOf i).short s := by
  cases i <;> rfl

theorem tail_unmark (i : Instr) (s : State) : (engineOf i).tail s.unmark = (engineOf i).tail s := by
  cases i <;> rfl

/-- A completion with the mark differs from the one without it in the two result words. -/
theorem complete_of_mark (r : Pair) {s : State} (h : s.msgChanged = true) :
    s.complete r = (s.unmark.complete r).freeResults := by
  rw [State.complete_of_changed r s h, State.complete_of_unchanged r s.unmark rfl]
  rfl

/-- A marked command that completes does so with free result words, and else as the unmarked one. -/
theorem phaseStep_of_mark {i : Instr} {s t : State} (hmark : s.msgChanged = true)
    (hbusy : s.status = .busy) (h : phaseStep (engineOf i) s.unmark = .ok t)
    (hdone : t.status = .done) : phaseStep (engineOf i) s = .ok t.freeResults := by
  rcases phaseStep_status h with ⟨hp | hp, _⟩ | ⟨_, _, hstatus, _⟩
  · rw [phaseStep_short _ hp, short_unmark] at h
    obtain ⟨r, hr, ht⟩ := bind_ok h
    cases ht
    rw [phaseStep_short (s := s) _ hp, hr, ← complete_of_mark r hmark]
    rfl
  · rw [phaseStep_tail _ hp, tail_unmark] at h
    obtain ⟨r, hr, ht⟩ := bind_ok h
    cases ht
    rw [phaseStep_tail (s := s) _ hp, hr, ← complete_of_mark r hmark]
    rfl
  · rw [hdone] at hstatus
    exact absurd (hstatus.trans hbusy) (by simp)

/-- CORE's own step on a marked command that completes. -/
theorem coreStep_of_mark {s t : State} (hmark : s.msgChanged = true) (hbusy : s.status = .busy)
    (h : coreStep s.unmark = .next t) (hdone : t.status = .done) :
    coreStep s = .next t.freeResults := by
  rcases coreStep_cases h with ⟨rfl, _⟩ | ⟨_, i, hi, hphase⟩
  · exact absurd (hbusy.symm.trans hdone) (by simp)
  · rw [coreStep_of_busy hbusy hi, phaseStep_of_mark hmark hbusy hphase hdone]
    rfl

/-- A placement while BUSY: the mark rises where it changes a byte of the message (R48). -/
theorem step_place_busy {s : State} {off : Nat} {bytes : List Byte} {rest : List HostMove}
    (hscript : s.script = .place off bytes :: rest) (hbusy : s.status = .busy) :
    step s = .next { s with
      script := rest
      mem := Memory.place s.mem off bytes
      msgChanged := s.msgChanged || Memory.changes s.mem s.len.toNat off bytes } := by
  rw [step_cons hscript]
  simp only [hostStep, hostPlace, State.popScript_status, hbusy, decide_true, Bool.true_and]
  rfl

/-- Settles O53: the mark by `Memory.changes_iff`, the free words by `phaseStep_of_mark`. -/
theorem changedMessageFreesOnlyTheResult : Obligations.ChangedMessageFreesOnlyTheResult := by
  refine ⟨fun s off bytes rest hscript hbusy => ⟨fun hchange => ?_, fun hsame => ?_⟩,
    fun s t hscript hbusy hmark hstep hdone => ?_⟩
  · rw [step_place_busy hscript hbusy, (Memory.changes_iff s.mem _ off bytes).mpr hchange,
      Bool.or_true]
  · rw [step_place_busy hscript hbusy, Memory.changes_eq_false hsame, Bool.or_false]
  · rw [step_nil hscript]
    have hcore : coreStep s.unmark = .next t := (step_nil (s := s.unmark) hscript).symm.trans hstep
    exact coreStep_of_mark hmark hbusy hcore hdone

/-! ### What a step of the machine changes -/

/-- Everything a step does to `STATUS`, `RES_LO` and `RES_HI` (R23, R25). -/
inductive StepEvent (s t : State) : Prop where
  /-- None of the three changes. -/
  | quiet (status : t.status = s.status) (resLo : t.resLo = s.resLo) (resHi : t.resHi = s.resHi)
  | reset (rest : List HostMove) (script : s.script = .reset :: rest) (status : t.status = .idle)
  /-- An accepted START. -/
  | start (rest : List HostMove) (script : s.script = .start :: rest ∨ s.script = .startTogether :: rest)
    (idle : s.status ≠ .busy) (legal : ∃ i, decode s.cmd = .ok i) (status : t.status = .busy)
    (resLo : t.resLo = s.resLo) (resHi : t.resHi = s.resHi)
  /-- A call that is accepted and completes. -/
  | call (rest : List HostMove) (script : s.script = .call :: rest) (idle : s.status ≠ .busy)
    (legal : ∃ i, decode s.cmd = .ok i) (status : t.status = .done)
  /-- A terminal phase, after which a START in the same instant sets BUSY again (R175). -/
  | complete (busy : s.status = .busy) (phase : s.phase = .shortPath ∨ s.phase = .tail)
    (status : t.status = .done ∨ t.status = .busy)

/-- CORE's own step is quiet or a terminal phase. -/
theorem coreStep_event {s t : State} (h : coreStep s = .next t) :
    (t.status = s.status ∧ t.resLo = s.resLo ∧ t.resHi = s.resHi) ∨
    (s.status = .busy ∧ (s.phase = .shortPath ∨ s.phase = .tail) ∧ t.status = .done) := by
  rcases coreStep_cases h with ⟨rfl, _⟩ | ⟨hbusy, i, _, hphase⟩
  · exact .inl ⟨rfl, rfl, rfl⟩
  · rcases phaseStep_status hphase with ⟨hterminal, hdone, _⟩ | ⟨_, _, hstatus, _, hlo, hhi, _⟩
    · exact .inr ⟨hbusy, hterminal, hdone⟩
    · exact .inl ⟨hstatus, hlo, hhi⟩

theorem StepEvent.of_coreStep {s t : State} (h : coreStep s = .next t) : StepEvent s t := by
  rcases coreStep_event h with ⟨hstatus, hlo, hhi⟩ | ⟨hbusy, hphase, hdone⟩
  · exact .quiet hstatus hlo hhi
  · exact .complete hbusy hphase (.inl hdone)

/-- A START is quiet or accepted. -/
theorem acceptStart_event {s t : State} (h : onStart acceptStart s = .next t) :
    t.resLo = s.resLo ∧ t.resHi = s.resHi ∧
    (t.status = s.status ∨
      (s.status ≠ .busy ∧ (∃ i, decode s.cmd = .ok i) ∧ t.status = .busy)) := by
  rcases onStart_cases h with ⟨_, hs⟩ | ⟨_, _, hs⟩ | ⟨hidle, i, hi, hs⟩
  · cases hs; exact ⟨rfl, rfl, .inl rfl⟩
  · cases hs; exact ⟨rfl, rfl, .inl rfl⟩
  · cases hs; exact ⟨rfl, rfl, .inr ⟨hidle, ⟨i, hi⟩, rfl⟩⟩

theorem step_event {s t : State} (h : step s = .next t) : StepEvent s t := by
  rcases step_cases h with ⟨_, hcore⟩ | ⟨rest, _, hcore⟩ | ⟨reg, v, rest, _, rfl⟩ |
    ⟨reg, rest, v, k, _, rfl⟩ | ⟨off, bytes, rest, _, rfl⟩ | ⟨rest, hscript, hstart⟩ |
    ⟨rest, u, hscript, hcore, hstart⟩ | ⟨rest, _, _, rfl⟩ | ⟨rest, _, _, hcore⟩ |
    ⟨rest, hscript, hcall⟩ | ⟨rest, hscript, rfl⟩
  · exact .of_coreStep hcore
  · obtain ⟨hstatus, hlo, hhi⟩ | ⟨hbusy, hphase, hdone⟩ := coreStep_event hcore
    · exact .quiet hstatus hlo hhi
    · exact .complete hbusy hphase (.inl hdone)
  · exact .quiet (by simp) (by simp) (by simp)
  · exact .quiet rfl rfl rfl
  · exact .quiet rfl rfl rfl
  · obtain ⟨hlo, hhi, hstatus | ⟨hidle, hlegal, hbusy⟩⟩ := acceptStart_event hstart
    · exact .quiet hstatus hlo hhi
    · exact .start rest (.inl hscript) hidle hlegal hbusy hlo hhi
  · obtain ⟨hlo', hhi', hstart'⟩ := acceptStart_event hstart
    obtain ⟨hstatus, hlo, hhi⟩ | ⟨hbusy, hphase, hdone⟩ := coreStep_event hcore
    · obtain hstatus' | ⟨hidle, hlegal, hbusy⟩ := hstart'
      · exact .quiet (hstatus'.trans hstatus) (hlo'.trans hlo) (hhi'.trans hhi)
      · rw [hstatus] at hidle
        rw [(coreStep_sameOperands hcore).cmd] at hlegal
        exact .start rest (.inr hscript) hidle hlegal hbusy (hlo'.trans hlo) (hhi'.trans hhi)
    · refine .complete hbusy hphase ?_
      obtain hstatus' | ⟨_, _, hbusy'⟩ := hstart'
      · exact .inl (hstatus'.trans hdone)
      · exact .inr hbusy'
  · exact .quiet rfl rfl rfl
  · exact .of_coreStep hcore
  · rcases onStart_cases hcall with ⟨_, hs⟩ | ⟨_, _, hs⟩ | ⟨hidle, i, hi, hs⟩
    · cases hs; exact .quiet rfl rfl rfl
    · cases hs; exact .quiet rfl rfl rfl
    · obtain ⟨_, _, hend⟩ := exec_next hs.symm
      exact .call rest hscript hidle ⟨i, hi⟩ hend.status
  · exact .reset rest hscript rfl

/-- Settles O49: each alternative of `step_event` but the quiet one is an event of R25. -/
theorem statusTransitions : Obligations.StatusTransitions := by
  refine ⟨⟨rfl, rfl, rfl⟩, fun st => by cases st <;> decide, fun s t hstep hchange => ?_⟩
  cases step_event hstep with
  | quiet hsame _ _ => exact absurd hsame hchange
  | reset rest hscript hstatus => exact .inl ⟨⟨rest, hscript⟩, hstatus⟩
  | start rest hscript hidle hlegal hstatus _ _ =>
    exact .inr (.inl ⟨⟨rest, hscript⟩, hidle, hlegal, hstatus⟩)
  | call rest hscript hidle hlegal hstatus =>
    exact .inr (.inr (.inl ⟨⟨rest, hscript⟩, hidle, hlegal, hstatus⟩))
  | complete hbusy hphase hstatus =>
    have hdone := hstatus.resolve_right fun h => hchange (h.trans hbusy.symm)
    exact .inr (.inr (.inr ⟨hbusy, hphase, hdone⟩))

/-- Settles O50: a quiet step and an accepted START leave both words alone. -/
theorem resultsWrittenOnlyAtCompletion : Obligations.ResultsWrittenOnlyAtCompletion := by
  intro s t hstep hchange
  cases step_event hstep with
  | quiet _ hlo hhi => exact absurd hchange (by simp [hlo, hhi])
  | reset rest hscript _ => exact .inl ⟨rest, .inl hscript⟩
  | start _ _ _ _ _ hlo hhi => exact absurd hchange (by simp [hlo, hhi])
  | call rest hscript _ _ _ => exact .inl ⟨rest, .inr hscript⟩
  | complete hbusy hphase _ => exact .inr ⟨hbusy, hphase⟩

/-- The operand registers, `CMD` and the message space are as they were. -/
structure KeepsOperands (s t : State) : Prop where
  cmd : t.cmd = s.cmd
  len : t.len = s.len
  seed0 : t.seed0 = s.seed0
  seed1 : t.seed1 = s.seed1
  mem : t.mem = s.mem

theorem SameOperands.keepsOperands {s t : State} (h : SameOperands s t) : KeepsOperands s t :=
  ⟨h.cmd, h.len, h.seed0, h.seed1, h.mem⟩

theorem KeepsOperands.trans {s t u : State} (h : KeepsOperands s t) (h' : KeepsOperands t u) :
    KeepsOperands s u :=
  ⟨h'.cmd.trans h.cmd, h'.len.trans h.len, h'.seed0.trans h.seed0, h'.seed1.trans h.seed1,
    h'.mem.trans h.mem⟩

theorem keepsOperands_popScript (rest : List HostMove) (s : State) :
    KeepsOperands s (s.popScript rest) := ⟨rfl, rfl, rfl, rfl, rfl⟩

/-- A START keeps the operands where an accepted one does. -/
theorem onStart_keepsOperands {accept : Instr → State → Host.Outcome State Fault Refusal} {s t : State}
    (haccept : ∀ i, accept i s = .next t → KeepsOperands s t) (h : onStart accept s = .next t) :
    KeepsOperands s t := by
  rcases onStart_cases h with ⟨_, hs⟩ | ⟨_, _, hs⟩ | ⟨_, i, _, hs⟩
  · cases hs; exact ⟨rfl, rfl, rfl, rfl, rfl⟩
  · cases hs; exact ⟨rfl, rfl, rfl, rfl, rfl⟩
  · exact haccept i hs.symm

theorem acceptStart_keepsOperands {s t : State} (h : onStart acceptStart s = .next t) :
    KeepsOperands s t :=
  onStart_keepsOperands (fun _ hs => by cases hs; exact ⟨rfl, rfl, rfl, rfl, rfl⟩) h

theorem exec_keepsOperands {i : Instr} {s t : State} (h : exec i s = .next t) : KeepsOperands s t := by
  obtain ⟨_, _, hend⟩ := exec_next h
  exact hend.same.keepsOperands

/-- A step keeps the operands and the message space unless it is a write, a placement or a reset (R22, R24,
R40, R52). -/
theorem step_operands {s t : State} (h : step s = .next t) :
    (∃ reg v rest, s.script = .write reg v :: rest ∧ t = hostWrite reg v (s.popScript rest)) ∨
    (∃ off bytes rest, s.script = .place off bytes :: rest ∧
      t = hostPlace off bytes (s.popScript rest)) ∨
    (∃ rest, s.script = .reset :: rest ∧ t = hostReset (s.popScript rest)) ∨
    KeepsOperands s t := by
  rcases step_cases h with ⟨_, hcore⟩ | ⟨rest, _, hcore⟩ | ⟨reg, v, rest, hscript, ht⟩ |
    ⟨reg, rest, v, k, _, rfl⟩ | ⟨off, bytes, rest, hscript, ht⟩ | ⟨rest, _, hstart⟩ |
    ⟨rest, u, _, hcore, hstart⟩ | ⟨rest, _, _, rfl⟩ | ⟨rest, _, _, hcore⟩ |
    ⟨rest, _, hcall⟩ | ⟨rest, hscript, ht⟩
  · exact .inr (.inr (.inr (coreStep_sameOperands hcore).keepsOperands))
  · exact .inr (.inr (.inr ((keepsOperands_popScript rest s).trans
      (coreStep_sameOperands hcore).keepsOperands)))
  · exact .inl ⟨reg, v, rest, hscript, ht⟩
  · exact .inr (.inr (.inr ⟨rfl, rfl, rfl, rfl, rfl⟩))
  · exact .inr (.inl ⟨off, bytes, rest, hscript, ht⟩)
  · exact .inr (.inr (.inr ((keepsOperands_popScript rest s).trans
      (acceptStart_keepsOperands hstart))))
  · exact .inr (.inr (.inr ((keepsOperands_popScript rest s).trans
      ((coreStep_sameOperands hcore).keepsOperands.trans (acceptStart_keepsOperands hstart)))))
  · exact .inr (.inr (.inr (keepsOperands_popScript rest s)))
  · exact .inr (.inr (.inr (coreStep_sameOperands hcore).keepsOperands))
  · exact .inr (.inr (.inr ((keepsOperands_popScript rest s).trans
      (onStart_keepsOperands (fun _ => exec_keepsOperands) hcall))))
  · exact .inr (.inr (.inl ⟨rest, hscript, ht⟩))

/-- A host write changes at most the named register, and nothing while BUSY (R22, R24). -/
theorem hostWrite_changes (reg : HostReg) (v : W64) (s : State) :
    ((hostWrite reg v s).cmd ≠ s.cmd → s.status ≠ .busy ∧ reg = .cmd) ∧
    ((hostWrite reg v s).len ≠ s.len → s.status ≠ .busy ∧ reg = .len) ∧
    ((hostWrite reg v s).seed0 ≠ s.seed0 → s.status ≠ .busy ∧ reg = .seed0) ∧
    ((hostWrite reg v s).seed1 ≠ s.seed1 → s.status ≠ .busy ∧ reg = .seed1) := by
  by_cases hbusy : s.status = .busy
  · simp [hostWrite_of_busy reg v s hbusy]
  · unfold hostWrite
    split
    · contradiction
    · cases reg <;> simp [hbusy]

/-- Settles O51: a write changes the register it names, a placement none. -/
theorem operandsChangeOnlyByHostWrite : Obligations.OperandsChangeOnlyByHostWrite := by
  intro s t hstep hreset
  rcases step_operands hstep with ⟨reg, v, rest, hscript, rfl⟩ | ⟨off, bytes, rest, _, rfl⟩ |
    ⟨rest, hscript, _⟩ | ⟨hcmd, hlen, hseed0, hseed1, _⟩
  · obtain ⟨hcmd, hlen, hseed0, hseed1⟩ := hostWrite_changes reg v (s.popScript rest)
    have named {r : HostReg} : s.status ≠ .busy ∧ reg = r →
        s.status ≠ .busy ∧ ∃ v rest, s.script = .write r v :: rest :=
      fun ⟨hidle, hreg⟩ => ⟨hidle, v, rest, hreg ▸ hscript⟩
    exact ⟨named ∘ hcmd, named ∘ hlen, named ∘ hseed0, named ∘ hseed1⟩
  · simp
  · exact absurd ⟨rest, hscript⟩ hreset
  · simp [hcmd, hlen, hseed0, hseed1]

/-- Settles O54: `step_operands`, and `Memory.find_place` for the placement. -/
theorem messageWrittenOnlyByHost : Obligations.MessageWrittenOnlyByHost := by
  refine ⟨fun s t hstep hplace => ?_, fun s off bytes rest hscript => ?_⟩
  · rcases step_operands hstep with ⟨reg, v, rest, _, rfl⟩ | ⟨off, bytes, rest, hscript, _⟩ |
      ⟨rest, _, rfl⟩ | hkeeps
    · simp
    · exact absurd ⟨off, bytes, rest, hscript⟩ hplace
    · rfl
    · exact hkeeps.mem
  · exact ⟨_, step_cons hscript, Memory.find_place s.mem off bytes⟩

end Sys2Proof.Machine
end
